-- ==== Sys2Proof/Word.lean ====
section
/-! DEFINITION. The machine's words: a 64-bit register word, a byte of the host window, and a binary64 number kept as its
bit pattern (spec 00_scope.md R5, R11; 20_memory.md R72). -/

namespace Sys2Proof

/-- A register of the host window, a command word: 64 bits, bit 0 the least significant (R11, R32, R100). -/
abbrev Word := BitVec 64

/-- One byte of the host window (R72). -/
abbrev Byte := BitVec 8

/-- A binary64 number, held as its IEEE 754 pattern: sign in bit 63, exponent in bits 62–52, fraction in bits 51–0
(R5, R72). `=` on this type compares patterns; the IEEE comparison of R6 is `F64.eq`. -/
structure F64 where
  bits : Word
deriving DecidableEq, Repr, Inhabited

/-- The binary64 operations that can make a NaN out of operands (R6); names the operation for `Config.nanBits`. -/
inductive FloatOp where
  | add | sub | mul | div | floor
deriving DecidableEq, Repr

end Sys2Proof
end

