-- ==== Sys2Proof/Config.lean ====
section
/-! DEFINITION. What the spec leaves open (constants without a body: nothing can be proved about their values) and what it
fixes as a named parameter of the implementation (00_scope.md R7–R10). -/

namespace Sys2Proof.Config

/-! ## Open parameters and free values -/

/-- The values `SIN` takes before R7's law is put on them (`Machine/Math.lean`); 92_eei_decisions.md D2, log entry 2. -/
opaque sinRaw : F64 → F64

/-- The values `EXP` takes before R7's law is put on them; D2, log entry 2. -/
opaque expRaw : F64 → F64

/-- The values `EXP2` takes before R7's law is put on them; D2, log entry 2. -/
opaque exp2Raw : F64 → F64

/-- `RNG`: the k-th draw since power-on, before R8's law is put on it; D3, log entry 3. -/
opaque drawRaw : Nat → F64

/-- Sign (bit 51) and payload (bits 50–0) of the NaN that an operation makes of two operands: the spec gives NaN results
and not their bits; log entry 1. The result of `floor` is asked for with its operand twice. -/
opaque nanBits : FloatOp → F64 → F64 → BitVec 52

/-- How many host steps come between the k-th latched command and its core step at most (R313, D42; log entry 5). -/
opaque latency : Nat → Nat

/-- What the k-th read of an unspecified field while busy returns (R312, 93_implementation_defined.md row 5; log entry 6). -/
opaque busyRead : Nat → Word

/-- `WINDOW_BASE`: where the window sits in the platform's address space (R76, D4; log entry 13). -/
opaque windowBase : Nat

/-! ## The parameters of R10 and the constants of R9 -/

/-- `OUTBUF_LEN` (R10, D13). -/
def outbufLen : Nat := 2048

/-- Size of the host window in bytes (R10, R32, D4). -/
def windowSize : Nat := 0x8000

/-- `SR_MIN` in Hz (R10, D14). -/
def srMin : Nat := 80

/-- `KEY_OCTAVE_BIAS` (R10, R141, D15; 90_conflicts.md C3). -/
def keyOctaveBias : Int := 0

/-- `F_MAX`: a clamp on the filter coefficient, absent (R10, R212, D28). -/
def fMax : Option F64 := none

/-- `PI` (R9). -/
def pi : F64 := ⟨0x400921FB54442D18⟩

/-- `TWO_PI` (R9). -/
def twoPi : F64 := ⟨0x401921FB54442D18⟩

/-- `ENV_EPSILON` = 0.001 (R9, D24). -/
def envEpsilon : F64 := ⟨0x3F50624DD2F1A9FC⟩

/-- `LN_INV_EPS`, the nearest binary64 to ln(1000) (R9, D24). -/
def lnInvEps : F64 := ⟨0x401BA18A998FFFA0⟩

/-- `MIN_CUTOFF` = 20.0 Hz (R9, R10). -/
def minCutoff : F64 := ⟨0x4034000000000000⟩

/-- The divisor of `MAX_CUTOFF(fs) = fs / 4.0` (R10, R211). -/
def maxCutoffDivisor : F64 := ⟨0x4010000000000000⟩

/-- `Q_FLOOR` = 0.5 (R9, R10). -/
def qFloor : F64 := ⟨0x3FE0000000000000⟩

/-- `LFO_CUTOFF_RANGE_HZ` = 1000.0 (R9, R10, D22). -/
def lfoCutoffRangeHz : F64 := ⟨0x408F400000000000⟩

/-- `FREQ_MAX` = 20000.0 Hz (R10, D16). -/
def freqMax : F64 := ⟨0x40D3880000000000⟩

/-- `ENV_TIME_MIN` = 0.001 s (R10, D27). -/
def envTimeMin : F64 := ⟨0x3F50624DD2F1A9FC⟩

/-- `ENV_TIME_MAX` = 60.0 s (R10, D27). -/
def envTimeMax : F64 := ⟨0x404E000000000000⟩

/-- `LFO_RATE_MAX` = 100.0 Hz (R10, D8). -/
def lfoRateMax : F64 := ⟨0x4059000000000000⟩

/-- The top of the resonance range, 30.0 (R10, R41). -/
def resonanceMax : F64 := ⟨0x403E000000000000⟩

/-- The default pulse width, 0.5 (R10, R41), also the sub-oscillator's and the LFO square's (R47, R140, R161). -/
def pulseWidthDefault : F64 := ⟨0x3FE0000000000000⟩

end Sys2Proof.Config
end

