-- ==== Sys2Proof/Machine/Float.lean ====
section
/-! DEFINITION. Binary64 arithmetic, bit for bit (00_scope.md R5, R6). Every finite number is a whole number of units of
2^-1074; each operation computes its exact result in those units, as an integer or a quotient of integers, and rounds it
once, to nearest with ties to even. -/

namespace Sys2Proof.F64

/-! ## The parts of a pattern -/

/-- Bit 63. -/
def sign (a : F64) : Bool := decide (2 ^ 63 ≤ a.bits.toNat)

/-- Bits 62–0 as a number. -/
def low (a : F64) : Nat := a.bits.toNat % 2 ^ 63

/-- The exponent field, bits 62–52. -/
def expo (a : F64) : Nat := a.low / 2 ^ 52

/-- The fraction field, bits 51–0. -/
def frac (a : F64) : Nat := a.low % 2 ^ 52

/-- `isNaN(v) = not (v == v)` of R6, read off the pattern (`Laws/Float.lean` proves the two agree). -/
def isNaN (a : F64) : Bool := decide (2047 * 2 ^ 52 < a.low)

def isInf (a : F64) : Bool := decide (a.low = 2047 * 2 ^ 52)

def isFinite (a : F64) : Bool := decide (a.low < 2047 * 2 ^ 52)

/-- The number is +0.0 or -0.0. -/
def isZero (a : F64) : Bool := decide (a.low = 0)

/-- How many units of 2^-1074 the 63 low bits `e` of a pattern stand for. The pattern of infinity gets 2^2098 units, where
the next binade would begin, so it compares above every finite number. -/
def unitsOf (e : Nat) : Nat :=
  if e / 2 ^ 52 = 0 then e else (2 ^ 52 + e % 2 ^ 52) * 2 ^ (e / 2 ^ 52 - 1)

/-- The magnitude of a number that is no NaN, in units of 2^-1074. -/
def mag (a : F64) : Nat := unitsOf a.low

/-- The value of a number that is no NaN, in units of 2^-1074. -/
def value (a : F64) : Int := if a.sign then -(a.mag : Int) else (a.mag : Int)

/-- 1.0 is 2^1074 units. -/
def scale : Nat := 1074

/-- The number with this sign and these 63 low bits. -/
def ofParts (neg : Bool) (e : Nat) : F64 := ⟨BitVec.ofNat 64 ((if neg then 2 ^ 63 else 0) + e)⟩

/-! ## Rounding -/

/-- The integer nearest to `num / den`, the even one of two equally near (roundTiesToEven). -/
def nearestEven (num den : Nat) : Nat :=
  if 2 * (num % den) < den then num / den
  else if den < 2 * (num % den) then num / den + 1
  else num / den + num / den % 2

/-- The low 63 bits of the binary64 number nearest to `num / den` units. The binade is found from the integer part; below
2^53 units the spacing is one unit, which takes in the subnormal numbers; a result past the largest finite number is
infinity. -/
def roundLow (num den : Nat) : Nat :=
  let shift := Nat.log2 (num / den) - 52
  min (shift * 2 ^ 52 + nearestEven num (den * 2 ^ shift)) (2047 * 2 ^ 52)

/-- The binary64 number nearest to `± num / den` units. -/
def round (neg : Bool) (num den : Nat) : F64 := ofParts neg (roundLow num den)

/-- The binary64 number nearest to `± p / q`: the literal `f64(<decimal>)` of R111. -/
def nearest (neg : Bool) (p q : Nat) : F64 := round neg (p * 2 ^ scale) q

/-! ## Constants -/

/-- +0.0. -/
def zero : F64 := ⟨0⟩
/-- -0.0. -/
def negZero : F64 := ⟨0x8000000000000000⟩
def one : F64 := ⟨0x3FF0000000000000⟩
def negOne : F64 := ⟨0xBFF0000000000000⟩
def two : F64 := ⟨0x4000000000000000⟩
def four : F64 := ⟨0x4010000000000000⟩
def quarter : F64 := ⟨0x3FD0000000000000⟩
def half : F64 := ⟨0x3FE0000000000000⟩
def threeQuarters : F64 := ⟨0x3FE8000000000000⟩
/-- 12.0, semitones to the octave (R141). -/
def twelve : F64 := ⟨0x4028000000000000⟩
/-- 440.0 Hz (R141). -/
def a440 : F64 := ⟨0x407B800000000000⟩
/-- 1200.0, cents to the octave (R138). -/
def twelveHundred : F64 := ⟨0x4092C00000000000⟩

/-- The infinity of the given sign. -/
def inf (neg : Bool) : F64 := ofParts neg (2047 * 2 ^ 52)

/-- The zero of the given sign. -/
def signedZero (neg : Bool) : F64 := ofParts neg 0

/-- The NaN that an operation makes of `a` and `b`: quiet, its sign and payload free (log entry 1). -/
def nan (op : FloatOp) (a b : F64) : F64 :=
  let p := (Config.nanBits op a b).toNat
  ofParts (decide (2 ^ 51 ≤ p)) (2047 * 2 ^ 52 + 2 ^ 51 + p % 2 ^ 51)

/-! ## The operations of R6 -/

/-- `-a`: the sign bit changes, nothing else. -/
def neg (a : F64) : F64 := ofParts (!a.sign) a.low

/-- The sum of two finite numbers. A sum that is exactly zero is -0.0 only if both operands are. -/
def addFinite (a b : F64) : F64 :=
  let v := a.value + b.value
  if v = 0 then signedZero (a.sign && b.sign) else round (decide (v < 0)) v.natAbs 1

/-- `a + b`. -/
def add (a b : F64) : F64 :=
  if a.isNaN || b.isNaN then nan .add a b
  else if a.isInf then (if b.isInf && (a.sign != b.sign) then nan .add a b else a)
  else if b.isInf then b
  else addFinite a b

/-- `a - b`. -/
def sub (a b : F64) : F64 :=
  if a.isNaN || b.isNaN then nan .sub a b
  else if a.isInf then (if b.isInf && (a.sign == b.sign) then nan .sub a b else a)
  else if b.isInf then neg b
  else addFinite a (neg b)

/-- `a * b`. -/
def mul (a b : F64) : F64 :=
  if a.isNaN || b.isNaN then nan .mul a b
  else if a.isInf || b.isInf then
    (if a.isZero || b.isZero then nan .mul a b else inf (a.sign != b.sign))
  else round (a.sign != b.sign) (a.mag * b.mag) (2 ^ scale)

/-- `a / b`. -/
def div (a b : F64) : F64 :=
  if a.isNaN || b.isNaN then nan .div a b
  else if a.isInf then (if b.isInf then nan .div a b else inf (a.sign != b.sign))
  else if b.isInf then signedZero (a.sign != b.sign)
  else if b.isZero then (if a.isZero then nan .div a b else inf (a.sign != b.sign))
  else round (a.sign != b.sign) (a.mag * 2 ^ scale) b.mag

/-- `floor(a)`: the largest integer not above `a`, with the sign of `a` if it is zero. -/
def floor (a : F64) : F64 :=
  if a.isNaN then nan .floor a a
  else if a.isInf then a
  else
    let k := a.value / (2 ^ scale : Nat)
    if k = 0 then signedZero a.sign else round (decide (k < 0)) (k.natAbs * 2 ^ scale) 1

/-- `a < b`: false if an operand is a NaN. -/
def lt (a b : F64) : Bool := !a.isNaN && !b.isNaN && decide (a.value < b.value)

/-- `a <= b`: false if an operand is a NaN. -/
def le (a b : F64) : Bool := !a.isNaN && !b.isNaN && decide (a.value ≤ b.value)

/-- `a == b`: false if an operand is a NaN; `-0.0 == +0.0`. -/
def eq (a b : F64) : Bool := !a.isNaN && !b.isNaN && decide (a.value = b.value)

/-! ## The helper functions of R6 and the conversions of R11 -/

/-- `max(a, b) = if a > b then a else b`. -/
def max (a b : F64) : F64 := if lt b a then a else b

/-- `min(a, b) = if a < b then a else b`. -/
def min (a b : F64) : F64 := if lt a b then a else b

/-- `clamp(v, lo, hi)`; a NaN passes unchanged. -/
def clamp (v lo hi : F64) : F64 := if lt v lo then lo else if lt hi v then hi else v

/-- `abs(a) = if a < 0.0 then -a else a`. -/
def abs (a : F64) : F64 := if lt a zero then neg a else a

/-- `f64(n)` of an unsigned integer, exact below 2^53. -/
def ofNat (n : Nat) : F64 := round false (n * 2 ^ scale) 1

/-- `f64(k)` of a mathematical integer (the key index of R113). -/
def ofInt (k : Int) : F64 := round (decide (k < 0)) (k.natAbs * 2 ^ scale) 1

end Sys2Proof.F64
end

