-- ==== Sys2Proof/Machine/Math.lean ====
section
/-! DEFINITION. `SIN`, `EXP`, `EXP2` and the draws: free values under the laws of 00_scope.md R7 and R8, and no other. Each
function is a constant of `Config` without a body, its value kept where it obeys the law and replaced by a lawful one where
it does not; every function that obeys the law is one of these, so nothing but the law can be proved (log entries 2, 3). -/

namespace Sys2Proof.Machine

/-- `lo <= x <= hi`; no NaN passes. -/
def within (lo hi x : F64) : Bool := F64.le lo x && F64.le x hi

/-- `SIN` (R7): for finite `x` a value in [-1, 1]; `SIN(+0.0)` is a zero. -/
def sin (x : F64) : F64 :=
  let r := Config.sinRaw x
  if !x.isFinite then r
  else if x = F64.zero then (if r.isZero then r else F64.zero)
  else if within F64.negOne F64.one r then r else F64.zero

/-- `EXP` (R7): for finite `x <= 0.0` a value in [0, 1]; `EXP(-0.0) == 1.0`. -/
def exp (x : F64) : F64 :=
  let r := Config.expRaw x
  if !(x.isFinite && F64.le x F64.zero) then r
  else if x = F64.negZero then F64.one
  else if within F64.zero F64.one r then r else F64.one

/-- `EXP2` (R7): for finite `x` a finite positive value; `EXP2(0.0) == 1.0`. -/
def exp2 (x : F64) : F64 :=
  let r := Config.exp2Raw x
  if !x.isFinite then r
  else if x = F64.zero then F64.one
  else if r.isFinite && F64.lt F64.zero r then r else F64.one

/-- The k-th draw (R8): a finite number in [-1, 1]. -/
def draw (k : Nat) : F64 :=
  let r := Config.drawRaw k
  if within F64.negOne F64.one r then r else F64.zero

end Sys2Proof.Machine
end

