-- ==== Sys2Proof/Syntax.lean ====
section
/-! DEFINITION. Names of things: the eight commands of the opcode map, the enumerations of the parameter bank, the
registers of the host window, what the host can do to the block, and the statements of a host program. -/

namespace Sys2Proof

/-- The commands of spec/opcode_table.json, one constructor per row (30_encoding.md R108). The operands are the raw
fields of the word; the core clamps them when it executes (R107). -/
inductive Instr where
  /-- `NOP`, R268. -/
  | nop
  /-- `NOTE_ON`, R261: note number and octave as the word gives them. -/
  | noteOn (note octave : Nat)
  /-- `NOTE_ON_HZ`, R262: the frequency is in `FREQ_ARG`. -/
  | noteOnHz
  /-- `NOTE_OFF`, R263. -/
  | noteOff
  /-- `SET_PARAMS`, R264. -/
  | setParams
  /-- `RENDER_SAMPLE`, R265: sample rate in Hz. -/
  | renderSample (srate : Nat)
  /-- `RENDER_BLOCK`, R266: frame count and sample rate in Hz. -/
  | renderBlock (frames srate : Nat)
  /-- `HARD_STOP`, R267. -/
  | hardStop
deriving DecidableEq, Repr

/-- Main-oscillator waveforms, codes 0–3 of `OSC_WAVE` (R41, R110). -/
inductive OscWave where
  | sine | triangle | sawtooth | square
deriving DecidableEq, Repr

/-- LFO waveforms, codes 0, 1, 3 and 4 of `LFO_WAVE`; 2 is reserved (R41, R110, R160; 90_conflicts.md C1). -/
inductive LfoWave where
  | sine | triangle | square | sampleHold
deriving DecidableEq, Repr

/-- Filter types, codes 0–2 of `FILTER_TYPE` (R41, R110). -/
inductive FilterType where
  | lowpass | bandpass | highpass
deriving DecidableEq, Repr

/-- The parameter registers `P0`–`P20`, in the order of R41. -/
inductive Param where
  | oscWave | pulseWidth | detune | subLevel | noiseLevel | masterVolume
  | filterType | cutoff | resonance | fenvAmount
  | aenvAttack | aenvDecay | aenvSustain | aenvRelease
  | fenvAttack | fenvDecay | fenvSustain | fenvRelease
  | lfoWave | lfoRate | lfoDepth
deriving DecidableEq, Repr

/-- The debug readouts, in the order of R48. -/
inductive DebugReg where
  | voiceFreq | oscPhase | subPhase | lfoPhase | lfoSh | fltL | fltB
  | aenvLevel | fenvLevel | aenvEntry | fenvEntry | aenvTime | fenvTime
deriving DecidableEq, Repr

/-- What stands at an offset of the host register window (R32). -/
inductive Reg where
  | id | status | err | cmd | freqArg | lastSample | sampleCount
  /-- A shadow parameter register. -/
  | param (p : Param)
  /-- A debug readout. -/
  | debug (d : DebugReg)
  /-- Element `i` of `OUTBUF`. -/
  | outbuf (i : Nat)
  /-- A reserved offset: reads as zero, ignores writes (R51). -/
  | reserved
deriving DecidableEq, Repr

/-- What the world outside the block does to it, one step each: an access `MemRead(addr, bytes)` or
`MemWrite(addr, bytes, v)` of the host (R12, R70), one round of the `wait` loop (R111), or the reset input (R300). -/
inductive Input where
  | read (addr bytes : Nat)
  | write (addr bytes : Nat) (v : Word)
  /-- `wait`: read `STATUS`, and do it again while `BUSY` reads 1. -/
  | poll
  /-- The reset input is asserted. -/
  | reset
deriving DecidableEq, Repr

/-- A statement of a host program (R111, R112). A register operand is its byte offset. -/
inductive Stmt where
  | wr (reg : Nat) (v : Word)
  | rd (reg : Nat)
  | wait
  | cmd (w : Word)
  /-- A command mnemonic used as a statement. -/
  | op (i : Instr)
  | stopAll
  | playHz (x : F64)
  | loadPreset (ps : List (Param × Word))
deriving DecidableEq, Repr

end Sys2Proof
end

