-- ==== Sys2Proof/WellFormed.lean ====
section
/-! DEFINITION. Which instructions can be written down as a command word: every operand fits its field. This is the check
the assembler makes (30_encoding.md R103–R105, R111); the clamps of R107 are the core's and are no part of it. -/

namespace Sys2Proof

/-- R111: `note` or `octave` above 255, `frames` above 2^24 − 1 and `srate` above 2^32 − 1 are rejected. -/
def Instr.wf : Instr → Bool
  | .nop | .noteOnHz | .noteOff | .setParams | .hardStop => true
  | .noteOn note octave => decide (note < 2 ^ 8) && decide (octave < 2 ^ 8)
  | .renderSample srate => decide (srate < 2 ^ 32)
  | .renderBlock frames srate => decide (frames < 2 ^ 24) && decide (srate < 2 ^ 32)

/-- The instruction has a command word. -/
abbrev Instr.WellFormed (i : Instr) : Prop := i.wf = true

end Sys2Proof
end

