-- ==== Sys2Proof/Decode.lean ====
section
/-! DEFINITION. The command encoding (30_encoding.md R100–R109): the rows of the opcode map with mask and match, the decoder,
the encoder, and the byte order of a 64-bit register (20_memory.md R72). -/

namespace Sys2Proof

/-! ## Bit fields and bytes -/

/-- `w[hi:lo]` as an unsigned integer (R11). -/
def bitField (w : Word) (hi lo : Nat) : Nat := w.toNat / 2 ^ lo % 2 ^ (hi + 1 - lo)

/-- Byte `k` of a word: bits `[8k+7 : 8k]` (R72). -/
def byteOf (w : Word) (k : Nat) : Byte := (w >>> (8 * k)).setWidth 8

/-- The eight bytes of a word as the window presents them, the lowest offset first (R72). -/
def bytesOfWord (w : Word) : List Byte := [0, 1, 2, 3, 4, 5, 6, 7].map (byteOf w)

/-- The word that these bytes present, the lowest offset first; missing bytes are 0. -/
def wordOfBytes : List Byte → Word
  | [] => 0
  | b :: bs => b.setWidth 64 ||| wordOfBytes bs <<< 8

/-! ## The opcode map -/

/-- The operand formats (R102–R105). -/
inductive Format where
  | Z | K | S | R
deriving DecidableEq, Repr

/-- A row of R108 without its operands. -/
inductive Op where
  | nop | noteOn | noteOnHz | noteOff | setParams | renderSample | renderBlock | hardStop
deriving DecidableEq, Repr

/-- A row of the opcode map of R108. -/
structure OpRow where
  op : Op
  mnemonic : String
  format : Format
  opcode : Nat
  mtch : Word
  mask : Word
deriving DecidableEq, Repr

/-- The opcode map of R108. -/
def opcodeMap : List OpRow :=
  [⟨.nop, "NOP", .Z, 0x00, 0x0000000000000000, 0xFFFFFFFFFFFFFFFF⟩,
   ⟨.noteOn, "NOTE_ON", .K, 0x01, 0x0000000000000001, 0xFFFFFFFFFF0000FF⟩,
   ⟨.noteOnHz, "NOTE_ON_HZ", .Z, 0x02, 0x0000000000000002, 0xFFFFFFFFFFFFFFFF⟩,
   ⟨.noteOff, "NOTE_OFF", .Z, 0x03, 0x0000000000000003, 0xFFFFFFFFFFFFFFFF⟩,
   ⟨.setParams, "SET_PARAMS", .Z, 0x04, 0x0000000000000004, 0xFFFFFFFFFFFFFFFF⟩,
   ⟨.renderSample, "RENDER_SAMPLE", .S, 0x05, 0x0000000000000005, 0x00000000FFFFFFFF⟩,
   ⟨.renderBlock, "RENDER_BLOCK", .R, 0x06, 0x0000000000000006, 0x00000000000000FF⟩,
   ⟨.hardStop, "HARD_STOP", .Z, 0x07, 0x0000000000000007, 0xFFFFFFFFFFFFFFFF⟩]

/-- `OPC`, bits [7:0] (R101). -/
def opcodeOf (w : Word) : Nat := bitField w 7 0

/-- Why a word decodes to `NONE` (R106). Both reasons raise `BADCMD`. -/
inductive DecodeError where
  /-- The opcode is 0x08–0xFF (R109). -/
  | reservedOpcode (opcode : Nat)
  /-- A reserved bit of the named row's format is 1. -/
  | reservedBits (op : Op)
deriving DecidableEq, Repr

/-- The instruction of a row, its operands taken out of the word by the row's format (R102–R105). -/
def Op.withOperands (op : Op) (w : Word) : Instr :=
  match op with
  | .nop => .nop
  | .noteOn => .noteOn (bitField w 15 8) (bitField w 23 16)
  | .noteOnHz => .noteOnHz
  | .noteOff => .noteOff
  | .setParams => .setParams
  | .renderSample => .renderSample (bitField w 63 32)
  | .renderBlock => .renderBlock (bitField w 31 8) (bitField w 63 32)
  | .hardStop => .hardStop

/-- `decode(w)` of R106. -/
def decode (w : Word) : Except DecodeError Instr :=
  match opcodeMap.find? (fun row => row.opcode == opcodeOf w) with
  | none => .error (.reservedOpcode (opcodeOf w))
  | some row => if w &&& row.mask = row.mtch then .ok (row.op.withOperands w) else .error (.reservedBits row.op)

/-- The command in the first eight of these bytes, laid out as R72 says, with the bytes after it; `none` if there are
fewer than eight. -/
def decodeBytes (bs : List Byte) : Option (Except DecodeError Instr × List Byte) :=
  if bs.length < 8 then none else some (decode (wordOfBytes (bs.take 8)), bs.drop 8)

/-- The instruction the decoder reads from a table word of `nbits` bits, the bits above them 0; the word is laid out as
its eight bytes (R72) and those are decoded. -/
def decodeTableWord (nbits w : Nat) : Option Instr :=
  match decodeBytes (bytesOfWord (BitVec.ofNat 64 (w % 2 ^ nbits))) with
  | some (.ok i, _) => some i
  | _ => none

/-! ## The encoder -/

/-- The opcode map's row of an instruction. -/
def Instr.op : Instr → Op
  | .nop => .nop
  | .noteOn _ _ => .noteOn
  | .noteOnHz => .noteOnHz
  | .noteOff => .noteOff
  | .setParams => .setParams
  | .renderSample _ => .renderSample
  | .renderBlock _ _ => .renderBlock
  | .hardStop => .hardStop

/-- The command word of a well-formed instruction: `{octave[23:16], note[15:8], OPC}` and so on (R102–R105, R111). -/
def encode : Instr → Word
  | .nop => 0x00
  | .noteOn note octave => BitVec.ofNat 64 (octave * 2 ^ 16 + note * 2 ^ 8 + 0x01)
  | .noteOnHz => 0x02
  | .noteOff => 0x03
  | .setParams => 0x04
  | .renderSample srate => BitVec.ofNat 64 (srate * 2 ^ 32 + 0x05)
  | .renderBlock frames srate => BitVec.ofNat 64 (srate * 2 ^ 32 + frames * 2 ^ 8 + 0x06)
  | .hardStop => 0x07

/-- The assembler (R111): the word of an instruction, or a rejection where a field value does not fit its field. -/
def assemble (i : Instr) : Option Word := if i.wf then some (encode i) else none

end Sys2Proof
end

