-- ==== Sys2Proof/Machine/Params.lean ====
section
/-! DEFINITION. The parameter bank: the table of 10_state.md R41, the sanitising of R36, and the live bank of R44. -/

namespace Sys2Proof

/-- The index `n` of parameter register `Pn` (R41). -/
def Param.index : Param → Fin 21
  | .oscWave => 0 | .pulseWidth => 1 | .detune => 2 | .subLevel => 3 | .noiseLevel => 4 | .masterVolume => 5
  | .filterType => 6 | .cutoff => 7 | .resonance => 8 | .fenvAmount => 9
  | .aenvAttack => 10 | .aenvDecay => 11 | .aenvSustain => 12 | .aenvRelease => 13
  | .fenvAttack => 14 | .fenvDecay => 15 | .fenvSustain => 16 | .fenvRelease => 17
  | .lfoWave => 18 | .lfoRate => 19 | .lfoDepth => 20

/-- `P0` to `P20`. -/
def Param.all : List Param :=
  [.oscWave, .pulseWidth, .detune, .subLevel, .noiseLevel, .masterVolume, .filterType, .cutoff, .resonance, .fenvAmount,
   .aenvAttack, .aenvDecay, .aenvSustain, .aenvRelease, .fenvAttack, .fenvDecay, .fenvSustain, .fenvRelease,
   .lfoWave, .lfoRate, .lfoDepth]

/-- A row of R41: the valid codes, the default and the fallback of an enumeration, or the range and the default of an f64. -/
inductive ParamRow where
  | enum (codes : List Nat) (default fallback : Nat)
  | f64 (lo hi default : F64)
deriving DecidableEq, Repr

/-- The range [0.0, 1.0] with the given default. -/
def ParamRow.unit (default : F64) : ParamRow := .f64 F64.zero F64.one default

/-- The range of an envelope time, [0.001, 60.0] s (D27). -/
def ParamRow.time (default : F64) : ParamRow := .f64 Config.envTimeMin Config.envTimeMax default

/-- The table of R41. -/
def Param.row : Param → ParamRow
  | .oscWave => .enum [0, 1, 2, 3] 0 0
  | .pulseWidth => .unit Config.pulseWidthDefault
  | .detune => .f64 ⟨0xC092C00000000000⟩ ⟨0x4092C00000000000⟩ F64.zero  -- ±1200.0 cents
  | .subLevel => .unit F64.zero
  | .noiseLevel => .unit F64.zero
  | .masterVolume => .unit F64.one
  | .filterType => .enum [0, 1, 2] 0 0
  | .cutoff => .f64 Config.minCutoff ⟨0x412E848000000000⟩ ⟨0x408F400000000000⟩  -- [20.0, 1000000.0], 1000.0
  | .resonance => .f64 F64.zero Config.resonanceMax F64.two
  | .fenvAmount => .f64 ⟨0xC12E848000000000⟩ ⟨0x412E848000000000⟩ F64.zero  -- ±1000000.0
  | .aenvAttack => .time ⟨0x3F847AE147AE147B⟩  -- 0.01
  | .aenvDecay => .time ⟨0x3FB999999999999A⟩  -- 0.1
  | .aenvSustain => .unit ⟨0x3FE999999999999A⟩  -- 0.8
  | .aenvRelease => .time ⟨0x3FC999999999999A⟩  -- 0.2
  | .fenvAttack => .time ⟨0x3F847AE147AE147B⟩
  | .fenvDecay => .time ⟨0x3FB999999999999A⟩
  | .fenvSustain => .unit ⟨0x3FE999999999999A⟩
  | .fenvRelease => .time ⟨0x3FC999999999999A⟩
  | .lfoWave => .enum [0, 1, 3, 4] 0 0
  | .lfoRate => .f64 F64.zero Config.lfoRateMax F64.zero
  | .lfoDepth => .unit F64.zero

/-- The 64 bits a shadow register resets to: the code of an enumeration, the pattern of an f64 (R43). -/
def Param.resetWord (p : Param) : Word :=
  match p.row with
  | .enum _ default _ => BitVec.ofNat 64 default
  | .f64 _ _ default => default.bits

/-- `sanitize(P, raw)` of R36: the live value as a 64-bit word, and whether the verdict is `bad`. -/
def sanitize (p : Param) (raw : Word) : Word × Bool :=
  match p.row with
  | .enum codes _ fallback =>
    if codes.contains raw.toNat then (raw, false) else (BitVec.ofNat 64 fallback, true)
  | .f64 lo hi default =>
    let v : F64 := ⟨raw⟩
    if v.isNaN then (default.bits, false) else ((F64.clamp v lo hi).bits, false)

/-- `OSC_WAVE` codes (R110). The fallback arm takes no code that `sanitize` lets through. -/
def OscWave.ofCode (w : Word) : OscWave :=
  if w = 1 then .triangle else if w = 2 then .sawtooth else if w = 3 then .square else .sine

def OscWave.code : OscWave → Word
  | .sine => 0 | .triangle => 1 | .sawtooth => 2 | .square => 3

/-- `LFO_WAVE` codes (R110). -/
def LfoWave.ofCode (w : Word) : LfoWave :=
  if w = 1 then .triangle else if w = 3 then .square else if w = 4 then .sampleHold else .sine

def LfoWave.code : LfoWave → Word
  | .sine => 0 | .triangle => 1 | .square => 3 | .sampleHold => 4

/-- `FILTER_TYPE` codes (R110). -/
def FilterType.ofCode (w : Word) : FilterType :=
  if w = 1 then .bandpass else if w = 2 then .highpass else .lowpass

def FilterType.code : FilterType → Word
  | .lowpass => 0 | .bandpass => 1 | .highpass => 2

namespace Machine

/-- The live parameter bank (R44). -/
structure Live where
  oscWave : OscWave
  pulseWidth : F64
  detune : F64
  subLevel : F64
  noiseLevel : F64
  masterVolume : F64
  filterType : FilterType
  cutoff : F64
  resonance : F64
  fenvAmount : F64
  aenvAttack : F64
  aenvDecay : F64
  aenvSustain : F64
  aenvRelease : F64
  fenvAttack : F64
  fenvDecay : F64
  fenvSustain : F64
  fenvRelease : F64
  lfoWave : LfoWave
  lfoRate : F64
  lfoDepth : F64
deriving DecidableEq, Repr

/-- The live bank that holds these 21 words. -/
def Live.ofWords (w : Param → Word) : Live where
  oscWave := .ofCode (w .oscWave)
  pulseWidth := ⟨w .pulseWidth⟩
  detune := ⟨w .detune⟩
  subLevel := ⟨w .subLevel⟩
  noiseLevel := ⟨w .noiseLevel⟩
  masterVolume := ⟨w .masterVolume⟩
  filterType := .ofCode (w .filterType)
  cutoff := ⟨w .cutoff⟩
  resonance := ⟨w .resonance⟩
  fenvAmount := ⟨w .fenvAmount⟩
  aenvAttack := ⟨w .aenvAttack⟩
  aenvDecay := ⟨w .aenvDecay⟩
  aenvSustain := ⟨w .aenvSustain⟩
  aenvRelease := ⟨w .aenvRelease⟩
  fenvAttack := ⟨w .fenvAttack⟩
  fenvDecay := ⟨w .fenvDecay⟩
  fenvSustain := ⟨w .fenvSustain⟩
  fenvRelease := ⟨w .fenvRelease⟩
  lfoWave := .ofCode (w .lfoWave)
  lfoRate := ⟨w .lfoRate⟩
  lfoDepth := ⟨w .lfoDepth⟩

/-- `live.P` as a word: a code or a pattern. -/
def Live.word (l : Live) : Param → Word
  | .oscWave => l.oscWave.code
  | .pulseWidth => l.pulseWidth.bits
  | .detune => l.detune.bits
  | .subLevel => l.subLevel.bits
  | .noiseLevel => l.noiseLevel.bits
  | .masterVolume => l.masterVolume.bits
  | .filterType => l.filterType.code
  | .cutoff => l.cutoff.bits
  | .resonance => l.resonance.bits
  | .fenvAmount => l.fenvAmount.bits
  | .aenvAttack => l.aenvAttack.bits
  | .aenvDecay => l.aenvDecay.bits
  | .aenvSustain => l.aenvSustain.bits
  | .aenvRelease => l.aenvRelease.bits
  | .fenvAttack => l.fenvAttack.bits
  | .fenvDecay => l.fenvDecay.bits
  | .fenvSustain => l.fenvSustain.bits
  | .fenvRelease => l.fenvRelease.bits
  | .lfoWave => l.lfoWave.code
  | .lfoRate => l.lfoRate.bits
  | .lfoDepth => l.lfoDepth.bits

end Machine
end Sys2Proof
end

