-- ==== Sys2Proof/Machine/State.lean ====
section
/-! DEFINITION. The state of the block (10_state.md), the model's own bookkeeping of the world outside it, and the state
after reset (70_reset_and_hazards.md R300). -/

namespace Sys2Proof.Machine

/-- The block has no trap, exception or fault, and nothing stops its core (60_exceptions.md R280; 93_implementation_defined.md:
"No behaviour of the block is treated as `fault` or `stuck`"): there is no reason to fault. -/
inductive Fault where
deriving DecidableEq, Repr

/-- Why the model has no step. -/
inductive Refusal where
  /-- Raised by `exec`'s arm of an instruction without a meaning. No arm raises it. Safe: the machine stops. -/
  | notModelled (mnemonic : String)
  /-- Raised by a host access that is not an aligned 8-byte access inside the window: the spec gives no response to it and
  says the model refuses it (20_memory.md R70; 93_implementation_defined.md row 8). Safe: the machine stops. -/
  | accessOutsideContract (addr bytes : Nat)
deriving DecidableEq, Repr

/-- Voice-controller states (10_state.md R45, 44_voice.md R230). -/
inductive VState where
  | idle | sounding | releasing
deriving DecidableEq, Repr

/-- Envelope stages (10_state.md R46, 42_envelope.md R180). -/
inductive Stage where
  | idle | attack | decay | sustain | release
deriving DecidableEq, Repr

/-- The voice state of 10_state.md R45. -/
structure Voice where
  vstate : VState
  freq : F64
  oscPhase : F64
  subPhase : F64
  lfoPhase : F64
  lfoSh : F64
  fltL : F64
  fltB : F64
deriving DecidableEq, Repr

/-- An envelope generator's state (10_state.md R46). -/
structure Envelope where
  stage : Stage
  level : F64
  entry : F64
  t : F64
deriving DecidableEq, Repr

/-- Bytes by address: addresses strictly rising, no entry equal to what an unlisted address reads as (`Memory.wf`). -/
abbrev Memory := List Host.Cell

/-- What an unlisted address reads as: every element of `OUTBUF` resets to +0.0, all bytes 0 (R49, R300). -/
def Memory.unlisted : Byte := 0

/-- Everything the spec gives the block, then the model's own fields. -/
structure State where
  /-- `ERR`: bit 0 `BADENUM`, bit 1 `BADCMD`, bit 2 `OVERRUN` (R35). -/
  err : BitVec 3
  /-- The pending slot (R50); `STATUS.BUSY` is 1 exactly when it is full. -/
  slot : Option Word
  /-- `FREQ_ARG` (R38). -/
  freqArg : Word
  /-- `LAST_SAMPLE` (R39). -/
  lastSample : F64
  /-- `SAMPLE_COUNT` (R40). -/
  sampleCount : Word
  /-- The shadow parameter bank `P0`–`P20` (R41, R42). -/
  shadow : Vector Word 21
  /-- The live parameter bank (R44). -/
  live : Live
  /-- The voice (R45). -/
  voice : Voice
  /-- The amplitude envelope (R46). -/
  aenv : Envelope
  /-- The filter envelope (R46). -/
  fenv : Envelope
  /-- `OUTBUF`, the bytes at window offsets 0x1000–0x4FFF (R49, R72). -/
  outbuf : Memory
  /-- Model's own: what the host and the reset input do next, first first (R30, R300). -/
  inputs : List Input
  /-- Model's own: the host's reads, latest first: offset and value returned. -/
  observed : List (Nat × Word)
  /-- Model's own: host steps that may still come before the core step (R313; log entry 5). -/
  wait : Nat
  /-- Model's own: commands latched so far, the argument of `Config.latency`. -/
  latches : Nat
  /-- Model's own: draws taken so far, the argument of `draw` (R8; log entry 4). -/
  draws : Nat
  /-- Model's own: unspecified reads made so far, the argument of `Config.busyRead` (R312; log entry 6). -/
  busyReads : Nat
deriving DecidableEq, Repr

/-- Idle, everything zero (42_envelope.md R181). -/
def Envelope.reset : Envelope := ⟨.idle, F64.zero, F64.zero, F64.zero⟩

/-- R45's reset column. -/
def Voice.reset : Voice := ⟨.idle, F64.zero, F64.zero, F64.zero, F64.zero, F64.zero, F64.zero, F64.zero⟩

/-- Every live parameter at its default (R44). -/
def Live.reset : Live := .ofWords Param.resetWord

/-- The state right after reset at power-on (R300). Nothing is left unspecified; the model's own fields start empty and
at 0 (DESIGN CHOICE, log entries 4–7). -/
def State.reset : State where
  err := 0
  slot := none
  freqArg := 0
  lastSample := F64.zero
  sampleCount := 0
  shadow := Vector.ofFn fun n => (Param.all.getD n.val .oscWave).resetWord
  live := Live.reset
  voice := Voice.reset
  aenv := Envelope.reset
  fenv := Envelope.reset
  outbuf := []
  inputs := []
  observed := []
  wait := 0
  latches := 0
  draws := 0
  busyReads := 0

end Sys2Proof.Machine
end

