-- ==== Sys2Proof/Machine/Ops.lean ====
section
/-! DEFINITION. The named operations over registers and memory: the error flags, which are all this block has in the place
of exceptions (60_exceptions.md R280, R281), `OUTBUF`'s bytes, the shadow bank, the pending slot, the reset input. -/

namespace Sys2Proof.Machine

/-! ## Error flags (10_state.md R35) -/

/-- The flags of `ERR`. -/
inductive ErrFlag where
  | badEnum | badCmd | overrun
deriving DecidableEq, Repr

/-- The flag's bit of `ERR`. -/
def ErrFlag.mask : ErrFlag → BitVec 3
  | .badEnum => 0b001
  | .badCmd => 0b010
  | .overrun => 0b100

/-- `raise Flag(X)`: sets one sticky bit and transfers no control (R12, R280, R281). -/
def raiseFlag (f : ErrFlag) (s : State) : State := { s with err := s.err ||| f.mask }

/-- `reg[ERR] <- reg[ERR] and not (v and 0x7)`: a host write to `ERR` (R35). -/
def clearFlags (v : Word) (s : State) : State := { s with err := s.err &&& ~~~(v.setWidth 3) }

/-! ## Memory -/

namespace Memory

/-- The byte at an address. -/
def readByte : Memory → Nat → Byte
  | [], _ => unlisted
  | (b, w) :: rest, a => if a = b then w else readByte rest a

/-- Stores a byte and keeps the canonical form: the value an unlisted address reads as removes the entry. -/
def writeByte : Memory → Nat → Byte → Memory
  | [], a, v => if v = unlisted then [] else [(a, v)]
  | (b, w) :: rest, a, v =>
    if a < b then (if v = unlisted then (b, w) :: rest else (a, v) :: (b, w) :: rest)
    else if a = b then (if v = unlisted then rest else (a, v) :: rest)
    else (b, w) :: writeByte rest a v

/-- Stores bytes at rising addresses from `a` on. -/
def writeBytes (m : Memory) (a : Nat) : List Byte → Memory
  | [] => m
  | v :: vs => writeBytes (m.writeByte a v) (a + 1) vs

/-- The `n` bytes from `a` on. -/
def readBytes (m : Memory) (a : Nat) : Nat → List Byte
  | 0 => []
  | n + 1 => m.readByte a :: readBytes m (a + 1) n

/-- The 64-bit register whose bytes lie at `a`, little-endian (20_memory.md R72). -/
def load64 (m : Memory) (a : Nat) : Word := wordOfBytes (m.readBytes a 8)

/-- Stores a 64-bit register at `a`, little-endian (R72). -/
def store64 (m : Memory) (a : Nat) (w : Word) : Memory := m.writeBytes a (bytesOfWord w)

/-- Every address of the list is above `a`, the addresses rise strictly, and no entry is what an unlisted address reads as. -/
def wfAbove (a : Nat) : Memory → Bool
  | [] => true
  | (b, w) :: rest => decide (a < b) && decide (w ≠ unlisted) && wfAbove b rest

/-- The canonical form: equal memories are equal lists. -/
def wf : Memory → Bool
  | [] => true
  | (b, w) :: rest => decide (w ≠ unlisted) && wfAbove b rest

end Memory

/-! ## `OUTBUF` (10_state.md R49) -/

/-- Where `OUTBUF` begins in the window. -/
def outbufBase : Nat := 0x1000

/-- The offset of `OUTBUF[i]`. -/
def outbufOffset (i : Nat) : Nat := outbufBase + 8 * i

/-- `OUTBUF[i]`. -/
def outbufGet (s : State) (i : Nat) : F64 := ⟨s.outbuf.load64 (outbufOffset i)⟩

/-- `OUTBUF[i] <- x`. -/
def outbufSet (i : Nat) (x : F64) (s : State) : State :=
  { s with outbuf := s.outbuf.store64 (outbufOffset i) x.bits }

/-! ## The shadow bank, `FREQ_ARG` and the pending slot -/

/-- `shadow.P` (R42). -/
def shadowGet (s : State) (p : Param) : Word := s.shadow[p.index]

/-- `shadow.P <- v`: the value is stored unchanged (R42). -/
def shadowSet (p : Param) (v : Word) (s : State) : State := { s with shadow := s.shadow.set p.index v }

/-- `reg[FREQ_ARG] <- v` (R38). -/
def setFreqArg (v : Word) (s : State) : State := { s with freqArg := v }

/-- `STATUS.BUSY` (R50). -/
def busy (s : State) : Bool := s.slot.isSome

/-- A host write of `w` to `CMD`: latched while `BUSY = 0`, dropped with `OVERRUN` while `BUSY = 1` (R37, R50). The latch
fixes how many host steps may come before the core step (R313; log entry 5). -/
def writeCmd (w : Word) (s : State) : State :=
  match s.slot with
  | none => { s with slot := some w, wait := Config.latency s.latches, latches := s.latches + 1 }
  | some _ => raiseFlag .overrun s

/-- The slot is emptied and `BUSY` becomes 0 (R50, R260). -/
def emptySlot (s : State) : State := { s with slot := none, wait := 0 }

/-! ## Reset -/

/-- The reset input: every piece of the block's state takes its reset value, and a latched command is discarded (R300).
What is outside the block stays: the host's coming accesses, what it has read, and the counters of the free values, so that
no free value comes twice (log entry 4). -/
def resetBlock (s : State) : State :=
  { State.reset with
    inputs := s.inputs, observed := s.observed, latches := s.latches, draws := s.draws, busyReads := s.busyReads }

end Sys2Proof.Machine
end

