-- ==== Sys2Proof/Machine/Operands.lean ====
section
/-! DEFINITION. Operand assembly (30_encoding.md R107) and the operand that is a register, `FREQ_ARG` (45_commands.md R262).
Out-of-range values are clamped silently (44_voice.md R242). -/

namespace Sys2Proof.Machine

/-- `note <- min(w[15:8], 11)`. -/
def clampNote (note : Nat) : Nat := min note 11

/-- `octave <- max(min(w[23:16], 6), 2)`. -/
def clampOctave (octave : Nat) : Nat := max (min octave 6) 2

/-- `frames <- min(w[31:8], OUTBUF_LEN)`. -/
def clampFrames (frames : Nat) : Nat := min frames Config.outbufLen

/-- `fs <- f64(max(w[63:32], SR_MIN))`. -/
def sampleRate (srate : Nat) : F64 := F64.ofNat (max srate Config.srMin)

/-- The frequency of `NOTE_ON_HZ`: 0.0 for a NaN, else clamped to [0, `FREQ_MAX`] (R262). -/
def freqOperand (w : Word) : F64 :=
  let v : F64 := ⟨w⟩
  if v.isNaN then F64.zero else F64.clamp v F64.zero Config.freqMax

end Sys2Proof.Machine
end

