-- ==== Sys2Proof/Machine/EnvelopeGen.lean ====
section
/-! DEFINITION. The ADSR envelope generator (42_envelope.md). -/

namespace Sys2Proof.Machine

/-- The four live parameters of an envelope instance. -/
structure Adsr where
  attack : F64
  decay : F64
  sustain : F64
  release : F64
deriving DecidableEq, Repr

/-- The parameters `aenv` reads, P10–P13 (10_state.md R46). -/
def Live.amp (l : Live) : Adsr := ⟨l.aenvAttack, l.aenvDecay, l.aenvSustain, l.aenvRelease⟩

/-- The parameters `fenv` reads, P14–P17 (R46). -/
def Live.filter (l : Live) : Adsr := ⟨l.fenvAttack, l.fenvDecay, l.fenvSustain, l.fenvRelease⟩

/-- `ENV_RESET(env)` (R181). -/
def envReset (_ : Envelope) : Envelope := ⟨.idle, F64.zero, F64.zero, F64.zero⟩

/-- `ENV_NOTE_ON(env)`, from every stage; the level stays (R182; 90_conflicts.md C5). -/
def envNoteOn (e : Envelope) : Envelope := { e with entry := e.level, stage := .attack, t := F64.zero }

/-- `ENV_NOTE_OFF(env)`; nothing in Idle or Release (R183; C13). -/
def envNoteOff (e : Envelope) : Envelope :=
  match e.stage with
  | .attack | .decay | .sustain => { e with entry := e.level, stage := .release, t := F64.zero }
  | .idle | .release => e

/-- `ENTER(env, st)` (R185). -/
def envEnter (e : Envelope) (st : Stage) : Envelope := { e with stage := st, entry := e.level, t := F64.zero }

/-- `ENV_COMPLETE(env, A, D, S, R)` (R185). -/
def envComplete (e : Envelope) (p : Adsr) : Envelope :=
  match e.stage with
  | .attack =>
    if F64.le (F64.sub F64.one e.level) Config.envEpsilon || F64.le p.attack e.t then envEnter e .decay else e
  | .decay =>
    if F64.le (F64.abs (F64.sub e.level p.sustain)) Config.envEpsilon || F64.le p.decay e.t then envEnter e .sustain else e
  | .release =>
    if F64.le e.level Config.envEpsilon || F64.le p.release e.t then ⟨.idle, F64.zero, F64.zero, F64.zero⟩ else e
  | .sustain | .idle => e

/-- What a stage moves toward (R180, R184). Idle has no target; its arm is read by no rule. -/
def stageTarget (p : Adsr) : Stage → F64
  | .attack => F64.one
  | .decay | .sustain => p.sustain
  | .release | .idle => F64.zero

/-- How long a stage lasts (R184). Idle has no duration; its arm is read by no rule. -/
def stageDur (p : Adsr) : Stage → F64
  | .attack => p.attack
  | .decay | .sustain => p.decay
  | .release | .idle => p.release

/-- `k = EXP(-a)` with `a = (dt * LN_INV_EPS) / dur` (R184). -/
def envDecayFactor (dur dt : F64) : F64 := exp (F64.neg (F64.div (F64.mul dt Config.lnInvEps) dur))

/-- One tick's move of the level toward the target (R184). -/
def envLevel (level target k : F64) : F64 :=
  F64.clamp (F64.add target (F64.mul (F64.sub level target) k)) F64.zero F64.one

/-- The envelope after the level and the time have moved, before the completion test (R184). -/
def envMove (e : Envelope) (p : Adsr) (dt : F64) : Envelope :=
  { e with
    level := envLevel e.level (stageTarget p e.stage) (envDecayFactor (stageDur p e.stage) dt), t := F64.add e.t dt }

/-- `ENV_TICK(env, A, D, S, R, dt)` (R184). -/
def envTick (e : Envelope) (p : Adsr) (dt : F64) : Envelope :=
  if e.stage = .idle then { e with level := F64.zero } else envComplete (envMove e p dt) p

end Sys2Proof.Machine
end

