-- ==== Sys2Proof/Machine/Filter.lean ====
section
/-! DEFINITION. The resonant state-variable filter (43_filter.md). Neither the integrators nor the output are clamped: in
the unstable region they grow to infinity and NaN as IEEE arithmetic says (R214, R215). -/

namespace Sys2Proof.Machine

/-- `CUTOFF_CLAMP(c_raw, fs)` (R211). -/
def cutoffClamp (c fs : F64) : F64 := F64.clamp c Config.minCutoff (F64.div fs Config.maxCutoffDivisor)

/-- A clamp of the coefficient at `F_MAX`, absent by default (R212, D28). -/
def clampCoef (f : F64) : F64 :=
  match Config.fMax with
  | none => f
  | some fMax => F64.min f fMax

/-- `F_COEF(c, fs)` (R212). -/
def fCoef (c fs : F64) : F64 := clampCoef (F64.mul F64.two (sin (F64.div (F64.mul Config.pi c) fs)))

/-- `Q_COEF()` (R213). -/
def qCoef (live : Live) : F64 := F64.div F64.one (F64.max live.resonance Config.qFloor)

/-- The new band-pass integrator `B1` (R214). -/
def svfB (voice : Voice) (x f q : F64) : F64 :=
  F64.add voice.fltB (F64.mul f (F64.sub (F64.sub x voice.fltL) (F64.mul q voice.fltB)))

/-- The new low-pass integrator `L1`, from the new `B1` (R214). -/
def svfL (voice : Voice) (f b1 : F64) : F64 := F64.add voice.fltL (F64.mul f b1)

/-- The output of the selected type, from the new integrators (R214). -/
def svfOut (kind : FilterType) (x q l1 b1 : F64) : F64 :=
  match kind with
  | .lowpass => l1
  | .bandpass => b1
  | .highpass => F64.sub (F64.sub x l1) (F64.mul q b1)

/-- `SVF_STEP(x, c, fs)` (R214). -/
def svfStep (live : Live) (voice : Voice) (x c fs : F64) : F64 × Voice :=
  let f := fCoef c fs
  let q := qCoef live
  let b1 := svfB voice x f q
  let l1 := svfL voice f b1
  (svfOut live.filterType x q l1 b1, { voice with fltB := b1, fltL := l1 })

end Sys2Proof.Machine
end

