-- ==== Sys2Proof/Machine/Oscillator.lean ====
section
/-! DEFINITION. The oscillator bank (40_oscillator.md): waveforms as functions of the phase, the phase advance, the main
oscillator, the sub-oscillator, the noise source, and the map from keys to frequencies. No band-limiting (R142). -/

namespace Sys2Proof.Machine

/-! ## Waveforms -/

/-- `SINE(p)` (R131). -/
def sineWave (p : F64) : F64 := sin (F64.mul Config.twoPi p)

/-- `TRIANGLE(p)` (R132). -/
def triangleWave (p : F64) : F64 :=
  if F64.lt p F64.quarter then F64.mul F64.four p
  else if F64.lt p F64.threeQuarters then F64.sub F64.two (F64.mul F64.four p)
  else F64.sub (F64.mul F64.four p) F64.four

/-- `SAWTOOTH(p)` (R133). -/
def sawtoothWave (p : F64) : F64 := F64.sub (F64.mul F64.two p) F64.one

/-- `SQUARE(p, pw)` (R134). -/
def squareWave (p pw : F64) : F64 := if F64.lt p pw then F64.one else F64.negOne

/-- `WAVE(kind, p, pw)` (R136). -/
def wave (kind : OscWave) (p pw : F64) : F64 :=
  match kind with
  | .sine => sineWave p
  | .triangle => triangleWave p
  | .sawtooth => sawtoothWave p
  | .square => squareWave p pw

/-! ## Phase accumulator -/

/-- `ADVANCE(p, f, fs)` (R137). -/
def advance (p f fs : F64) : F64 :=
  let x := F64.add p (F64.div f fs)
  if F64.le F64.one x then F64.sub x (F64.floor x) else x

/-- `f_osc`: the voice frequency detuned by `live.DETUNE` cents (R138). -/
def oscFreq (live : Live) (voice : Voice) : F64 :=
  F64.mul voice.freq (exp2 (F64.div live.detune F64.twelveHundred))

/-- `OSC_STEP(fs)`: the sample of the phase before the advance, and the voice after it (R139). -/
def oscStep (live : Live) (voice : Voice) (fs : F64) : F64 × Voice :=
  (wave live.oscWave voice.oscPhase live.pulseWidth,
   { voice with oscPhase := advance voice.oscPhase (oscFreq live voice) fs })

/-- `SUB_STEP(fs)`: a square of pulse width 0.5 at half the voice frequency, not detuned (R140, R47). -/
def subStep (voice : Voice) (fs : F64) : F64 × Voice :=
  (squareWave voice.subPhase F64.half,
   { voice with subPhase := advance voice.subPhase (F64.mul voice.freq F64.half) fs })

/-- The noise of one tick, drawn only while `NOISE_LEVEL` is not zero, and the draws taken so far (R135, R236). -/
def noiseStep (live : Live) (draws : Nat) : F64 × Nat :=
  if F64.eq live.noiseLevel F64.zero then (F64.zero, draws) else (draw draws, draws + 1)

/-! ## Key to frequency -/

/-- The key index `12*octave + note - 69 + 12*KEY_OCTAVE_BIAS` (R141, R113). -/
def keyIndex (note octave : Nat) : Int := 12 * (octave : Int) + (note : Int) - 69 + 12 * Config.keyOctaveBias

/-- `KEY_FREQ(note, octave)` (R141). -/
def keyFreq (note octave : Nat) : F64 :=
  F64.mul F64.a440 (exp2 (F64.div (F64.ofInt (keyIndex note octave)) F64.twelve))

end Sys2Proof.Machine
end

