-- ==== Sys2Proof/Machine/Lfo.lean ====
section
/-! DEFINITION. The LFO (41_lfo.md): a phase accumulator with sample-and-hold, whose only target is the cutoff. -/

namespace Sys2Proof.Machine

/-- The LFO adds nothing: rate or depth is 0.0 (R161, R166; 90_conflicts.md C8). -/
def lfoDisabled (live : Live) : Bool := F64.eq live.lfoRate F64.zero || F64.eq live.lfoDepth F64.zero

/-- `LFO_VALUE()` (R161). -/
def lfoValue (live : Live) (voice : Voice) : F64 :=
  if lfoDisabled live then F64.zero
  else
    match live.lfoWave with
    | .sine => sineWave voice.lfoPhase
    | .triangle => triangleWave voice.lfoPhase
    | .square => squareWave voice.lfoPhase F64.half
    | .sampleHold => voice.lfoSh

/-- The phase passes 1.0 in this tick: `x >= 1.0` (R162). -/
def lfoWraps (live : Live) (voice : Voice) (fs : F64) : Bool :=
  F64.le F64.one (F64.add voice.lfoPhase (F64.div live.lfoRate fs))

/-- `LFO_ADVANCE(fs)`: the phase, and a draw into `lfo_sh` on a wrap in SAMPLE_HOLD mode (R162). -/
def lfoAdvance (live : Live) (voice : Voice) (fs : F64) (draws : Nat) : Voice × Nat :=
  let moved := { voice with lfoPhase := advance voice.lfoPhase live.lfoRate fs }
  if lfoWraps live voice fs && decide (live.lfoWave = .sampleHold) then
    ({ moved with lfoSh := draw draws }, draws + 1)
  else (moved, draws)

/-- `LFO_STEP(fs)`: the value of the state before the advance (R164). -/
def lfoStep (live : Live) (voice : Voice) (fs : F64) (draws : Nat) : F64 × Voice × Nat :=
  (lfoValue live voice, lfoAdvance live voice fs draws)

/-- `LFO_CUTOFF(v)` in Hz (R165). -/
def lfoCutoff (live : Live) (v : F64) : F64 := F64.mul (F64.mul live.lfoDepth Config.lfoCutoffRangeHz) v

end Sys2Proof.Machine
end

