-- ==== Sys2Proof/Machine/VoiceCtl.lean ====
section
/-! DEFINITION. The voice controller and the per-sample signal chain (44_voice.md). -/

namespace Sys2Proof.Machine

/-! ## Note events -/

/-- `VOICE_NOTE_ON(freq)`: a fresh voice from Idle (R231), a retrigger that keeps phases, integrators and the held value
from Sounding or Releasing (R232; 90_conflicts.md C4). -/
def voiceNoteOn (freq : F64) (s : State) : State :=
  match s.voice.vstate with
  | .idle =>
    { s with
      voice := ⟨.sounding, freq, F64.zero, F64.zero, F64.zero, F64.zero, F64.zero, F64.zero⟩
      aenv := envNoteOn (envReset s.aenv)
      fenv := envNoteOn (envReset s.fenv) }
  | .sounding | .releasing =>
    { s with
      voice := { s.voice with freq := freq, vstate := .sounding }
      aenv := envNoteOn s.aenv
      fenv := envNoteOn s.fenv }

/-- `VOICE_NOTE_OFF()`; nothing without a voice (R233). -/
def voiceNoteOff (s : State) : State :=
  match s.voice.vstate with
  | .idle => s
  | .sounding | .releasing =>
    { s with
      voice := { s.voice with vstate := .releasing }
      aenv := envNoteOff s.aenv
      fenv := envNoteOff s.fenv }

/-! ## One sample -/

/-- The oscillator mix (R234). -/
def mix (live : Live) (so ss n : F64) : F64 :=
  F64.add (F64.add so (F64.mul live.subLevel ss)) (F64.mul live.noiseLevel n)

/-- The modulated cutoff (R235). -/
def modCutoff (live : Live) (fenvLevel v fs : F64) : F64 :=
  cutoffClamp (F64.add (F64.add live.cutoff (F64.mul live.fenvAmount fenvLevel)) (lfoCutoff live v)) fs

/-- The output of one tick: not clamped (R236, D41). -/
def outSample (live : Live) (y aenvLevel : F64) : F64 := F64.mul (F64.mul y aenvLevel) live.masterVolume

/-- Oscillators, noise, LFO and filter of one tick: the filtered sample, the voice and the draws taken so far. The noise
draw comes before the sample-and-hold draw (R236). -/
def signalChain (live : Live) (voice : Voice) (fenvLevel fs : F64) (draws : Nat) : F64 × Voice × Nat :=
  let so := oscStep live voice fs
  let ss := subStep so.2 fs
  let n := noiseStep live draws
  let x := mix live so.1 ss.1 n.1
  let v := lfoStep live ss.2 fs n.2
  let c := modCutoff live fenvLevel v.1 fs
  let y := svfStep live v.2.1 x c fs
  (y.1, y.2, v.2.2)

/-- The voice ends in the tick in which `aenv` goes from Release to Idle (R236, R238). -/
def teardown (aenv : Envelope) (voice : Voice) : Voice :=
  if voice.vstate = .releasing ∧ aenv.stage = .idle then { voice with vstate := .idle } else voice

/-- One tick of a voice that exists: its output and the state after it. Both envelopes are read before they are ticked
(R235, R236). -/
def renderVoice (fs : F64) (s : State) : F64 × State :=
  let dt := F64.div F64.one fs
  let c := signalChain s.live s.voice s.fenv.level fs s.draws
  let out := outSample s.live c.1 s.aenv.level
  let aenv := envTick s.aenv s.live.amp dt
  let fenv := envTick s.fenv s.live.filter dt
  (out, { s with voice := teardown aenv c.2.1, aenv := aenv, fenv := fenv, draws := c.2.2 })

/-- `reg[LAST_SAMPLE] <- out; reg[SAMPLE_COUNT] <- (reg[SAMPLE_COUNT] + 1) mod 2^64` (R236, R39, R40). -/
def countSample (out : F64) (s : State) : State := { s with lastSample := out, sampleCount := s.sampleCount + 1 }

/-- `RENDER_ONE(fs)`; +0.0 in Idle, with no voice or envelope state changed (R236, R237). -/
def renderOne (fs : F64) (s : State) : F64 × State :=
  match s.voice.vstate with
  | .idle => (F64.zero, countSample F64.zero s)
  | .sounding | .releasing =>
    let r := renderVoice fs s
    (r.1, countSample r.1 r.2)

/-- `OUTBUF[i] <- RENDER_ONE(fs)` for `n` elements from `i` on, one after another (45_commands.md R266). -/
def renderFrames (fs : F64) : Nat → Nat → State → State
  | 0, _, s => s
  | n + 1, i, s =>
    let r := renderOne fs s
    renderFrames fs n (i + 1) (outbufSet i r.1 r.2)

/-! ## Parameters and the emergency stop -/

/-- The live bank that the shadow bank commits to (R264). -/
def commitLive (s : State) : Live := .ofWords fun p => (sanitize p (shadowGet s p)).1

/-- Some register of the bank holds a reserved enumeration code (R264). -/
def commitBad (s : State) : Bool := Param.all.any fun p => (sanitize p (shadowGet s p)).2

/-- The commit of all 21 parameters (R264). -/
def commitParams (s : State) : State :=
  let t := { s with live := commitLive s }
  if commitBad s then raiseFlag .badEnum t else t

/-- The emergency stop; oscillator, LFO and filter fields stay (R267). -/
def hardStop (s : State) : State :=
  { s with
    voice := { s.voice with vstate := .idle }
    aenv := envReset s.aenv
    fenv := envReset s.fenv
    lastSample := F64.zero }

end Sys2Proof.Machine
end

