-- ==== Sys2Proof/Machine/Commands.lean ====
section
/-! DEFINITION. The eight commands (45_commands.md), one meaning each. A command always completes (R260); the core step that
decodes the word and empties the pending slot around it stands in `Machine/Agents.lean`. -/

namespace Sys2Proof.Machine

/-- `NOP`: nothing (R268). -/
def execNop (s : State) : Host.Outcome State Fault Refusal := .next s

/-- `NOTE_ON`: note-on by key (R261). -/
def execNoteOn (note octave : Nat) (s : State) : Host.Outcome State Fault Refusal :=
  .next (voiceNoteOn (keyFreq (clampNote note) (clampOctave octave)) s)

/-- `NOTE_ON_HZ`: note-on by the frequency in `FREQ_ARG` (R262). -/
def execNoteOnHz (s : State) : Host.Outcome State Fault Refusal := .next (voiceNoteOn (freqOperand s.freqArg) s)

/-- `NOTE_OFF` (R263). -/
def execNoteOff (s : State) : Host.Outcome State Fault Refusal := .next (voiceNoteOff s)

/-- `SET_PARAMS`: commit of the shadow bank (R264). -/
def execSetParams (s : State) : Host.Outcome State Fault Refusal := .next (commitParams s)

/-- `RENDER_SAMPLE`: one sample, `OUTBUF` not written (R265). -/
def execRenderSample (srate : Nat) (s : State) : Host.Outcome State Fault Refusal :=
  .next (renderOne (sampleRate srate) s).2

/-- `RENDER_BLOCK`: up to 2048 samples into `OUTBUF` (R266). -/
def execRenderBlock (frames srate : Nat) (s : State) : Host.Outcome State Fault Refusal :=
  .next (renderFrames (sampleRate srate) (clampFrames frames) 0 s)

/-- `HARD_STOP` (R267). -/
def execHardStop (s : State) : Host.Outcome State Fault Refusal := .next (hardStop s)

end Sys2Proof.Machine
end

