-- ==== Sys2Proof/Machine/Dispatch.lean ====
section
/-! DEFINITION. One arm per command: the row of the opcode map that `decode` found is executed (45_commands.md R260). -/

namespace Sys2Proof.Machine

def exec (i : Instr) (s : State) : Host.Outcome State Fault Refusal :=
  match i with
  | .nop => Sys2Proof.Machine.execNop s
  | .noteOn note octave => Sys2Proof.Machine.execNoteOn note octave s
  | .noteOnHz => Sys2Proof.Machine.execNoteOnHz s
  | .noteOff => Sys2Proof.Machine.execNoteOff s
  | .setParams => Sys2Proof.Machine.execSetParams s
  | .renderSample srate => Sys2Proof.Machine.execRenderSample srate s
  | .renderBlock frames srate => Sys2Proof.Machine.execRenderBlock frames srate s
  | .hardStop => Sys2Proof.Machine.execHardStop s

end Sys2Proof.Machine
end

