-- ==== Sys2Proof/Machine/Flags.lean ====
section
/-! DEFINITION. The words the host reads flags from: `ERR` and `STATUS` (10_state.md R34, R35). -/

namespace Sys2Proof.Machine

/-- `VSTATE` codes of `STATUS[1:0]`. -/
def VState.code : VState → Word
  | .idle => 0
  | .sounding => 1
  | .releasing => 2

/-- Stage codes of `STATUS[4:2]` and `STATUS[7:5]` (42_envelope.md R180). -/
def Stage.code : Stage → Word
  | .idle => 0
  | .attack => 1
  | .decay => 2
  | .sustain => 3
  | .release => 4

/-- `ERR` as it reads: the flags in [2:0], zeros above (R35). -/
def errWord (s : State) : Word := s.err.setWidth 64

/-- `STATUS.ERR_ANY`: 1 if and only if `ERR != 0` (R34). -/
def errAny (s : State) : Bool := s.err != 0

/-- A flag as the word with that bit. -/
def flagBit (b : Bool) (n : Nat) : Word := if b then 1 <<< n else 0

/-- `STATUS` (R34). -/
def statusWord (s : State) : Word :=
  s.voice.vstate.code ||| s.aenv.stage.code <<< 2 ||| s.fenv.stage.code <<< 5 |||
    flagBit (busy s) 8 ||| flagBit (errAny s) 9

end Sys2Proof.Machine
end

