-- ==== Sys2Proof/Machine/Window.lean ====
section
/-! DEFINITION. The host register window: its map (10_state.md R32, R41, R48, R49), what each register reads as, what a host
read returns while a command is latched (70_reset_and_hazards.md R312), and what a host write does (20_memory.md R75). -/

namespace Sys2Proof

/-- The debug readouts in the order of their offsets (R48). -/
def DebugReg.all : List DebugReg :=
  [.voiceFreq, .oscPhase, .subPhase, .lfoPhase, .lfoSh, .fltL, .fltB,
   .aenvLevel, .fenvLevel, .aenvEntry, .fenvEntry, .aenvTime, .fenvTime]

/-- Place of a readout in that order. -/
def DebugReg.index (d : DebugReg) : Nat := DebugReg.all.idxOf d

namespace Machine

/-- What stands at an aligned offset of the window (R32). -/
def regAt (a : Nat) : Reg :=
  if a = 0x000 then .id
  else if a = 0x008 then .status
  else if a = 0x010 then .err
  else if a = 0x018 then .cmd
  else if a = 0x020 then .freqArg
  else if a = 0x028 then .lastSample
  else if a = 0x030 then .sampleCount
  else if 0x040 ≤ a ∧ a ≤ 0x0E0 then .param (Param.all.getD ((a - 0x040) / 8) .oscWave)
  else if 0x100 ≤ a ∧ a ≤ 0x160 then .debug (DebugReg.all.getD ((a - 0x100) / 8) .voiceFreq)
  else if outbufBase ≤ a ∧ a < outbufBase + 8 * Config.outbufLen then .outbuf ((a - outbufBase) / 8)
  else .reserved

/-- `offset(reg)`: the offset of a named register (R32); `none` for "reserved", which is many offsets. -/
def offsetOf : Reg → Option Nat
  | .id => some 0x000
  | .status => some 0x008
  | .err => some 0x010
  | .cmd => some 0x018
  | .freqArg => some 0x020
  | .lastSample => some 0x028
  | .sampleCount => some 0x030
  | .param p => some (0x040 + 8 * p.index.val)
  | .debug d => some (0x100 + 8 * d.index)
  | .outbuf i => some (outbufOffset i)
  | .reserved => none

/-- `ID`: the ASCII bytes "SH101COR" (R33). -/
def idWord : Word := 0x5348313031434F52

/-- What a debug readout shows (R48). -/
def debugValue (s : State) : DebugReg → F64
  | .voiceFreq => s.voice.freq
  | .oscPhase => s.voice.oscPhase
  | .subPhase => s.voice.subPhase
  | .lfoPhase => s.voice.lfoPhase
  | .lfoSh => s.voice.lfoSh
  | .fltL => s.voice.fltL
  | .fltB => s.voice.fltB
  | .aenvLevel => s.aenv.level
  | .fenvLevel => s.fenv.level
  | .aenvEntry => s.aenv.entry
  | .fenvEntry => s.fenv.entry
  | .aenvTime => s.aenv.t
  | .fenvTime => s.fenv.t

/-- `reg[NAME]`: the architectural value (R12). `CMD` and reserved offsets read 0 (R37, R51). -/
def regValue (s : State) : Reg → Word
  | .id => idWord
  | .status => statusWord s
  | .err => errWord s
  | .cmd => 0
  | .freqArg => s.freqArg
  | .lastSample => s.lastSample.bits
  | .sampleCount => s.sampleCount
  | .param p => shadowGet s p
  | .debug d => (debugValue s d).bits
  | .outbuf i => (outbufGet s i).bits
  | .reserved => 0

/-- Byte `k` of the register at `a` is what the platform bus presents at `a + k` (R72). -/
def windowByte (s : State) (a : Nat) : Byte := byteOf (regValue s (regAt (a - a % 8))) (a % 8)

/-- The bits of a register that read unspecified while `BUSY = 1` (R312, R34): all of a result register, and all of
`STATUS` but `BUSY` and `ERR_ANY`. -/
def unspecifiedWhileBusy : Reg → Word
  | .status => ~~~0x300
  | .lastSample | .sampleCount | .debug _ | .outbuf _ => ~~~0
  | .id | .err | .cmd | .freqArg | .param _ | .reserved => 0

/-- A host read takes a free value: a command is latched and the register has unspecified bits. -/
def readIsFree (s : State) (r : Reg) : Bool := busy s && unspecifiedWhileBusy r != 0

/-- What a host read returns: the architectural value, with a free value in the unspecified bits while busy. -/
def readValue (s : State) (r : Reg) : Word :=
  let v := regValue s r
  let m := unspecifiedWhileBusy r
  if readIsFree s r then (v &&& ~~~m) ||| (Config.busyRead s.busyReads &&& m) else v

/-- A host read of the register at `a`: nothing of the block changes (R75); the value goes to the host. -/
def hostRead (a : Nat) (s : State) : State :=
  { s with
    observed := (a, readValue s (regAt a)) :: s.observed
    busyReads := if readIsFree s (regAt a) then s.busyReads + 1 else s.busyReads }

/-- A host write of `v` to the register at `a` (R75): `CMD` latches, `ERR` clears, `FREQ_ARG` and the shadow bank store,
every other write is ignored (R32, R51). -/
def hostWrite (a : Nat) (v : Word) (s : State) : State :=
  match regAt a with
  | .err => clearFlags v s
  | .cmd => writeCmd v s
  | .freqArg => setFreqArg v s
  | .param p => shadowSet p v s
  | .id | .status | .lastSample | .sampleCount | .debug _ | .outbuf _ | .reserved => s

/-- The interface contract: an aligned 8-byte access inside the window (20_memory.md R70). -/
def inContract (addr bytes : Nat) : Bool := decide (bytes = 8) && decide (addr % 8 = 0) && decide (addr < Config.windowSize)

/-- Where the platform finds the register at offset `a` (R76). -/
def platformAddress (a : Nat) : Nat := Config.windowBase + a

end Machine
end Sys2Proof
end

