-- ==== Sys2Proof/Machine/Agents.lean ====
section
/-! DEFINITION. The two agents and the reset input (10_state.md R30, 70_reset_and_hazards.md R300): one core step, one step
of the world outside, and which of them comes next. -/

namespace Sys2Proof.Machine

/-- `CORE_STEP()` on the latched word (45_commands.md R260): decode, execute or raise `BADCMD` (30_encoding.md R106), empty
the slot. -/
def coreStep (w : Word) (s : State) : Host.Outcome State Fault Refusal :=
  match decode w with
  | .error _ => .next (emptySlot (raiseFlag .badCmd s))
  | .ok i =>
    match exec i s with
    | .next t => .next (emptySlot t)
    | .fault f => .fault f
    | .refused r => .refused r

/-- The host reads `STATUS` once; while `BUSY` is 1 it is going to read it again (30_encoding.md R111). -/
def pollStep (s : State) : State :=
  let t := hostRead 0x008 s
  if busy s then { t with inputs := .poll :: t.inputs } else t

/-- One step from outside, already taken off the list of inputs. An access outside the contract has no step (R70). -/
def inputStep (i : Input) (s : State) : Host.Outcome State Fault Refusal :=
  match i with
  | .read addr bytes =>
    if inContract addr bytes then .next (hostRead addr s) else .refused (.accessOutsideContract addr bytes)
  | .write addr bytes v =>
    if inContract addr bytes then .next (hostWrite addr v s) else .refused (.accessOutsideContract addr bytes)
  | .poll => .next (pollStep s)
  | .reset => .next (resetBlock s)

/-- The first input is taken off the list; while a command is latched, one host step fewer may come before its core step. -/
def takeInput (rest : List Input) (s : State) : State := { s with inputs := rest, wait := s.wait - 1 }

/-- One step of one agent. The core moves only while a command is latched (R50), and at the latest when its countdown is at
0 or nothing else is to come; otherwise the next input does. With nothing latched and nothing to come the block waits
(R300): the state stays. -/
def agentStep (s : State) : Host.Outcome State Fault Refusal :=
  match s.slot, s.inputs with
  | none, [] => .next s
  | none, i :: rest => inputStep i (takeInput rest s)
  | some w, [] => coreStep w s
  | some w, i :: rest => if s.wait = 0 then coreStep w s else inputStep i (takeInput rest s)

end Sys2Proof.Machine
end

