-- ==== Sys2Proof/Machine/Step.lean ====
section
/-! DEFINITION. One step of the machine: one core step, one host access or one reset (10_state.md R30; 20_memory.md R78). -/

namespace Sys2Proof.Machine

def step (s : State) : Host.Outcome State Fault Refusal := agentStep s

/-- The state whose next step runs the command word `w`: the word is latched and no host step comes before the core step. -/
def State.withFetchWord (s : State) (nbits w : Nat) : State :=
  { s with slot := some (BitVec.ofNat 64 (w % 2 ^ nbits)), wait := 0 }

end Sys2Proof.Machine
end

