-- ==== Sys2Proof/Machine/HostProgram.lean ====
section
/-! DEFINITION. Host programs (30_encoding.md R111, R112): what each statement makes the host do. -/

namespace Sys2Proof.Machine

/-- `wr <reg>, <value>`. -/
def writeReg (a : Nat) (v : Word) : Input := .write a 8 v

/-- A command word as a statement: `wait ; cmd <word> ; wait` (R112). -/
def commandInputs (w : Word) : List Input := [.poll, writeReg 0x018 w, .poll]

/-- The accesses of one statement; `none` where the assembler rejects it (R111). -/
def stmtInputs : Stmt → Option (List Input)
  | .wr reg v => some [writeReg reg v]
  | .rd reg => some [.read reg 8]
  | .wait => some [.poll]
  | .cmd w => some [writeReg 0x018 w]
  | .op i => (assemble i).map commandInputs
  | .stopAll => some (commandInputs (encode .noteOff))
  | .playHz x => some ([.poll, writeReg 0x020 x.bits] ++ commandInputs (encode .noteOnHz))
  | .loadPreset ps =>
    some (ps.map (fun pv => writeReg (0x040 + 8 * pv.1.index.val) pv.2) ++ commandInputs (encode .setParams))

/-- The accesses of a program, statement after statement; `none` if the assembler rejects one of them. -/
def programInputs : List Stmt → Option (List Input)
  | [] => some []
  | st :: rest =>
    match stmtInputs st, programInputs rest with
    | some a, some b => some (a ++ b)
    | _, _ => none

/-- The host is going to run this program. -/
def State.withInputs (s : State) (is : List Input) : State := { s with inputs := is }

end Sys2Proof.Machine
end

