-- ==== Sys2Proof/Safety.lean ====
section
/-! DEFINITION. What the spec says always holds of the block: the invariants of 10_state.md R52 and the ranges of R45 and R46,
with the canonical form of `OUTBUF`'s memory. -/

namespace Sys2Proof.Machine

/-- `0.0 <= p < 1.0` (R52.1). -/
def inPhase (p : F64) : Bool := F64.le F64.zero p && F64.lt p F64.one

/-- `0.0 <= x <= 1.0` (R52.2). -/
def inUnit (x : F64) : Bool := within F64.zero F64.one x

/-- `-1.0 <= x <= 1.0` (R52.3, R143). -/
def inSigned (x : F64) : Bool := within F64.negOne F64.one x

/-- `x >= 0.0`. -/
def nonneg (x : F64) : Bool := F64.le F64.zero x

/-- Attack, Decay or Sustain: the note is held (R52.4). -/
def Stage.held : Stage → Bool
  | .attack | .decay | .sustain => true
  | .idle | .release => false

/-- How the envelope stages go with the voice state (R52.4–R52.6). -/
def stagesAgree (v : VState) (aenv fenv : Envelope) : Prop :=
  match v with
  | .sounding => aenv.stage.held = true ∧ fenv.stage.held = true
  | .releasing => aenv.stage = .release ∧ (fenv.stage = .release ∨ fenv.stage = .idle)
  | .idle => aenv.stage = .idle ∧ aenv.level = F64.zero

/-- An envelope's ranges (R46, R52.2) and the pin of Idle at 0 (R52.7). -/
structure Envelope.Ok (e : Envelope) : Prop where
  level : inUnit e.level = true
  entry : inUnit e.entry = true
  time : nonneg e.t = true
  pinned : e.stage = .idle → e.level = F64.zero

/-- A live value is a valid code or lies in its range; no NaN does (R41, R52.8). -/
def Live.inRange (l : Live) (p : Param) : Bool :=
  match p.row with
  | .enum codes _ _ => codes.contains (l.word p).toNat
  | .f64 lo hi _ => within lo hi ⟨l.word p⟩

/-- The memory is canonical and lies in `OUTBUF`'s part of the window (R49). -/
structure Memory.Ok (m : Memory) : Prop where
  canonical : m.wf = true
  place : ∀ c ∈ m, outbufBase ≤ c.1 ∧ c.1 < outbufBase + 8 * Config.outbufLen

/-- The invariants that hold whatever the free values are: R52.2–R52.8, and R52.1 for the LFO phase. -/
structure State.Inv (s : State) : Prop where
  stages : stagesAgree s.voice.vstate s.aenv s.fenv
  aenv : s.aenv.Ok
  fenv : s.fenv.Ok
  lfoPhase : inPhase s.voice.lfoPhase = true
  lfoSh : inSigned s.voice.lfoSh = true
  freq : nonneg s.voice.freq = true
  live : ∀ p, s.live.inRange p = true
  outbuf : s.outbuf.Ok

/-- R52.1 for the two oscillators. -/
structure State.PhasesOk (s : State) : Prop where
  osc : inPhase s.voice.oscPhase = true
  sub : inPhase s.voice.subPhase = true

/-- The frequencies that the oscillators of the current voice advance by are finite, as R137 asks of its operand. R7 alone
does not bound `EXP2`, so this is no consequence of the rules (log entry 12). -/
structure State.FreqsFinite (s : State) : Prop where
  voice : s.voice.freq.isFinite = true
  osc : (oscFreq s.live s.voice).isFinite = true

/-- A step ends in a next state. -/
def completes (o : Host.Outcome State Fault Refusal) : Prop := ∃ t, o = .next t

end Sys2Proof.Machine

/-- Nothing that comes from outside breaks the interface contract of 20_memory.md R70. -/
def Sys2Proof.Input.inContract : Input → Bool
  | .read addr bytes => Sys2Proof.Machine.inContract addr bytes
  | .write addr bytes _ => Sys2Proof.Machine.inContract addr bytes
  | .poll | .reset => true
end

