-- ==== Sys2Proof/Certificates/Slice0/Obligations.lean ====
section
/-! DEFINITION. The statements for the provers, in the order of the spec's files. -/

open Sys2Proof Sys2Proof.Machine

namespace Sys2Proof.Claims

/-- The pairs (mask, match) of 30_encoding.md R108. -/
def opcodeRows : List (Word × Word) :=
  [(0xFFFFFFFFFFFFFFFF, 0x00), (0xFFFFFFFFFF0000FF, 0x01), (0xFFFFFFFFFFFFFFFF, 0x02), (0xFFFFFFFFFFFFFFFF, 0x03),
   (0xFFFFFFFFFFFFFFFF, 0x04), (0x00000000FFFFFFFF, 0x05), (0x00000000000000FF, 0x06), (0xFFFFFFFFFFFFFFFF, 0x07)]

/-- The next step is the core step on the latched word `w`. -/
def coreMoves (s : State) (w : Word) : Prop := s.slot = some w ∧ (s.wait = 0 ∨ s.inputs = [])

/-- The next step is not the core's: nothing is latched, or host steps may still come first. -/
def hostMoves (s : State) : Prop := s.slot = none ∨ s.wait ≠ 0

/-- The next step is the core step that executes `i`. -/
def runs (s : State) (i : Instr) : Prop := ∃ w, coreMoves s w ∧ decode w = .ok i

/-- The next step is the step `i` from outside. -/
def takes (s : State) (i : Input) : Prop := s.inputs.head? = some i ∧ hostMoves s

/-- An aligned 8-byte access inside the window (20_memory.md R70). -/
def aligned (a n : Nat) : Prop := n = 8 ∧ a % 8 = 0 ∧ a < 0x8000

/-- `KEY_FREQ` of the clamped operands, written out (40_oscillator.md R141, 30_encoding.md R107). -/
def keyHz (note octave : Nat) : F64 :=
  let k : Int := 12 * (max (min octave 6) 2 : Nat) + (min note 11 : Nat) - 69
  F64.mul ⟨0x407B800000000000⟩ (exp2 (F64.div (F64.ofInt k) ⟨0x4028000000000000⟩))

/-- An envelope after a note-on (42_envelope.md R182). -/
def attacked (e : Envelope) : Envelope := ⟨.attack, e.level, e.level, F64.zero⟩

/-- An envelope after a note-off (42_envelope.md R183). -/
def released (e : Envelope) : Envelope :=
  if e.stage = .attack ∨ e.stage = .decay ∨ e.stage = .sustain then ⟨.release, e.level, e.level, F64.zero⟩ else e

/-- The state after a note-on at frequency `f` (44_voice.md R231, R232). -/
def noteOn (f : F64) (s : State) : State :=
  if s.voice.vstate = .idle then
    { s with
      voice := ⟨.sounding, f, F64.zero, F64.zero, F64.zero, F64.zero, F64.zero, F64.zero⟩
      aenv := ⟨.attack, F64.zero, F64.zero, F64.zero⟩
      fenv := ⟨.attack, F64.zero, F64.zero, F64.zero⟩ }
  else
    { s with
      voice := { s.voice with freq := f, vstate := .sounding }
      aenv := attacked s.aenv
      fenv := attacked s.fenv }

/-- The register holds a reserved code of the enumeration `p` (10_state.md R41). -/
def reservedCode (p : Param) (raw : Word) : Prop :=
  match p.row with
  | .enum codes _ _ => raw.toNat ∉ codes
  | .f64 _ _ _ => False

/-- The value that `sanitize` makes of a register (10_state.md R36). -/
def sanitized (p : Param) (raw : Word) : Word :=
  match p.row with
  | .enum codes _ fallback => if raw.toNat ∈ codes then raw else BitVec.ofNat 64 fallback
  | .f64 lo hi default =>
    if F64.eq ⟨raw⟩ ⟨raw⟩ = false then default.bits
    else if F64.lt ⟨raw⟩ lo then lo.bits
    else if F64.lt hi ⟨raw⟩ then hi.bits
    else raw

/-- `p / q` as a binary64 literal. -/
def lit (p : Nat) (q : Nat := 1) : F64 := F64.nearest false p q

/-- `- p / q` as a binary64 literal. -/
def negLit (p : Nat) (q : Nat := 1) : F64 := F64.nearest true p q

/-- The state after `k` rendered samples, `OUTBUF` aside. -/
def afterSamples (fs : F64) (s : State) : Nat → State
  | 0 => s
  | k + 1 => (renderOne fs (afterSamples fs s k)).2

/-- `r` is a binary64 number nearest to `num / den` units, and the even one of two equally near. -/
def nearestTo (r : F64) (num : Int) (den : Nat) : Prop :=
  ∀ c : F64, c.isFinite = true →
    (den * r.value - num).natAbs ≤ (den * c.value - num).natAbs ∧
    ((den * r.value - num).natAbs = (den * c.value - num).natAbs → c.value = r.value ∨ r.bits.getLsbD 0 = false)

/-- The infinity with this sign. -/
def infOf (neg : Bool) : F64 := if neg then ⟨0xFFF0000000000000⟩ else ⟨0x7FF0000000000000⟩

/-- The zero with this sign. -/
def zeroOf (neg : Bool) : F64 := if neg then ⟨0x8000000000000000⟩ else ⟨0⟩

/-- Half a unit in the last place above the largest finite number: (2^54 - 1) 2^970, in units of 2^-1074. -/
def overflowBound : Nat := (2 ^ 54 - 1) * 2 ^ 2044

/-- `r` is `num / den` units rounded once, to nearest with ties to even: the infinity from `overflowBound` on, below it a
nearest finite number; its sign is `neg`. -/
def rounded (r : F64) (num : Int) (den : Nat) (neg : Bool) : Prop :=
  (overflowBound * den ≤ num.natAbs → r = infOf neg) ∧
  (num.natAbs < overflowBound * den → r.isFinite = true ∧ nearestTo r num den ∧ r.sign = neg)

/-- R6 on finite operands: one rounding, and the signs of the results, of zeros too; division by zero. -/
def finiteRule (a b : F64) : Prop :=
  let sum := a.value + b.value
  let diff := a.value - b.value
  let sg := a.sign != b.sign
  rounded (F64.add a b) sum 1 (if sum = 0 then a.sign && b.sign else decide (sum < 0)) ∧
  rounded (F64.sub a b) diff 1 (if diff = 0 then a.sign && !b.sign else decide (diff < 0)) ∧
  rounded (F64.mul a b) (a.value * b.value) (2 ^ F64.scale) sg ∧
  (b.value ≠ 0 → rounded (F64.div a b) (a.value * (2 ^ F64.scale : Nat) * b.value.sign) b.mag sg) ∧
  (b.value = 0 → a.value ≠ 0 → F64.div a b = infOf sg)

/-- When an operation gives a NaN, of any two operands (IEEE 754's invalid operations, and a NaN operand). -/
def nanRule (a b : F64) : Prop :=
  let nan := a.isNaN = true ∨ b.isNaN = true
  ((F64.add a b).isNaN = true ↔ nan ∨ (a.isInf = true ∧ b.isInf = true ∧ a.sign ≠ b.sign)) ∧
  ((F64.sub a b).isNaN = true ↔ nan ∨ (a.isInf = true ∧ b.isInf = true ∧ a.sign = b.sign)) ∧
  ((F64.mul a b).isNaN = true ↔ nan ∨ (a.isInf = true ∧ b.isZero = true) ∨ (a.isZero = true ∧ b.isInf = true)) ∧
  ((F64.div a b).isNaN = true ↔ nan ∨ (a.isInf = true ∧ b.isInf = true) ∨ (a.isZero = true ∧ b.isZero = true))

/-- What an operation with an infinite operand gives where it gives no NaN. -/
def infRule (a b : F64) : Prop :=
  let sg := a.sign != b.sign
  (a.isInf = true → (F64.add a b).isNaN = false → F64.add a b = a) ∧
  (b.isInf = true → (F64.add a b).isNaN = false → F64.add a b = b) ∧
  (a.isInf = true → (F64.sub a b).isNaN = false → F64.sub a b = a) ∧
  (b.isInf = true → (F64.sub a b).isNaN = false → F64.sub a b = infOf (!b.sign)) ∧
  (a.isInf = true ∨ b.isInf = true → (F64.mul a b).isNaN = false → F64.mul a b = infOf sg) ∧
  (a.isInf = true → (F64.div a b).isNaN = false → F64.div a b = infOf sg) ∧
  (b.isInf = true → (F64.div a b).isNaN = false → F64.div a b = zeroOf sg)

/-- R6's exact operations: `floor` is the largest integer not above, with the operand's sign; `-a` flips bit 63 (a NaN's too
is the model's choice, log entry 10, PRESUMED). -/
def exactRule (a : F64) : Prop :=
  (a.isFinite = true → (F64.floor a).isFinite = true ∧ (F64.floor a).sign = a.sign ∧
    ∃ k : Int, (F64.floor a).value = k * (2 ^ F64.scale : Nat) ∧ k * (2 ^ F64.scale : Nat) ≤ a.value ∧
      a.value < (k + 1) * (2 ^ F64.scale : Nat)) ∧
  (a.isInf = true → F64.floor a = a) ∧ ((F64.floor a).isNaN = a.isNaN) ∧
  (F64.neg a).bits = a.bits ^^^ 0x8000000000000000

/-- R6's comparisons (an infinity's value is beyond every finite one, so the values decide), and its helpers over them. -/
def compareRule (a b : F64) : Prop :=
  (F64.lt a b = true ↔ a.isNaN = false ∧ b.isNaN = false ∧ a.value < b.value) ∧
  (F64.le a b = true ↔ a.isNaN = false ∧ b.isNaN = false ∧ a.value ≤ b.value) ∧
  (F64.eq a b = true ↔ a.isNaN = false ∧ b.isNaN = false ∧ a.value = b.value) ∧
  (a.isNaN = true ↔ F64.eq a a = false) ∧
  (a.isFinite = true → b.isInf = true → if b.sign then b.value < a.value else a.value < b.value) ∧
  F64.max a b = (if F64.lt b a then a else b) ∧ F64.min a b = (if F64.lt a b then a else b) ∧
  F64.abs a = (if F64.lt a F64.zero then F64.neg a else a) ∧
  ∀ v, F64.clamp v a b = if F64.lt v a then a else if F64.lt b v then b else v

/-- `OSC_WAVE`'s codes (10_state.md R41, 30_encoding.md R110). -/
def oscKinds : List (Word × OscWave) := [(0, .sine), (1, .triangle), (2, .sawtooth), (3, .square)]

/-- `FILTER_TYPE`'s codes. -/
def filterKinds : List (Word × FilterType) := [(0, .lowpass), (1, .bandpass), (2, .highpass)]

/-- `LFO_WAVE`'s codes; 2 is reserved. -/
def lfoKinds : List (Word × LfoWave) := [(0, .sine), (1, .triangle), (3, .square), (4, .sampleHold)]

/-- The live bank `l` holds the 21 sanitised words `w`: each field that of its register, and what each code selects. -/
def holds (l : Live) (w : Param → Word) : Prop :=
  (w .oscWave, l.oscWave) ∈ oscKinds ∧ (w .filterType, l.filterType) ∈ filterKinds ∧ (w .lfoWave, l.lfoWave) ∈ lfoKinds ∧
  l.pulseWidth = ⟨w .pulseWidth⟩ ∧ l.detune = ⟨w .detune⟩ ∧ l.subLevel = ⟨w .subLevel⟩ ∧
  l.noiseLevel = ⟨w .noiseLevel⟩ ∧ l.masterVolume = ⟨w .masterVolume⟩ ∧ l.cutoff = ⟨w .cutoff⟩ ∧
  l.resonance = ⟨w .resonance⟩ ∧ l.fenvAmount = ⟨w .fenvAmount⟩ ∧
  l.aenvAttack = ⟨w .aenvAttack⟩ ∧ l.aenvDecay = ⟨w .aenvDecay⟩ ∧ l.aenvSustain = ⟨w .aenvSustain⟩ ∧
  l.aenvRelease = ⟨w .aenvRelease⟩ ∧ l.fenvAttack = ⟨w .fenvAttack⟩ ∧ l.fenvDecay = ⟨w .fenvDecay⟩ ∧
  l.fenvSustain = ⟨w .fenvSustain⟩ ∧ l.fenvRelease = ⟨w .fenvRelease⟩ ∧
  l.lfoRate = ⟨w .lfoRate⟩ ∧ l.lfoDepth = ⟨w .lfoDepth⟩

end Sys2Proof.Claims

open Sys2Proof.Claims

/-! ## 00_scope.md -/

/-- R6: sums, differences, products and quotients of finite numbers are the exact results (in units of 2^-1074) rounded once,
to nearest with ties to even, overflow and the signs of zeros included; infinities, invalid operations and NaN operands;
`floor` and `-a`; the comparisons and the helpers over them. Of a NaN result it says only that it is one (log entry 1). -/
def Obligations.ArithmeticIsCorrectlyRounded : Prop :=
  (∀ a b : F64, a.isFinite = true → b.isFinite = true → finiteRule a b) ∧
  (∀ a b : F64, nanRule a b ∧ infRule a b ∧ compareRule a b) ∧
  ∀ a : F64, exactRule a

/-- R7: the properties of `SIN`, `EXP` and `EXP2`, whatever their free values are. -/
def Obligations.TranscendentalsObeyTheirLaws : Prop :=
  (∀ x : F64, x.isFinite = true →
    (sin x).isFinite = true ∧ F64.le F64.negOne (sin x) = true ∧ F64.le (sin x) F64.one = true) ∧
  F64.eq (sin F64.zero) F64.zero = true ∧
  (∀ x : F64, x.isFinite = true → F64.le x F64.zero = true →
    (exp x).isFinite = true ∧ F64.le F64.zero (exp x) = true ∧ F64.le (exp x) F64.one = true) ∧
  F64.eq (exp F64.negZero) F64.one = true ∧
  (∀ x : F64, x.isFinite = true → (exp2 x).isFinite = true ∧ F64.lt F64.zero (exp2 x) = true) ∧
  F64.eq (exp2 F64.zero) F64.one = true

/-- R8 and 40_oscillator.md R135: every draw is a finite number in [-1, 1]; noise takes one draw in a tick while
`NOISE_LEVEL` is not 0.0, and none, with the value 0.0, while it is. -/
def Obligations.DrawsAreInRangeAndTakenWhenEnabled : Prop :=
  (∀ k, (draw k).isFinite = true ∧ F64.le F64.negOne (draw k) = true ∧ F64.le (draw k) F64.one = true) ∧
  ∀ (live : Live) (k : Nat),
    (F64.eq live.noiseLevel F64.zero = false → noiseStep live k = (draw k, k + 1)) ∧
    (F64.eq live.noiseLevel F64.zero = true → noiseStep live k = (F64.zero, k))

/-! ## 10_state.md -/

/-- R32: what stands at each offset of the window. -/
def Obligations.WindowMapIsThatOfTheTable : Prop :=
  regAt 0x000 = .id ∧ regAt 0x008 = .status ∧ regAt 0x010 = .err ∧ regAt 0x018 = .cmd ∧ regAt 0x020 = .freqArg ∧
  regAt 0x028 = .lastSample ∧ regAt 0x030 = .sampleCount ∧
  [0x040, 0x048, 0x050, 0x058, 0x060, 0x068, 0x070, 0x078, 0x080, 0x088, 0x090, 0x098, 0x0A0, 0x0A8, 0x0B0, 0x0B8, 0x0C0,
    0x0C8, 0x0D0, 0x0D8, 0x0E0].map regAt = Param.all.map .param ∧
  [0x100, 0x108, 0x110, 0x118, 0x120, 0x128, 0x130, 0x138, 0x140, 0x148, 0x150, 0x158, 0x160].map regAt
    = [.voiceFreq, .oscPhase, .subPhase, .lfoPhase, .lfoSh, .fltL, .fltB, .aenvLevel, .fenvLevel, .aenvEntry, .fenvEntry,
       .aenvTime, .fenvTime].map Reg.debug ∧
  (∀ i, i < 2048 → regAt (0x1000 + 8 * i) = .outbuf i) ∧
  ∀ a, a = 0x038 ∨ (0x0E8 ≤ a ∧ a ≤ 0x0F8) ∨ (0x168 ≤ a ∧ a ≤ 0x0FF8) ∨ 0x5000 ≤ a → regAt a = .reserved

/-- R33–R40, R42, R48, R49, R51: what each register reads as while no command is latched; for `STATUS` the word whose fields
`StatusFieldsAreThoseOfTheTable` gives. -/
def Obligations.RegistersReadTheirContents : Prop :=
  ∀ s : State, s.slot = none →
    readValue s .id = 0x5348313031434F52 ∧ readValue s .status = regValue s .status ∧
    readValue s .err = s.err.setWidth 64 ∧ readValue s .cmd = 0 ∧ readValue s .freqArg = s.freqArg ∧
    readValue s .lastSample = s.lastSample.bits ∧ readValue s .sampleCount = s.sampleCount ∧ (∀ p, readValue s (.param p) = s.shadow[p.index]) ∧
    (∀ i, readValue s (.outbuf i) = s.outbuf.load64 (0x1000 + 8 * i)) ∧ readValue s .reserved = 0 ∧
    readValue s (.debug .voiceFreq) = s.voice.freq.bits ∧ readValue s (.debug .oscPhase) = s.voice.oscPhase.bits ∧
    readValue s (.debug .subPhase) = s.voice.subPhase.bits ∧ readValue s (.debug .lfoPhase) = s.voice.lfoPhase.bits ∧
    readValue s (.debug .lfoSh) = s.voice.lfoSh.bits ∧ readValue s (.debug .fltL) = s.voice.fltL.bits ∧
    readValue s (.debug .fltB) = s.voice.fltB.bits ∧ readValue s (.debug .aenvLevel) = s.aenv.level.bits ∧
    readValue s (.debug .fenvLevel) = s.fenv.level.bits ∧ readValue s (.debug .aenvEntry) = s.aenv.entry.bits ∧
    readValue s (.debug .fenvEntry) = s.fenv.entry.bits ∧ readValue s (.debug .aenvTime) = s.aenv.t.bits ∧
    readValue s (.debug .fenvTime) = s.fenv.t.bits

/-- R34: the fields of `STATUS`. -/
def Obligations.StatusFieldsAreThoseOfTheTable : Prop :=
  ∀ s : State,
    let w := regValue s .status
    (w.extractLsb' 0 2 = match s.voice.vstate with | .idle => 0 | .sounding => 1 | .releasing => 2) ∧
    (w.extractLsb' 2 3 = match s.aenv.stage with | .idle => 0 | .attack => 1 | .decay => 2 | .sustain => 3 | .release => 4) ∧
    (w.extractLsb' 5 3 = match s.fenv.stage with | .idle => 0 | .attack => 1 | .decay => 2 | .sustain => 3 | .release => 4) ∧
    w.getLsbD 8 = s.slot.isSome ∧ w.getLsbD 9 = decide (s.err ≠ 0) ∧ w.extractLsb' 10 54 = 0

/-- R35, R281: a flag that is set stays set, unless the host writes a 1 to its bit of `ERR` or the block is reset. -/
def Obligations.ErrorFlagsAreSticky : Prop :=
  ∀ (s t : State) (i : Nat), step s = .next t → s.err.getLsbD i = true →
    t.err.getLsbD i = true ∨ (∃ v, takes s (.write 0x010 8 v) ∧ v.getLsbD i = true) ∨ takes s .reset

/-- R35, R281: a flag is set only by its cause: `BADENUM` by a `SET_PARAMS` that finds a reserved code, `BADCMD` by a
latched word that is no command, `OVERRUN` by a write to `CMD` while a command is latched. -/
def Obligations.ErrorFlagsHaveTheirCauses : Prop :=
  ∀ s t : State, step s = .next t →
    (t.err.getLsbD 0 = true →
      s.err.getLsbD 0 = true ∨ (runs s .setParams ∧ ∃ p, reservedCode p s.shadow[p.index])) ∧
    (t.err.getLsbD 1 = true → s.err.getLsbD 1 = true ∨ ∃ w e, coreMoves s w ∧ decode w = .error e) ∧
    (t.err.getLsbD 2 = true → s.err.getLsbD 2 = true ∨ ((∃ v, takes s (.write 0x018 8 v)) ∧ s.slot.isSome = true))

/-- R37, R50: a write to `CMD` latches the word into an empty slot; on a full one it is dropped and raises `OVERRUN`. The
latency that the latch draws is free (the model's choice of form, log entry 5). -/
def Obligations.CmdWriteLatchesOrOverruns : Prop :=
  ∀ (s : State) (w : Word) (rest : List Input), s.inputs = .write 0x018 8 w :: rest →
    (s.slot = none → step s = .next { s with
      inputs := rest, slot := some w, wait := Config.latency s.latches, latches := s.latches + 1 }) ∧
    (s.slot.isSome = true → s.wait ≠ 0 → step s = .next { s with
      inputs := rest, wait := s.wait - 1, err := s.err ||| 0b100 })

/-- R35, R38, R42, R51 and the RO rows of R32: what every other host write does. -/
def Obligations.HostWritesStoreClearOrAreIgnored : Prop :=
  ∀ (s : State) (a : Nat) (v : Word) (rest : List Input), s.inputs = .write a 8 v :: rest → hostMoves s → aligned a 8 →
    let t := { s with inputs := rest, wait := s.wait - 1 }
    (regAt a = .err → step s = .next { t with err := s.err &&& ~~~(v.setWidth 3) }) ∧
    (regAt a = .freqArg → step s = .next { t with freqArg := v }) ∧
    (∀ p, regAt a = .param p → step s = .next { t with shadow := s.shadow.set p.index v }) ∧
    (∀ r, regAt a = r → r = .id ∨ r = .status ∨ r = .lastSample ∨ r = .sampleCount ∨ (∃ d, r = .debug d) ∨
      (∃ i, r = .outbuf i) ∨ r = .reserved → step s = .next t)

/-- R40: each execution of `renderSample` adds 1 modulo 2^64, in every voice state; no other operation changes the counter;
its reset value is 0; it stands at 0x030 and writes to it are ignored. -/
def Obligations.SampleCountCountsRenderedSamples : Prop :=
  regAt 0x030 = .sampleCount ∧ (∀ s, regValue s .sampleCount = s.sampleCount) ∧
  (∀ v s, hostWrite 0x030 v s = s) ∧
  (∀ fs s, (renderOne fs s).2.sampleCount = s.sampleCount + 1) ∧ State.reset.sampleCount = 0 ∧
  ∀ s t : State, step s = .next t →
    t.sampleCount = s.sampleCount ∨ (takes s .reset ∧ t.sampleCount = 0) ∨
    (∃ r, runs s (.renderSample r) ∧ t.sampleCount = s.sampleCount + 1) ∨
    (∃ f r, runs s (.renderBlock f r) ∧ t.sampleCount = s.sampleCount + BitVec.ofNat 64 (min f 2048))

/-- R41: the table of the parameter registers. The fallback of every enumeration is code 0. -/
def Obligations.ParameterTableIsThatOfTheSpec : Prop :=
  Param.oscWave.row = .enum [0, 1, 2, 3] 0 0 ∧ Param.pulseWidth.row = .f64 (lit 0) (lit 1) (lit 1 2) ∧
  Param.detune.row = .f64 (negLit 1200) (lit 1200) (lit 0) ∧ Param.subLevel.row = .f64 (lit 0) (lit 1) (lit 0) ∧
  Param.noiseLevel.row = .f64 (lit 0) (lit 1) (lit 0) ∧ Param.masterVolume.row = .f64 (lit 0) (lit 1) (lit 1) ∧
  Param.filterType.row = .enum [0, 1, 2] 0 0 ∧ Param.cutoff.row = .f64 (lit 20) (lit 1000000) (lit 1000) ∧
  Param.resonance.row = .f64 (lit 0) (lit 30) (lit 2) ∧
  Param.fenvAmount.row = .f64 (negLit 1000000) (lit 1000000) (lit 0) ∧
  Param.aenvAttack.row = .f64 (lit 1 1000) (lit 60) (lit 1 100) ∧
  Param.aenvDecay.row = .f64 (lit 1 1000) (lit 60) (lit 1 10) ∧
  Param.aenvSustain.row = .f64 (lit 0) (lit 1) (lit 8 10) ∧
  Param.aenvRelease.row = .f64 (lit 1 1000) (lit 60) (lit 2 10) ∧
  Param.fenvAttack.row = .f64 (lit 1 1000) (lit 60) (lit 1 100) ∧
  Param.fenvDecay.row = .f64 (lit 1 1000) (lit 60) (lit 1 10) ∧
  Param.fenvSustain.row = .f64 (lit 0) (lit 1) (lit 8 10) ∧
  Param.fenvRelease.row = .f64 (lit 1 1000) (lit 60) (lit 2 10) ∧
  Param.lfoWave.row = .enum [0, 1, 3, 4] 0 0 ∧ Param.lfoRate.row = .f64 (lit 0) (lit 100) (lit 0) ∧
  Param.lfoDepth.row = .f64 (lit 0) (lit 1) (lit 0)

/-- R42: a shadow register reads back what was written, busy or not; no other shadow register and no live parameter changes. -/
def Obligations.ShadowRegistersReadBackAsWritten : Prop :=
  ∀ (s : State) (p : Param) (v : Word) (rest : List Input),
    s.inputs = .write (0x040 + 8 * p.index.val) 8 v :: rest → hostMoves s →
    ∃ t, step s = .next t ∧ readValue t (.param p) = v ∧ (∀ q, q ≠ p → readValue t (.param q) = readValue s (.param q)) ∧
      t.live = s.live

/-- R39, R44, R49: who writes the live bank, `OUTBUF` and `LAST_SAMPLE`: `SET_PARAMS`; `RENDER_BLOCK`; the render commands and
`HARD_STOP`; and the reset each of them. -/
def Obligations.LiveBankAndOutputsHaveTheirWriters : Prop :=
  ∀ s t : State, step s = .next t →
    (t.live = s.live ∨ runs s .setParams ∨ takes s .reset) ∧
    (t.outbuf = s.outbuf ∨ (∃ f r, runs s (.renderBlock f r)) ∨ takes s .reset) ∧
    (t.lastSample = s.lastSample ∨ (∃ r, runs s (.renderSample r)) ∨ (∃ f r, runs s (.renderBlock f r)) ∨
      runs s .hardStop ∨ takes s .reset)

/-- R52: the invariants hold right after reset. -/
def Obligations.InvariantsHoldAtReset : Prop := State.reset.Inv ∧ State.reset.PhasesOk

/-- R52 items 2–8, the LFO part of item 1, R46's ranges and the canonical form of `OUTBUF`: every step keeps them, whatever
the free values are. -/
def Obligations.EveryStepKeepsTheInvariants : Prop :=
  ∀ s t : State, s.Inv → step s = .next t → t.Inv

/-- R52 item 1 for the oscillators: a step keeps both phases in [0, 1) if the frequencies they advance by are finite, which
is what R137 asks of its operand. That premise is the model's (log entry 12): R7 alone does not bound `EXP2`. -/
def Obligations.EveryStepKeepsThePhasesInRange : Prop :=
  ∀ s t : State, s.Inv → s.PhasesOk → s.FreqsFinite → step s = .next t → t.PhasesOk

/-! ## 20_memory.md -/

/-- R70: a host access that is not an aligned 8-byte access inside the window is refused. -/
def Obligations.AccessOutsideTheContractIsRefused : Prop :=
  ∀ (s : State) (a n : Nat) (v : Word) (rest : List Input),
    s.inputs = .read a n :: rest ∨ s.inputs = .write a n v :: rest → hostMoves s → ¬ aligned a n →
    step s = .refused (.accessOutsideContract a n)

/-- R72: the little-endian bytes of every register of the window, and the same bytes in `OUTBUF`'s memory; the sign of a
binary64 register is its bit 63. -/
def Obligations.RegisterBytesAreLittleEndian : Prop :=
  (∀ (s : State) (a k : Nat), a % 8 = 0 → k < 8 →
    windowByte s (a + k) = (regValue s (regAt a)).extractLsb' (8 * k) 8) ∧
  (∀ (s : State) (i k : Nat), k < 8 →
    s.outbuf.readByte (0x1000 + 8 * i + k) = (outbufGet s i).bits.extractLsb' (8 * k) 8) ∧
  ∀ x : F64, x.sign = x.bits.getLsbD 63

/-- R75: a host read leaves the block as it is; what it returned goes to the host. R111: a round of `wait` is a read of
`STATUS`, and it comes again exactly while `BUSY` is 1. The counter of free reads and the lists of inputs and of observed
reads are the model's own (log entries 6, 7, 17). -/
def Obligations.ReadsHaveNoSideEffects : Prop :=
  (∀ (s : State) (a : Nat) (rest : List Input), s.inputs = .read a 8 :: rest → hostMoves s → aligned a 8 →
    ∃ t, step s = .next t ∧
      t = { s with inputs := rest, wait := s.wait - 1, busyReads := t.busyReads,
                   observed := (a, readValue s (regAt a)) :: s.observed }) ∧
  ∀ (s : State) (rest : List Input), s.inputs = .poll :: rest → hostMoves s →
    ∃ t, step s = .next t ∧
      t = { s with inputs := if s.slot.isSome then .poll :: rest else rest, wait := s.wait - 1, busyReads := t.busyReads,
                   observed := (0x008, readValue s .status) :: s.observed } ∧
      (readValue s .status).getLsbD 8 = s.slot.isSome

/-! ## 30_encoding.md -/

/-- R102–R105, R108: decoding the word of a well-formed instruction gives it back, every operand at every value. -/
def Obligations.DecodeOfEncodeIsTheInstruction : Prop :=
  ∀ i : Instr, i.WellFormed → decode (encode i) = .ok i

/-- R102–R106: a word that decodes to an instruction is that instruction's word: every command has one encoding. -/
def Obligations.EncodeOfDecodeIsTheWord : Prop :=
  ∀ (w : Word) (i : Instr), decode w = .ok i → i.WellFormed ∧ encode i = w

/-- Words written out from R103–R108 (95_test_vectors.md D1–D14) decode as they should. -/
def Obligations.ListedWordsDecodeAsListed : Prop :=
  decode 0x0000000000000000 = .ok .nop ∧ decode 0x0000000000050901 = .ok (.noteOn 9 5) ∧
  decode 0x00000000000F0C01 = .ok (.noteOn 12 15) ∧ decode 0x0000000000000002 = .ok .noteOnHz ∧
  decode 0x0000000000000003 = .ok .noteOff ∧ decode 0x0000000000000004 = .ok .setParams ∧
  decode 0x0000AC4400000005 = .ok (.renderSample 44100) ∧ decode 0x0000AC4400040006 = .ok (.renderBlock 1024 44100) ∧
  decode 0x0000000000000007 = .ok .hardStop ∧ decode 0x0000000001040001 = .error (.reservedBits .noteOn) ∧
  decode 0x0000000000000008 = .error (.reservedOpcode 8) ∧ decode 0x8000000000000000 = .error (.reservedBits .nop) ∧
  decode 0x0000AC4400000105 = .error (.reservedBits .renderSample)

/-- R106, R109: a word that selects no row of the opcode map has no effect other than `BADCMD`, and the slot is emptied. -/
def Obligations.ReservedWordsRaiseBadCmdOnly : Prop :=
  ∀ (s : State) (w : Word), coreMoves s w → (∀ r ∈ opcodeRows, w &&& r.1 ≠ r.2) →
    step s = .next { s with err := s.err ||| 0b010, slot := none, wait := 0 }

/-- R103–R105, R108: a word selects a row exactly when `(w and mask) == match`, and its operands are the fields of the row's
format. -/
def Obligations.WordsSelectTheRowOfTheOpcodeMap : Prop :=
  ∀ w : Word,
    (decode w = .ok .nop ↔ w &&& 0xFFFFFFFFFFFFFFFF = 0x00) ∧
    (∀ n o, decode w = .ok (.noteOn n o) ↔
      w &&& 0xFFFFFFFFFF0000FF = 0x01 ∧ n = (w.extractLsb' 8 8).toNat ∧ o = (w.extractLsb' 16 8).toNat) ∧
    (decode w = .ok .noteOnHz ↔ w &&& 0xFFFFFFFFFFFFFFFF = 0x02) ∧
    (decode w = .ok .noteOff ↔ w &&& 0xFFFFFFFFFFFFFFFF = 0x03) ∧
    (decode w = .ok .setParams ↔ w &&& 0xFFFFFFFFFFFFFFFF = 0x04) ∧
    (∀ r, decode w = .ok (.renderSample r) ↔ w &&& 0x00000000FFFFFFFF = 0x05 ∧ r = (w.extractLsb' 32 32).toNat) ∧
    (∀ f r, decode w = .ok (.renderBlock f r) ↔
      w &&& 0x00000000000000FF = 0x06 ∧ f = (w.extractLsb' 8 24).toNat ∧ r = (w.extractLsb' 32 32).toNat) ∧
    (decode w = .ok .hardStop ↔ w &&& 0xFFFFFFFFFFFFFFFF = 0x07)

/-! ## 40_oscillator.md -/

/-- R131–R134, R136: the waveforms as functions of the phase. -/
def Obligations.WaveformsAreThoseOfTheSpec : Prop :=
  ∀ p pw : F64,
    wave .sine p pw = sin (F64.mul ⟨0x401921FB54442D18⟩ p) ∧
    wave .triangle p pw =
      (if F64.lt p (lit 1 4) then F64.mul (lit 4) p
       else if F64.lt p (lit 3 4) then F64.sub (lit 2) (F64.mul (lit 4) p)
       else F64.sub (F64.mul (lit 4) p) (lit 4)) ∧
    wave .sawtooth p pw = F64.sub (F64.mul (lit 2) p) (lit 1) ∧
    wave .square p pw = (if F64.lt p pw then lit 1 else negLit 1)

/-- R132: every operation of the triangle is exact (values in units of 2^-1074). -/
def Obligations.TriangleIsExact : Prop :=
  ∀ p pw : F64, inPhase p = true →
    (wave .triangle p pw).value =
      (if F64.lt p F64.quarter then 4 * p.value
       else if F64.lt p F64.threeQuarters then 2 * (2 ^ F64.scale : Nat) - 4 * p.value
       else 4 * p.value - 4 * (2 ^ F64.scale : Nat))

/-- R143: for every waveform kind and every phase in [0, 1) the value is in [-1, 1], the noise source's included. -/
def Obligations.WaveformsStayInRange : Prop :=
  (∀ (kind : OscWave) (p pw : F64), inPhase p = true →
    F64.le F64.negOne (wave kind p pw) = true ∧ F64.le (wave kind p pw) F64.one = true) ∧
  ∀ (live : Live) (k : Nat),
    F64.le F64.negOne (noiseStep live k).1 = true ∧ F64.le (noiseStep live k).1 F64.one = true

/-- R137: the phase stays in [0, 1) for every finite frequency that is not negative and every sample rate of at least
80 Hz, however often it wraps, and a frequency of 0.0 leaves it unchanged. -/
def Obligations.PhaseAdvanceStaysInRange : Prop :=
  ∀ p f fs : F64, inPhase p = true → f.isFinite = true → F64.le F64.zero f = true → F64.le (lit 80) fs = true →
    inPhase (advance p f fs) = true ∧ (F64.eq f F64.zero = true → F64.eq (advance p f fs) p = true)

/-- R138: `DETUNE = 0.0` leaves the voice frequency exactly as it is. -/
def Obligations.ZeroDetuneKeepsThePitch : Prop :=
  ∀ (live : Live) (voice : Voice), live.detune = F64.zero → voice.freq.isFinite = true → oscFreq live voice = voice.freq

/-- R130, R138–R140: both oscillators give the sample of the phase before the advance; the main one advances by the detuned
frequency, the sub-oscillator by half the voice frequency. -/
def Obligations.OscillatorsSampleTheOldPhase : Prop :=
  ∀ (live : Live) (v : Voice) (fs : F64),
    oscStep live v fs =
      (wave live.oscWave v.oscPhase live.pulseWidth,
       { v with oscPhase := advance v.oscPhase (F64.mul v.freq (exp2 (F64.div live.detune (lit 1200)))) fs }) ∧
    subStep v fs =
      (if F64.lt v.subPhase (lit 1 2) then F64.one else F64.negOne,
       { v with subPhase := advance v.subPhase (F64.mul v.freq (lit 1 2)) fs }) ∧
    ∀ p f : F64, advance p f fs =
      (let x := F64.add p (F64.div f fs)
       if F64.le F64.one x then F64.sub x (F64.floor x) else x)

/-! ## 41_lfo.md -/

/-- R161, R162, R164: one tick of the LFO: the value of the state before the advance, the advanced phase, and one draw into
the held value exactly when the phase wraps in SAMPLE_HOLD mode. -/
def Obligations.LfoTickIsThatOfTheSpec : Prop :=
  ∀ (live : Live) (v : Voice) (fs : F64) (d : Nat),
    let wraps : Bool := F64.le F64.one (F64.add v.lfoPhase (F64.div live.lfoRate fs))
    (lfoStep live v fs d).1 =
      (if F64.eq live.lfoRate F64.zero || F64.eq live.lfoDepth F64.zero then F64.zero
       else match live.lfoWave with
        | .sine => wave .sine v.lfoPhase F64.half
        | .triangle => wave .triangle v.lfoPhase F64.half
        | .square => wave .square v.lfoPhase F64.half
        | .sampleHold => v.lfoSh) ∧
    (wraps = true → live.lfoWave = .sampleHold →
      (lfoStep live v fs d).2 =
        ({ v with lfoPhase := advance v.lfoPhase live.lfoRate fs, lfoSh := draw d }, d + 1)) ∧
    (wraps = false ∨ live.lfoWave ≠ .sampleHold →
      (lfoStep live v fs d).2 = ({ v with lfoPhase := advance v.lfoPhase live.lfoRate fs }, d))

/-- R166: with rate or depth 0.0 the LFO adds a zero to the cutoff, and adding it to a number that is not zero leaves that
number unchanged (a NaN stays a NaN). -/
def Obligations.DisabledLfoAddsExactlyNothing : Prop :=
  ∀ (live : Live) (v : Voice), live.inRange .lfoDepth = true →
    F64.eq live.lfoRate F64.zero = true ∨ F64.eq live.lfoDepth F64.zero = true →
    let c := lfoCutoff live (lfoValue live v)
    (c = F64.zero ∨ c = F64.negZero) ∧
    ∀ x : F64, F64.eq x F64.zero = false → if x.isNaN then (F64.add x c).isNaN = true else F64.add x c = x

/-! ## 42_envelope.md -/

/-- R181–R183: `ENV_RESET`, `ENV_NOTE_ON` from every stage, `ENV_NOTE_OFF`. -/
def Obligations.EnvelopeNoteEvents : Prop :=
  ∀ e : Envelope,
    envReset e = ⟨.idle, F64.zero, F64.zero, F64.zero⟩ ∧
    envNoteOn e = { e with entry := e.level, stage := .attack, t := F64.zero } ∧
    (e.stage = .attack ∨ e.stage = .decay ∨ e.stage = .sustain →
      envNoteOff e = { e with entry := e.level, stage := .release, t := F64.zero }) ∧
    (e.stage = .idle ∨ e.stage = .release → envNoteOff e = e)

/-- R184, R185: one tick of an envelope, the completion test included. -/
def Obligations.EnvelopeTickIsThatOfTheSpec : Prop :=
  ∀ (e : Envelope) (p : Adsr) (dt : F64),
    let level := fun target dur : F64 =>
      F64.clamp (F64.add target (F64.mul (F64.sub e.level target)
        (exp (F64.neg (F64.div (F64.mul dt ⟨0x401BA18A998FFFA0⟩) dur))))) F64.zero F64.one
    let t := F64.add e.t dt
    let eps := lit 1 1000
    (e.stage = .idle → envTick e p dt = { e with level := F64.zero }) ∧
    (e.stage = .attack →
      let l := level F64.one p.attack
      envTick e p dt = if F64.le (F64.sub F64.one l) eps || F64.le p.attack t then ⟨.decay, l, l, F64.zero⟩
        else ⟨.attack, l, e.entry, t⟩) ∧
    (e.stage = .decay →
      let l := level p.sustain p.decay
      envTick e p dt = if F64.le (F64.abs (F64.sub l p.sustain)) eps || F64.le p.decay t then ⟨.sustain, l, l, F64.zero⟩
        else ⟨.decay, l, e.entry, t⟩) ∧
    (e.stage = .sustain → envTick e p dt = ⟨.sustain, level p.sustain p.decay, e.entry, t⟩) ∧
    (e.stage = .release →
      let l := level F64.zero p.release
      envTick e p dt = if F64.le l eps || F64.le p.release t then ⟨.idle, F64.zero, F64.zero, F64.zero⟩
        else ⟨.release, l, e.entry, t⟩)

/-- R184, R52: a tick keeps an envelope's level, entry and time in their ranges and Idle pinned at 0, whatever `EXP` is. -/
def Obligations.EnvelopeTickStaysInRange : Prop :=
  ∀ (e : Envelope) (p : Adsr) (fs : F64), e.Ok →
    within (lit 1 1000) (lit 60) p.attack = true → within (lit 1 1000) (lit 60) p.decay = true →
    inUnit p.sustain = true → within (lit 1 1000) (lit 60) p.release = true → F64.le (lit 80) fs = true →
    (envTick e p (F64.div F64.one fs)).Ok

/-- R185, R188, R190: the stages a tick goes through, one transition at most, and the level jumps only where Release ends in
Idle, which the epsilon test or the elapsed test has allowed. -/
def Obligations.EnvelopeTickTransitions : Prop :=
  ∀ (e : Envelope) (p : Adsr) (dt : F64),
    let moved := envMove e p dt
    let u := envTick e p dt
    (e.stage = .idle → u.stage = .idle) ∧
    (e.stage = .attack → (u.stage = .attack ∨ u.stage = .decay) ∧ u.level = moved.level) ∧
    (e.stage = .decay → (u.stage = .decay ∨ u.stage = .sustain) ∧ u.level = moved.level) ∧
    (e.stage = .sustain → u.stage = .sustain ∧ u.level = moved.level) ∧
    (e.stage = .release → (u.stage = .release ∧ u.level = moved.level) ∨
      (u.stage = .idle ∧ u.level = F64.zero ∧ u.entry = F64.zero ∧ u.t = F64.zero ∧
        (F64.le moved.level (lit 1 1000) = true ∨ F64.le p.release moved.t = true)))

/-- R189: a second note-off changes nothing, whatever ticks come between, at any parameters and tick lengths. -/
def Obligations.NoteOffIsIdempotent : Prop :=
  ∀ (e : Envelope) (ticks : List (Adsr × F64)),
    let later := ticks.foldl (fun e t => envTick e t.1 t.2) (envNoteOff e)
    envNoteOff (envNoteOff e) = envNoteOff e ∧ envNoteOff later = later

/-! ## 43_filter.md -/

/-- R211, R235: the clamped cutoff lies in [20, fs/4], an interval that is never empty, and the cutoff that the filter uses in a
tick does so in every state that meets the invariants, whatever the LFO and the envelope are at. -/
def Obligations.CutoffStaysInRange : Prop :=
  ∀ fs : F64, F64.le (lit 80) fs = true →
    (∀ c : F64, c.isNaN = false →
      F64.le (lit 20) (cutoffClamp c fs) = true ∧ F64.le (cutoffClamp c fs) (F64.div fs (lit 4)) = true) ∧
    ∀ s : State, s.Inv →
      F64.le (lit 20) (modCutoff s.live s.fenv.level (lfoValue s.live s.voice) fs) = true ∧
      F64.le (modCutoff s.live s.fenv.level (lfoValue s.live s.voice) fs) (F64.div fs (lit 4)) = true

/-- R213: the damping of a resonance in [0, 30] is in [1/30, 2]. -/
def Obligations.DampingRange : Prop :=
  ∀ live : Live, live.inRange .resonance = true →
    F64.le (F64.div (lit 1) (lit 30)) (qCoef live) = true ∧ F64.le (qCoef live) (lit 2) = true

/-- R211–R214: one step of the filter, coefficients, integrators and the three outputs. -/
def Obligations.FilterStepIsThatOfTheSpec : Prop :=
  ∀ (live : Live) (v : Voice) (x c fs : F64),
    let f := F64.mul (lit 2) (sin (F64.div (F64.mul ⟨0x400921FB54442D18⟩ c) fs))
    let q := F64.div (lit 1) (if F64.lt (lit 1 2) live.resonance then live.resonance else lit 1 2)
    let b1 := F64.add v.fltB (F64.mul f (F64.sub (F64.sub x v.fltL) (F64.mul q v.fltB)))
    let l1 := F64.add v.fltL (F64.mul f b1)
    (svfStep live v x c fs).2 = { v with fltB := b1, fltL := l1 } ∧
    (svfStep live v x c fs).1 = (match live.filterType with
      | .lowpass => l1
      | .bandpass => b1
      | .highpass => F64.sub (F64.sub x l1) (F64.mul q b1)) ∧
    cutoffClamp c fs = (if F64.lt c (lit 20) then lit 20
      else if F64.lt (F64.div fs (lit 4)) c then F64.div fs (lit 4) else c)

/-! ## 44_voice.md -/

/-- R237: `RENDER_ONE` with no voice returns +0.0, changes no voice or envelope state, writes `LAST_SAMPLE` and counts;
`RENDER_SAMPLE` does this. -/
def Obligations.RenderingWithoutAVoiceIsSilent : Prop :=
  ∀ (s : State), s.voice.vstate = .idle →
    (∀ fs, (renderOne fs s).1 = ⟨0⟩) ∧
    ∀ srate, exec (.renderSample srate) s = .next { s with lastSample := ⟨0⟩, sampleCount := s.sampleCount + 1 }

/-- R238: from Releasing a rendered sample ends the voice exactly when it takes `aenv` to Idle, and Sounding it never ends. -/
def Obligations.VoiceEndsWithItsRelease : Prop :=
  ∀ (fs : F64) (s : State),
    (s.voice.vstate = .releasing →
      ((renderOne fs s).2.voice.vstate = .idle ↔ (envTick s.aenv s.live.amp (F64.div F64.one fs)).stage = .idle) ∧
      ((renderOne fs s).2.voice.vstate ≠ .idle → (renderOne fs s).2.voice.vstate = .releasing)) ∧
    (s.voice.vstate = .sounding → (renderOne fs s).2.voice.vstate = .sounding)

/-- R241: the only changes of `VSTATE`. -/
def Obligations.VoiceStateTable : Prop :=
  ∀ s t : State, step s = .next t → t.voice.vstate ≠ s.voice.vstate →
    (t.voice.vstate = .sounding ∧ ((∃ n o, runs s (.noteOn n o)) ∨ runs s .noteOnHz)) ∨
    (s.voice.vstate = .sounding ∧ t.voice.vstate = .releasing ∧ runs s .noteOff) ∨
    (s.voice.vstate = .releasing ∧ t.voice.vstate = .idle ∧
      ((∃ r, runs s (.renderSample r)) ∨ ∃ f r, runs s (.renderBlock f r))) ∨
    (t.voice.vstate = .idle ∧ runs s .hardStop) ∨ (t.voice.vstate = .idle ∧ takes s .reset)

/-! ## 45_commands.md -/

/-- R260: the core step on the latched word: `BADCMD` if it is no command, else the command's own effect; the slot is empty
after it and the countdown is at 0. -/
def Obligations.StepRunsTheLatchedCommand : Prop :=
  ∀ (s : State) (w : Word), coreMoves s w →
    (∀ e, decode w = .error e → step s = .next { s with err := s.err ||| 0b010, slot := none, wait := 0 }) ∧
    ∀ i, decode w = .ok i → ∃ t, exec i s = .next t ∧ step s = .next { t with slot := none, wait := 0 }

/-- R313, R260: a latched command is kept, and its core step comes after a finite number of host steps, no more than the
countdown shows, and empties the slot, as long as the host keeps the contract of R70 and the block is not reset. The countdown
is the model's (log entry 5). -/
def Obligations.LatchedCommandCompletes : Prop :=
  ∀ (s : State) (w : Word), s.slot = some w → (∀ i ∈ s.inputs, i.inContract = true ∧ i ≠ .reset) →
    ∃ k u t, k ≤ s.wait ∧ core.run k s = .next u ∧ coreMoves u w ∧ step u = .next t ∧ t.slot = none ∧
      ∀ j v, j ≤ k → core.run j s = .next v → v.slot = some w

/-- R260, R280: a step ends in a next state, or it is refused for an access outside the contract of 20_memory.md R70. -/
def Obligations.OnlyABadAccessStopsTheMachine : Prop :=
  ∀ s : State, completes (step s) ∨
    ∃ a n, ((∃ v, takes s (.write a n v)) ∨ takes s (.read a n)) ∧ ¬ aligned a n ∧
      step s = .refused (.accessOutsideContract a n)

/-- R268: `NOP` does nothing. -/
def Obligations.NopDoesNothing : Prop := ∀ s : State, exec .nop s = .next s

/-- R261, R231, R141: `NOTE_ON` from Idle starts a fresh voice at the key's frequency and changes nothing else. -/
def Obligations.NoteOnStartsAFreshVoice : Prop :=
  ∀ (note octave : Nat) (s : State), s.voice.vstate = .idle →
    exec (.noteOn note octave) s = .next { s with
      voice := ⟨.sounding, keyHz note octave, F64.zero, F64.zero, F64.zero, F64.zero, F64.zero, F64.zero⟩
      aenv := ⟨.attack, F64.zero, F64.zero, F64.zero⟩
      fenv := ⟨.attack, F64.zero, F64.zero, F64.zero⟩ }

/-- R261, R232, R240: `NOTE_ON` while a voice exists retunes it, keeps its phases, integrators and held value, and restarts
both attacks from their levels. -/
def Obligations.NoteOnRetriggersTheVoice : Prop :=
  ∀ (note octave : Nat) (s : State), s.voice.vstate ≠ .idle →
    exec (.noteOn note octave) s = .next { s with
      voice := { s.voice with freq := keyHz note octave, vstate := .sounding }
      aenv := ⟨.attack, s.aenv.level, s.aenv.level, F64.zero⟩
      fenv := ⟨.attack, s.fenv.level, s.fenv.level, F64.zero⟩ }

/-- R262: `NOTE_ON_HZ` takes `FREQ_ARG`, 0.0 for a NaN, clamped to [0, 20000]. -/
def Obligations.NoteOnHzTakesTheFrequencyArgument : Prop :=
  ∀ s : State,
    let v : F64 := ⟨s.freqArg⟩
    let f := if F64.eq v v = false then F64.zero else if F64.lt v F64.zero then F64.zero
      else if F64.lt (lit 20000) v then lit 20000 else v
    exec .noteOnHz s = .next (noteOn f s)

/-- R263, R233: `NOTE_OFF` releases the voice, and does nothing without one. -/
def Obligations.NoteOffReleasesTheVoice : Prop :=
  ∀ s : State, exec .noteOff s = .next (if s.voice.vstate = .idle then s else
    { s with voice := { s.voice with vstate := .releasing }, aenv := released s.aenv, fenv := released s.fenv })

/-- R264, R36, R110: `SET_PARAMS` makes every live parameter the sanitised shadow register (an enumeration the waveform or
type that its code selects), raises `BADENUM` if a register holds a reserved code, and changes nothing else. -/
def Obligations.SetParamsCommitsTheShadowBank : Prop :=
  ∀ s : State, ∃ t, exec .setParams s = .next t ∧ t = { s with live := t.live, err := t.err } ∧
    holds t.live (fun p => sanitized p s.shadow[p.index]) ∧
    (∀ p, t.live.word p = sanitized p s.shadow[p.index]) ∧
    ((∃ p, reservedCode p s.shadow[p.index]) → t.err = s.err ||| 0b001) ∧
    ((¬ ∃ p, reservedCode p s.shadow[p.index]) → t.err = s.err)

/-- R265, R234–R236: `RENDER_SAMPLE` of a voice that exists: the whole tick, and nothing else. -/
def Obligations.RenderSampleOfAVoice : Prop :=
  ∀ (srate : Nat) (s : State), s.voice.vstate ≠ .idle →
    let fs := F64.ofNat (max srate 80)
    let dt := F64.div (lit 1) fs
    let o := oscStep s.live s.voice fs
    let b := subStep o.2 fs
    let noisy := F64.eq s.live.noiseLevel F64.zero = false
    let n := if noisy then draw s.draws else F64.zero
    let x := F64.add (F64.add o.1 (F64.mul s.live.subLevel b.1)) (F64.mul s.live.noiseLevel n)
    let l := lfoStep s.live b.2 fs (if noisy then s.draws + 1 else s.draws)
    let c := cutoffClamp (F64.add (F64.add s.live.cutoff (F64.mul s.live.fenvAmount s.fenv.level))
      (F64.mul (F64.mul s.live.lfoDepth (lit 1000)) l.1)) fs
    let y := svfStep s.live l.2.1 x c fs
    let a := envTick s.aenv ⟨s.live.aenvAttack, s.live.aenvDecay, s.live.aenvSustain, s.live.aenvRelease⟩ dt
    let e := envTick s.fenv ⟨s.live.fenvAttack, s.live.fenvDecay, s.live.fenvSustain, s.live.fenvRelease⟩ dt
    exec (.renderSample srate) s = .next { s with
      voice := { y.2 with vstate := if s.voice.vstate = .releasing ∧ a.stage = .idle then .idle else s.voice.vstate }
      aenv := a
      fenv := e
      draws := l.2.2
      lastSample := F64.mul (F64.mul y.1 s.aenv.level) s.live.masterVolume
      sampleCount := s.sampleCount + 1 }

/-- R266: `RENDER_BLOCK` is `n` rendered samples one after another, `n` at most 2048: the state but for `OUTBUF` is theirs,
`OUTBUF[i]` holds the i-th for every `i` below `n`, and every byte outside those elements reads as before. -/
def Obligations.RenderBlockFillsOutbuf : Prop :=
  ∀ (frames srate : Nat) (s : State), s.outbuf.wf = true →
    let n := min frames 2048
    let fs := F64.ofNat (max srate 80)
    ∃ t, exec (.renderBlock frames srate) s = .next t ∧
      { t with outbuf := s.outbuf } = afterSamples fs s n ∧
      (∀ i, i < n → outbufGet t i = (renderOne fs (afterSamples fs s i)).1) ∧
      ∀ a, a < 0x1000 ∨ 0x1000 + 8 * n ≤ a → t.outbuf.readByte a = s.outbuf.readByte a

/-- R265, R266, R236, R84: what rendering leaves alone: the flags, the slot, `FREQ_ARG`, both parameter banks, the voice
frequency and what is outside the block, and with `RENDER_SAMPLE` every byte of `OUTBUF`. -/
def Obligations.RenderCommandsFrame : Prop :=
  ∀ (s t : State) (frames srate : Nat),
    exec (.renderSample srate) s = .next t ∨ exec (.renderBlock frames srate) s = .next t →
    t.err = s.err ∧ t.slot = s.slot ∧ t.freqArg = s.freqArg ∧ t.shadow = s.shadow ∧ t.live = s.live ∧
    t.voice.freq = s.voice.freq ∧ t.inputs = s.inputs ∧ t.observed = s.observed ∧ t.wait = s.wait ∧
    t.latches = s.latches ∧ t.busyReads = s.busyReads ∧
    (exec (.renderSample srate) s = .next t → ∀ a, t.outbuf.readByte a = s.outbuf.readByte a)

/-- R267: `HARD_STOP` silences at once and keeps the oscillator, LFO and filter fields. -/
def Obligations.HardStopSilencesAtOnce : Prop :=
  ∀ s : State, exec .hardStop s = .next { s with
    voice := { s.voice with vstate := .idle }
    aenv := ⟨.idle, F64.zero, F64.zero, F64.zero⟩
    fenv := ⟨.idle, F64.zero, F64.zero, F64.zero⟩
    lastSample := F64.zero }

/-! ## 70_reset_and_hazards.md -/

/-- R300: the reset input gives every piece of the block's state its reset value and discards a latched command. What is
outside the block and the counters of the free values stay (log entry 4). -/
def Obligations.ResetRestoresTheBlock : Prop :=
  ∀ (s : State) (rest : List Input), s.inputs = .reset :: rest → hostMoves s →
    ∃ t, step s = .next t ∧ t.err = 0 ∧ t.slot = none ∧ t.freqArg = 0 ∧ t.lastSample = F64.zero ∧ t.sampleCount = 0 ∧
      regValue t .id = 0x5348313031434F52 ∧ regValue t .status = 0 ∧
      (∀ p : Param, t.shadow[p.index] =
        (match p.row with | .enum _ default _ => BitVec.ofNat 64 default | .f64 _ _ default => default.bits) ∧
        t.live.word p = t.shadow[p.index]) ∧
      holds t.live (fun p => t.shadow[p.index]) ∧
      t.voice = ⟨.idle, F64.zero, F64.zero, F64.zero, F64.zero, F64.zero, F64.zero, F64.zero⟩ ∧
      t.aenv = ⟨.idle, F64.zero, F64.zero, F64.zero⟩ ∧ t.fenv = ⟨.idle, F64.zero, F64.zero, F64.zero⟩ ∧
      (∀ i, outbufGet t i = F64.zero) ∧
      t.inputs = rest ∧ t.wait = 0 ∧ t.observed = s.observed ∧ t.draws = s.draws ∧ t.latches = s.latches ∧ t.busyReads = s.busyReads

/-- R312: while a command is latched the reads of `ID`, `ERR`, `FREQ_ARG` and the shadow bank are exact, and so are `BUSY` and
`ERR_ANY` of `STATUS`, whatever the free values of the other reads are. That `CMD` and reserved offsets read 0 then too is no
part of R312: it is the model's reading of R37 and R51 (log entry 6, DEDUCED). -/
def Obligations.ReadsThatStayExactWhileBusy : Prop :=
  ∀ s : State, s.slot.isSome = true →
    readValue s .id = 0x5348313031434F52 ∧ readValue s .err = s.err.setWidth 64 ∧ readValue s .cmd = 0 ∧
    readValue s .freqArg = s.freqArg ∧ (∀ p, readValue s (.param p) = s.shadow[p.index]) ∧ readValue s .reserved = 0 ∧
    (readValue s .status).getLsbD 8 = true ∧ (readValue s .status).getLsbD 9 = decide (s.err ≠ 0)

/-- R315: a shadow write changes nothing that any command but `SET_PARAMS` does: the command gives the same state, but for
the register written. -/
def Obligations.ShadowWritesAreInaudibleBeforeSetParams : Prop :=
  ∀ (p : Param) (v : Word) (s t : State) (i : Instr), i ≠ .setParams → exec i s = .next t →
    exec i { s with shadow := s.shadow.set p.index v } = .next { t with shadow := t.shadow.set p.index v }
end

