-- ==== Sys2Proof/Laws/Decode.lean ====
section
/-! SUPPORT. The decoder on numbers: which row an opcode selects, and what the masks of the opcode map (30_encoding.md R108)
keep of a word. -/

namespace Sys2Proof

/-- The row that the opcode selects decides: its operands where the masked word matches, `reservedBits` where it does not. -/
theorem decode_of_row {w : Word} {row : OpRow} (h : opcodeMap.find? (fun r => r.opcode == w.toNat % 2 ^ 8) = some row) :
    decode w = if w &&& row.mask = row.mtch then .ok (row.op.withOperands w) else .error (.reservedBits row.op) := by
  have ho : opcodeOf w = w.toNat % 2 ^ 8 := by simp [opcodeOf, bitField]
  unfold decode
  rw [ho, h]

/-- Opcodes 0 to 7 have a row, and no other has one (R108, R109). -/
theorem opcodeMap_find (n : Nat) :
    (∃ row ∈ opcodeMap, row.opcode = n ∧ opcodeMap.find? (fun r => r.opcode == n) = some row) ∨
    (8 ≤ n ∧ opcodeMap.find? (fun r => r.opcode == n) = none) := by
  by_cases h : n < 8
  · left
    rcases (show n = 0 ∨ n = 1 ∨ n = 2 ∨ n = 3 ∨ n = 4 ∨ n = 5 ∨ n = 6 ∨ n = 7 by omega) with
      rfl | rfl | rfl | rfl | rfl | rfl | rfl | rfl
    all_goals simp [opcodeMap]
  · right
    refine ⟨by omega, ?_⟩
    simp [opcodeMap]; omega

/-- Format Z keeps every bit (R102). -/
theorem and_maskZ (w : Word) : w &&& 0xFFFFFFFFFFFFFFFF = w := by
  rw [show (0xFFFFFFFFFFFFFFFF : Word) = BitVec.allOnes 64 from rfl, BitVec.and_allOnes]

/-- Format S keeps bits [31:0] (R104). -/
theorem toNat_and_maskS (w : Word) : (w &&& 0x00000000FFFFFFFF).toNat = w.toNat % 2 ^ 32 := by
  rw [BitVec.toNat_and]; exact Nat.and_two_pow_sub_one_eq_mod w.toNat 32

/-- Format R keeps bits [7:0] (R105). -/
theorem toNat_and_maskR (w : Word) : (w &&& 0x00000000000000FF).toNat = w.toNat % 2 ^ 8 := by
  rw [BitVec.toNat_and]; exact Nat.and_two_pow_sub_one_eq_mod w.toNat 8

/-- Format K keeps bits [7:0] and [63:24] (R103). -/
theorem and_maskK_iff (w : Word) : w &&& 0xFFFFFFFFFF0000FF = 0x01 ↔ w.toNat % 2 ^ 8 = 1 ∧ w.toNat / 2 ^ 24 = 0 := by
  constructor
  · intro h
    constructor
    · have h1 : w &&& 0xFFFFFFFFFF0000FF &&& 0xFF = w &&& 0xFF := by rw [BitVec.and_assoc]; rfl
      rw [h] at h1
      rw [← toNat_and_maskR, ← h1]; rfl
    · have h1 : (w &&& 0xFFFFFFFFFF0000FF) >>> 24 = w >>> 24 &&& 0x000000FFFFFFFFFF := by
        rw [BitVec.ushiftRight_and_distrib]; rfl
      rw [h] at h1
      have h2 := congrArg BitVec.toNat h1
      rw [BitVec.toNat_and, BitVec.toNat_ushiftRight w, Nat.shiftRight_eq_div_pow] at h2
      have h3 : w.toNat / 2 ^ 24 &&& (0x000000FFFFFFFFFF : Word).toNat = w.toNat / 2 ^ 24 % 2 ^ 40 :=
        Nat.and_two_pow_sub_one_eq_mod _ 40
      rw [h3] at h2
      have h4 : ((0x01 : Word) >>> 24).toNat = 0 := rfl
      have := w.isLt
      omega
  · rintro ⟨h1, h2⟩
    apply BitVec.eq_of_toNat_eq
    rw [BitVec.toNat_and]
    have h3 : w.toNat &&& (0xFFFFFFFFFF0000FF : Word).toNat < 2 ^ 24 := lt_of_le_of_lt Nat.and_le_left (by omega)
    rw [← Nat.mod_eq_of_lt h3, Nat.and_mod_two_pow, Nat.mod_eq_of_lt (show w.toNat < 2 ^ 24 by omega)]
    rw [show (0xFFFFFFFFFF0000FF : Word).toNat % 2 ^ 24 = 2 ^ 8 - 1 from rfl, Nat.and_two_pow_sub_one_eq_mod, h1]
    rfl

/-- The decoder, arithmetically: one row by the low byte of the word, and its check on the bits above. -/
theorem decode_cases (w : Word) : 
    (w.toNat % 2^8 = 0 ∧ decode w = if w.toNat = 0 then .ok .nop else .error (.reservedBits .nop)) ∨
    (w.toNat % 2^8 = 1 ∧ decode w = if w.toNat / 2^24 = 0 then .ok (.noteOn (bitField w 15 8) (bitField w 23 16)) else .error (.reservedBits .noteOn)) ∨
    (w.toNat % 2^8 = 2 ∧ decode w = if w.toNat = 2 then .ok .noteOnHz else .error (.reservedBits .noteOnHz)) ∨
    (w.toNat % 2^8 = 3 ∧ decode w = if w.toNat = 3 then .ok .noteOff else .error (.reservedBits .noteOff)) ∨
    (w.toNat % 2^8 = 4 ∧ decode w = if w.toNat = 4 then .ok .setParams else .error (.reservedBits .setParams)) ∨
    (w.toNat % 2^8 = 5 ∧ decode w = if w.toNat % 2^32 = 5 then .ok (.renderSample (bitField w 63 32)) else .error (.reservedBits .renderSample)) ∨
    (w.toNat % 2^8 = 6 ∧ decode w = .ok (.renderBlock (bitField w 31 8) (bitField w 63 32))) ∨
    (w.toNat % 2^8 = 7 ∧ decode w = if w.toNat = 7 then .ok .hardStop else .error (.reservedBits .hardStop)) ∨
    (8 ≤ w.toNat % 2^8 ∧ decode w = .error (.reservedOpcode (opcodeOf w))) := by
  have z : ∀ v : Word, (w = v) = (w.toNat = v.toNat) := fun v => propext ⟨fun h => by rw [h], BitVec.eq_of_toNat_eq⟩
  rcases opcodeMap_find (w.toNat % 2^8) with ⟨row, hm, ho, hf⟩ | ⟨h8, hf⟩
  · have hd := decode_of_row hf
    simp only [opcodeMap, List.mem_cons, List.not_mem_nil, or_false] at hm
    rcases hm with rfl | rfl | rfl | rfl | rfl | rfl | rfl | rfl <;> simp only at ho hd
    · refine .inl ⟨ho.symm, ?_⟩
      rw [hd, and_maskZ]; exact if_congr (iff_of_eq (z _)) rfl rfl
    · refine .inr (.inl ⟨ho.symm, ?_⟩)
      rw [hd]
      have : (w &&& 18446744073692774655#64 = 1#64) = (w.toNat / 2^24 = 0) := propext ⟨fun h => ((and_maskK_iff w).1 h).2, fun h => (and_maskK_iff w).2 ⟨ho.symm, h⟩⟩
      exact if_congr (iff_of_eq this) rfl rfl
    · refine .inr (.inr (.inl ⟨ho.symm, ?_⟩))
      rw [hd, and_maskZ]; exact if_congr (iff_of_eq (z _)) rfl rfl
    · refine .inr (.inr (.inr (.inl ⟨ho.symm, ?_⟩)))
      rw [hd, and_maskZ]; exact if_congr (iff_of_eq (z _)) rfl rfl
    · refine .inr (.inr (.inr (.inr (.inl ⟨ho.symm, ?_⟩))))
      rw [hd, and_maskZ]; exact if_congr (iff_of_eq (z _)) rfl rfl
    · refine .inr (.inr (.inr (.inr (.inr (.inl ⟨ho.symm, ?_⟩)))))
      rw [hd]
      have : (w &&& 0x00000000FFFFFFFF = (5 : Word)) = (w.toNat % 2^32 = 5) := by
        rw [← toNat_and_maskS]; exact propext ⟨fun h => by rw [h]; rfl, fun h => BitVec.eq_of_toNat_eq h⟩
      exact if_congr (iff_of_eq this) rfl rfl
    · refine .inr (.inr (.inr (.inr (.inr (.inr (.inl ⟨ho.symm, ?_⟩))))))
      rw [hd]
      have : (w &&& 0x00000000000000FF = (6 : Word)) := BitVec.eq_of_toNat_eq (by rw [toNat_and_maskR, ← ho]; rfl)
      exact if_pos this
    · refine .inr (.inr (.inr (.inr (.inr (.inr (.inr (.inl ⟨ho.symm, ?_⟩)))))))
      rw [hd, and_maskZ]; exact if_congr (iff_of_eq (z _)) rfl rfl
  · refine .inr (.inr (.inr (.inr (.inr (.inr (.inr (.inr ⟨h8, ?_⟩)))))))
    have ho : opcodeOf w = w.toNat % 2 ^ 8 := by simp [opcodeOf, bitField]
    unfold decode; rw [ho, hf]

end Sys2Proof
end

