-- ==== Sys2Proof/Laws/Float.lean ====
section
/-! SUPPORT. Binary64: what the parts of a pattern are, that rounding is monotone and keeps numbers that need none, and from
these one lemma per operation, which bounds its result by any number that bounds the exact one. -/

namespace Sys2Proof.F64

/-! ## Patterns -/

theorem low_lt (a : F64) : a.low < 2 ^ 63 := Nat.mod_lt _ (by norm_num)

theorem low_ofParts (n : Bool) {e : Nat} (h : e < 2 ^ 63) : (ofParts n e).low = e := by
  cases n <;> simp [ofParts, low] <;> omega

theorem sign_ofParts (n : Bool) {e : Nat} (h : e < 2 ^ 63) : (ofParts n e).sign = n := by
  cases n <;> simp [ofParts, sign] <;> omega

/-- A pattern is its sign and its low bits. -/
theorem ofParts_sign_low (a : F64) : ofParts a.sign a.low = a := by
  obtain ⟨b⟩ := a
  have hb := b.isLt
  simp only [ofParts, sign, low, F64.mk.injEq]
  apply BitVec.eq_of_toNat_eq
  simp only [BitVec.toNat_ofNat]
  by_cases h : 2 ^ 63 ≤ b.toNat
  · simp only [h, decide_true, if_true]; omega
  · simp only [h, decide_false, Bool.false_eq_true, if_false]; omega

theorem ext_parts {a b : F64} (hs : a.sign = b.sign) (hl : a.low = b.low) : a = b := by
  rw [← ofParts_sign_low a, ← ofParts_sign_low b, hs, hl]

theorem isNaN_eq_false {a : F64} : a.isNaN = false ↔ a.low ≤ 2047 * 2 ^ 52 := by simp [isNaN]

theorem isFinite_iff {a : F64} : a.isFinite = true ↔ a.low < 2047 * 2 ^ 52 := by simp [isFinite]

theorem isNaN_of_isFinite {a : F64} (h : a.isFinite = true) : a.isNaN = false := by
  rw [isNaN_eq_false]; exact (isFinite_iff.1 h).le

theorem isInf_of_isFinite {a : F64} (h : a.isFinite = true) : a.isInf = false := by
  have := isFinite_iff.1 h
  simp only [isInf, decide_eq_false_iff_not]; omega

theorem isInf_of_not_finite {a : F64} (hn : a.isNaN = false) (hf : a.isFinite = false) : a.isInf = true := by
  rw [isNaN_eq_false] at hn
  simp only [isFinite, decide_eq_false_iff_not] at hf
  simp only [isInf, decide_eq_true_eq]; omega

@[simp] theorem low_neg (a : F64) : (neg a).low = a.low := low_ofParts _ a.low_lt

@[simp] theorem sign_neg (a : F64) : (neg a).sign = !a.sign := sign_ofParts _ a.low_lt

@[simp] theorem isNaN_neg (a : F64) : (neg a).isNaN = a.isNaN := by simp [isNaN]

@[simp] theorem isFinite_neg (a : F64) : (neg a).isFinite = a.isFinite := by simp [isFinite]

@[simp] theorem isInf_neg (a : F64) : (neg a).isInf = a.isInf := by simp [isInf]

@[simp] theorem mag_neg (a : F64) : (neg a).mag = a.mag := by simp [mag]

@[simp] theorem value_neg (a : F64) : (neg a).value = -a.value := by
  simp only [value, sign_neg, mag_neg]
  cases a.sign <;> simp

theorem neg_neg (a : F64) : neg (neg a) = a := ext_parts (by simp) (by simp)

/-! ## Units -/

theorem unitsOf_small {e : Nat} (h : e < 2 ^ 53) : unitsOf e = e := by
  unfold unitsOf
  split
  · rfl
  · have : e / 2 ^ 52 = 1 := by omega
    rw [this]; simp; omega

/-- The low bits written as a binade and a significand. -/
theorem unitsOf_binade (s : Nat) {m : Nat} (h1 : 2 ^ 52 ≤ m) (h2 : m ≤ 2 ^ 53) :
    unitsOf (s * 2 ^ 52 + m) = m * 2 ^ s := by
  unfold unitsOf
  rcases Nat.lt_or_ge m (2 ^ 53) with h | h
  · have h3 : (s * 2 ^ 52 + m) / 2 ^ 52 = s + 1 := by omega
    have h4 : (s * 2 ^ 52 + m) % 2 ^ 52 = m - 2 ^ 52 := by omega
    rw [h3, h4, if_neg (by omega), show 2 ^ 52 + (m - 2 ^ 52) = m by omega, Nat.add_sub_cancel]
  · have hm : m = 2 ^ 53 := by omega
    have h3 : (s * 2 ^ 52 + m) / 2 ^ 52 = s + 2 := by omega
    have h4 : (s * 2 ^ 52 + m) % 2 ^ 52 = 0 := by omega
    rw [h3, h4, if_neg (by omega), hm, show s + 2 - 1 = s + 1 by omega, pow_succ]; ring

/-- Every pattern is small or a binade with a significand. -/
theorem low_cases (e : Nat) : e < 2 ^ 53 ∨ ∃ s m, 1 ≤ s ∧ 2 ^ 52 ≤ m ∧ m < 2 ^ 53 ∧ e = s * 2 ^ 52 + m := by
  rcases Nat.lt_or_ge e (2 ^ 53) with h | h
  · exact .inl h
  · exact .inr ⟨e / 2 ^ 52 - 1, 2 ^ 52 + e % 2 ^ 52, by omega, by omega, by omega, by omega⟩

/-! ## Rounding -/

theorem nearestEven_le {num den k : Nat} (hd : 0 < den) (h : num ≤ den * k) : nearestEven num den ≤ k := by
  have h1 := Nat.div_add_mod num den
  have h2 := Nat.mod_lt num hd
  have h3 : num / den ≤ k := Nat.div_le_of_le_mul h
  unfold nearestEven
  rcases Nat.lt_or_ge (num / den) k with h4 | h4
  · split
    · omega
    · split <;> omega
  · have h5 : num / den = k := by omega
    rw [h5] at h1 ⊢
    have h6 : num % den = 0 := by omega
    rw [h6, if_pos (by omega)]

theorem le_nearestEven {num den k : Nat} (hd : 0 < den) (h : den * k ≤ num) : k ≤ nearestEven num den := by
  have h3 : k ≤ num / den := (Nat.le_div_iff_mul_le hd).2 (by rwa [Nat.mul_comm])
  unfold nearestEven
  split
  · exact h3
  · split <;> omega

theorem log2_le {q k : Nat} (h : q < 2 ^ (k + 1)) : Nat.log2 q ≤ k := by
  rcases Nat.eq_zero_or_pos q with h0 | h0
  · simp [h0]
  · have := (Nat.log2_lt (by omega : q ≠ 0)).2 h; omega

theorem le_log2 {q k : Nat} (h : 2 ^ k ≤ q) : k ≤ Nat.log2 q := by
  have : q ≠ 0 := by have := Nat.two_pow_pos k; omega
  exact (Nat.le_log2 this).2 h

theorem roundLow_le_inf (num den : Nat) : roundLow num den ≤ 2047 * 2 ^ 52 := Nat.min_le_right _ _

theorem roundLow_lt (num den : Nat) : roundLow num den < 2 ^ 63 :=
  lt_of_le_of_lt (roundLow_le_inf num den) (by norm_num)

/-- Rounding does not go above a number that is not below the exact value. -/
theorem roundLow_le {num den e : Nat} (hd : 0 < den) (h : num ≤ den * unitsOf e) : roundLow num den ≤ e := by
  have hq : num / den ≤ unitsOf e := Nat.div_le_of_le_mul h
  have hnum : num < den * (num / den + 1) := by
    have h1 := Nat.div_add_mod num den
    have h2 := Nat.mod_lt num hd
    rw [Nat.mul_add]; omega
  unfold roundLow
  refine le_trans (Nat.min_le_left _ _) ?_
  rcases low_cases e with he | ⟨s, m, hs, hm1, hm2, rfl⟩
  · rw [unitsOf_small he] at h hq
    have h0 : Nat.log2 (num / den) ≤ 52 := log2_le (lt_of_le_of_lt hq he)
    have h1 : Nat.log2 (num / den) - 52 = 0 := by omega
    rw [h1]
    simpa using nearestEven_le hd h
  · rw [unitsOf_binade s hm1 hm2.le] at h hq
    have h0 : Nat.log2 (num / den) ≤ 52 + s := by
      apply log2_le
      calc num / den ≤ m * 2 ^ s := hq
        _ < 2 ^ 53 * 2 ^ s := Nat.mul_lt_mul_of_pos_right hm2 (Nat.two_pow_pos s)
        _ = 2 ^ (52 + s + 1) := by rw [← pow_add]; congr 1; omega
    generalize ht : Nat.log2 (num / den) - 52 = t
    have hts : t ≤ s := by omega
    have hdt : 0 < den * 2 ^ t := Nat.mul_pos hd (Nat.two_pow_pos t)
    rcases Nat.lt_or_ge t s with hlt | hge
    · have h2 : num / den < 2 ^ (t + 53) := by
        rcases Nat.eq_zero_or_pos (num / den) with hz | hz
        · rw [hz]; exact Nat.two_pow_pos _
        · exact (Nat.log2_lt (by omega)).1 (by omega)
      have h3 : nearestEven num (den * 2 ^ t) ≤ 2 ^ 53 := by
        apply nearestEven_le hdt
        calc num ≤ den * (num / den + 1) := hnum.le
          _ ≤ den * 2 ^ (t + 53) := Nat.mul_le_mul_left _ h2
          _ = den * 2 ^ t * 2 ^ 53 := by rw [pow_add]; ring
      omega
    · have hts' : t = s := by omega
      rw [hts'] at hdt ⊢
      have h3 : nearestEven num (den * 2 ^ s) ≤ m := by
        apply nearestEven_le hdt
        calc num ≤ den * (m * 2 ^ s) := h
          _ = den * 2 ^ s * m := by ring
      omega

/-- Rounding does not go below a number that is not above the exact value. -/
theorem le_roundLow {num den e : Nat} (hd : 0 < den) (hi : e ≤ 2047 * 2 ^ 52) (h : den * unitsOf e ≤ num) :
    e ≤ roundLow num den := by
  have hq : unitsOf e ≤ num / den := (Nat.le_div_iff_mul_le hd).2 (by rwa [Nat.mul_comm])
  have hnum : den * (num / den) ≤ num := Nat.mul_div_le num den
  unfold roundLow
  refine Nat.le_min.2 ⟨?_, hi⟩
  generalize ht : Nat.log2 (num / den) - 52 = t
  have hdt : 0 < den * 2 ^ t := Nat.mul_pos hd (Nat.two_pow_pos t)
  have hbig : 1 ≤ t → 2 ^ 52 ≤ nearestEven num (den * 2 ^ t) := by
    intro h1
    apply le_nearestEven hdt
    have h2 : num / den ≠ 0 := by
      intro hz; rw [hz] at ht; simp at ht; omega
    have h3 : 2 ^ (t + 52) ≤ num / den := (Nat.le_log2 h2).1 (by omega)
    calc den * 2 ^ t * 2 ^ 52 = den * 2 ^ (t + 52) := by rw [pow_add]; ring
      _ ≤ den * (num / den) := Nat.mul_le_mul_left _ h3
      _ ≤ num := hnum
  rcases low_cases e with he | ⟨s, m, hs, hm1, hm2, rfl⟩
  · rw [unitsOf_small he] at h
    rcases Nat.eq_zero_or_pos t with h0 | h0
    · rw [h0] at hdt ⊢
      have := le_nearestEven (k := e) hdt (by simpa using h)
      omega
    · have := hbig h0; omega
  · rw [unitsOf_binade s hm1 hm2.le] at h hq
    have h0 : 52 + s ≤ Nat.log2 (num / den) := by
      apply le_log2
      calc 2 ^ (52 + s) = 2 ^ 52 * 2 ^ s := by rw [pow_add]
        _ ≤ m * 2 ^ s := Nat.mul_le_mul_right _ hm1
        _ ≤ num / den := hq
    rcases Nat.lt_or_ge s t with hlt | hge
    · have := hbig (by omega); omega
    · have hts' : t = s := by omega
      rw [hts'] at hdt ⊢
      have h3 : m ≤ nearestEven num (den * 2 ^ s) := by
        apply le_nearestEven hdt
        calc den * 2 ^ s * m = den * (m * 2 ^ s) := by ring
          _ ≤ num := h
      omega

/-- A number that needs no rounding keeps its pattern. -/
theorem roundLow_exact {num den e : Nat} (hd : 0 < den) (hi : e ≤ 2047 * 2 ^ 52) (h : num = den * unitsOf e) :
    roundLow num den = e := le_antisymm (roundLow_le hd h.le) (le_roundLow hd hi h.ge)

theorem unitsOf_mono {e f : Nat} (h : e ≤ f) (hf : f ≤ 2047 * 2 ^ 52) : unitsOf e ≤ unitsOf f := by
  by_contra hc
  have h1 : roundLow (unitsOf e) 1 = e := roundLow_exact (by norm_num) (by omega) (by omega)
  have h2 : roundLow (unitsOf e) 1 ≥ f := le_roundLow (by norm_num) hf (by omega)
  have h3 : e = f := by omega
  rw [h3] at hc; omega

theorem unitsOf_lt {e f : Nat} (h : e < f) (hf : f ≤ 2047 * 2 ^ 52) : unitsOf e < unitsOf f := by
  rcases Nat.lt_or_ge (unitsOf e) (unitsOf f) with h1 | h1
  · exact h1
  · have h2 := unitsOf_mono h.le hf
    have h3 : roundLow (unitsOf e) 1 = e := roundLow_exact (by norm_num) (by omega) (by omega)
    have h4 : roundLow (unitsOf f) 1 = f := roundLow_exact (by norm_num) hf (by omega)
    have : unitsOf e = unitsOf f := by omega
    rw [this, h4] at h3; omega

theorem unitsOf_pos {e : Nat} (h : 0 < e) (hf : e ≤ 2047 * 2 ^ 52) : 0 < unitsOf e := by
  have := unitsOf_lt h hf
  rw [unitsOf_small (e := 0) (by norm_num)] at this
  exact this

/-- Every 53-bit multiple of a power of two in the range is a number. -/
theorem exists_unitsOf {m s : Nat} (hm : m ≤ 2 ^ 53) (hs : s ≤ 2045) :
    ∃ e, e ≤ 2047 * 2 ^ 52 ∧ unitsOf e = m * 2 ^ s := by
  induction s generalizing m with
  | zero =>
    rcases Nat.lt_or_ge m (2 ^ 53) with h | h
    · exact ⟨m, by omega, by rw [unitsOf_small h]; simp⟩
    · have hm' : m = 2 ^ 53 := by omega
      exact ⟨0 * 2 ^ 52 + 2 ^ 53, by omega, by rw [unitsOf_binade 0 (by omega) (by omega), hm']⟩
  | succ s ih =>
    rcases Nat.lt_or_ge m (2 ^ 52) with h | h
    · obtain ⟨e, h1, h2⟩ := ih (m := 2 * m) (by omega) (by omega)
      exact ⟨e, h1, by rw [h2, pow_succ]; ring⟩
    · exact ⟨(s + 1) * 2 ^ 52 + m, by omega, unitsOf_binade (s + 1) h hm⟩

/-! ## Values -/

theorem value_nonneg {a : F64} (h : a.sign = false) : 0 ≤ a.value := by simp [value, h]

theorem value_of_sign {a : F64} (h : a.sign = true) : a.value = -(a.mag : Int) := by simp [value, h]

theorem value_of_not_sign {a : F64} (h : a.sign = false) : a.value = (a.mag : Int) := by simp [value, h]

theorem natAbs_value (a : F64) : a.value.natAbs = a.mag := by unfold value; split <;> simp

@[simp] theorem low_round (n : Bool) (num den : Nat) : (round n num den).low = roundLow num den :=
  low_ofParts _ (roundLow_lt num den)

@[simp] theorem sign_round (n : Bool) (num den : Nat) : (round n num den).sign = n :=
  sign_ofParts _ (roundLow_lt num den)

@[simp] theorem isNaN_round (n : Bool) (num den : Nat) : (round n num den).isNaN = false := by
  rw [isNaN_eq_false, low_round]; exact roundLow_le_inf num den

theorem isNaN_nan (op : FloatOp) (a b : F64) : (nan op a b).isNaN = true := by
  have h : 2047 * 2 ^ 52 + 2 ^ 51 + (Config.nanBits op a b).toNat % 2 ^ 51 < 2 ^ 63 := by
    have := Nat.mod_lt (Config.nanBits op a b).toNat (y := 2 ^ 51) (by norm_num); omega
  simp only [nan, isNaN, low_ofParts _ h, decide_eq_true_eq]; omega

/-- The exact signed numerator that `round` is given. -/
def signedNum (n : Bool) (num : Nat) : Int := if n then -(num : Int) else (num : Int)

/-- A rounded result is not above a number that is not below the exact value. -/
theorem value_round_le {n : Bool} {num den : Nat} {c : F64} (hd : 0 < den) (hc : c.isNaN = false)
    (h : signedNum n num ≤ den * c.value) : (round n num den).value ≤ c.value := by
  rw [isNaN_eq_false] at hc
  cases n with
  | false =>
    simp only [signedNum, Bool.false_eq_true, if_false] at h
    rw [value_of_not_sign (sign_round _ _ _)]
    cases hs : c.sign with
    | false =>
      rw [value_of_not_sign hs] at h ⊢
      have h1 : num ≤ den * c.mag := by exact_mod_cast h
      have h2 := roundLow_le hd h1
      have h3 := unitsOf_mono h2 hc
      simp only [mag, low_round]; exact_mod_cast h3
    | true =>
      rw [value_of_sign hs] at h ⊢
      have h1 : num = 0 ∧ den * c.mag = 0 := by
        have : (num : Int) + den * c.mag ≤ 0 := by linarith
        have : num + den * c.mag ≤ 0 := by exact_mod_cast this
        omega
      have h2 : c.mag = 0 := by
        rcases Nat.mul_eq_zero.1 h1.2 with h2 | h2
        · omega
        · exact h2
      have h3 : roundLow num den ≤ 0 := roundLow_le hd (by omega)
      have h4 : unitsOf (roundLow num den) = 0 := by
        rw [Nat.le_zero.1 h3]; exact unitsOf_small (by norm_num)
      simp [mag, low_round, h4] at *
      simp [h2]
  | true =>
    simp only [signedNum, if_true] at h
    rw [value_of_sign (sign_round _ _ _)]
    cases hs : c.sign with
    | false =>
      rw [value_of_not_sign hs]
      have : (0 : Int) ≤ (round true num den).mag := by positivity
      have : (0 : Int) ≤ c.mag := by positivity
      linarith
    | true =>
      rw [value_of_sign hs] at h ⊢
      have h1 : den * c.mag ≤ num := by
        have : (den : Int) * c.mag ≤ num := by linarith
        exact_mod_cast this
      have h2 := unitsOf_mono (le_roundLow hd hc h1) (roundLow_le_inf num den)
      simp only [mag, low_round]
      have : (unitsOf c.low : Int) ≤ unitsOf (roundLow num den) := by exact_mod_cast h2
      linarith

/-- A rounded result is not below a number that is not above the exact value. -/
theorem le_value_round {n : Bool} {num den : Nat} {c : F64} (hd : 0 < den) (hc : c.isNaN = false)
    (h : den * c.value ≤ signedNum n num) : c.value ≤ (round n num den).value := by
  have h1 : signedNum (!n) num ≤ den * (neg c).value := by
    rw [value_neg]
    cases n <;> simp only [signedNum, Bool.not_true, Bool.not_false, if_true, Bool.false_eq_true, if_false] at h ⊢ <;> linarith
  have h2 := value_round_le (n := !n) (num := num) (c := neg c) hd (by simpa using hc) h1
  have h3 : (round (!n) num den).value = -(round n num den).value := by
    rw [show round (!n) num den = neg (round n num den) from ext_parts (by simp) (by simp)]
    exact value_neg _
  rw [h3, value_neg] at h2
  linarith

/-! ## Nearest, ties to even -/

/-- No integer is nearer to the quotient than the rounded one, and one equally near is beaten only by an even one. -/
theorem nearestEven_best (N D : Nat) (hD : 0 < D) (k : Int) :
    ((D : Int) * (nearestEven N D : Int) - N).natAbs ≤ ((D : Int) * k - N).natAbs ∧
    (((D : Int) * (nearestEven N D : Int) - N).natAbs = ((D : Int) * k - N).natAbs → k = nearestEven N D ∨ nearestEven N D % 2 = 0) := by
  have h1 := Nat.div_add_mod N D
  have h2 := Nat.mod_lt N hD
  set q := N / D
  set r := N % D
  have hN : (N : Int) = D * q + r := by exact_mod_cast h1.symm
  have hd : (0:Int) < D := by exact_mod_cast hD
  have hr : (r : Int) < D := by exact_mod_cast h2
  -- distance of k
  have low : ∀ k : Int, k ≤ q → (D : Int) * k - N = -((D:Int) * (q - k) + r) := by intro k _; rw [hN]; ring
  have high : ∀ k : Int, (D : Int) * k - N = (D:Int) * (k - q) - r := by intro k; rw [hN]; ring
  rw [high, high]
  have hk : k ≤ q - 1 ∨ k = q ∨ k = q + 1 ∨ q + 2 ≤ k := by omega
  have far1 : k ≤ q - 1 → (D:Int) * (k - q) ≤ -D := by intro h; nlinarith
  have far2 : (q:Int) + 2 ≤ k → 2 * (D:Int) ≤ D * (k - q) := by intro h; nlinarith
  unfold nearestEven
  show ((D:Int) * (((if 2 * r < D then q else if D < 2 * r then q + 1 else q + q % 2 : Nat) : Int) - q) - r).natAbs ≤ _ ∧ (_ → k = ((if 2 * r < D then q else if D < 2 * r then q + 1 else q + q % 2 : Nat) : Int) ∨ (if 2 * r < D then q else if D < 2 * r then q + 1 else q + q % 2 : Nat) % 2 = 0)
  have z : (D:Int) * ((q:Int) - q) = 0 := by ring
  have o : (D:Int) * (((q + 1 : Nat):Int) - q) = D := by push_cast; ring
  have o' : (D:Int) * (((q:Int) + 1) - q) = D := by ring
  have K0 : k = q → (D:Int) * (k - q) = 0 := by intro h; rw [h]; ring
  have K1 : k = q + 1 → (D:Int) * (k - q) = D := by intro h; rw [h]; ring
  generalize (D:Int) * (k - q) = X at *
  split
  · rw [z]; constructor
    · rcases hk with h | h | h | h
      · have := far1 h; omega
      · have := K0 h; omega
      · have := K1 h; omega
      · have := far2 h; omega
    · intro hh
      left
      rcases hk with h | h | h | h
      · have := far1 h; omega
      · exact h
      · have := K1 h; omega
      · have := far2 h; omega
  · split
    · rw [o]; constructor
      · rcases hk with h | h | h | h
        · have := far1 h; omega
        · have := K0 h; omega
        · have := K1 h; omega
        · have := far2 h; omega
      · intro hh
        left
        rcases hk with h | h | h | h
        · have := far1 h; omega
        · have := K0 h; omega
        · push_cast; exact h
        · have := far2 h; omega
    · have hrr : 2 * r = D := by omega
      have e : (D:Int) * (((q + q % 2 : Nat):Int) - q) = D * ((q % 2 : Nat) : Int) := by push_cast; ring
      rw [e]
      have hq : q % 2 = 0 ∨ q % 2 = 1 := by omega
      constructor
      · rcases hq with h0 | h0 <;> rw [h0]
        · simp only [Nat.cast_zero, Int.mul_zero]
          rcases hk with h | h | h | h
          · have := far1 h; omega
          · have := K0 h; omega
          · have := K1 h; omega
          · have := far2 h; omega
        · simp only [Nat.cast_one, Int.mul_one]
          rcases hk with h | h | h | h
          · have := far1 h; omega
          · have := K0 h; omega
          · have := K1 h; omega
          · have := far2 h; omega
      · intro _; right; omega

/-- The rounded significand has 53 bits, and is full above the smallest spacing. -/
theorem nearestEven_bounds (N D t : Nat) (hD : 0 < D) (ht : Nat.log2 (N / D) - 52 = t) :
    nearestEven N (D * 2 ^ t) ≤ 2 ^ 53 ∧ (1 ≤ t → 2 ^ 52 ≤ nearestEven N (D * 2 ^ t) ∧ D * 2 ^ t * 2 ^ 52 ≤ N) := by
  have hdt : 0 < D * 2 ^ t := Nat.mul_pos hD (Nat.two_pow_pos t)
  have hnum : N < D * (N / D + 1) := by
    have h1 := Nat.div_add_mod N D
    have h2 := Nat.mod_lt N hD
    rw [Nat.mul_add]; omega
  have hnum' : D * (N / D) ≤ N := Nat.mul_div_le N D
  constructor
  · have h2 : N / D < 2 ^ (t + 53) := by
      rcases Nat.eq_zero_or_pos (N / D) with hz | hz
      · rw [hz]; exact Nat.two_pow_pos _
      · exact (Nat.log2_lt (by omega)).1 (by omega)
    apply nearestEven_le hdt
    calc N ≤ D * (N / D + 1) := hnum.le
      _ ≤ D * 2 ^ (t + 53) := Nat.mul_le_mul_left _ h2
      _ = D * 2 ^ t * 2 ^ 53 := by rw [pow_add]; ring
  · intro h1
    have h2 : N / D ≠ 0 := by
      intro hz; rw [hz] at ht; simp at ht; omega
    have h3 : 2 ^ (t + 52) ≤ N / D := (Nat.le_log2 h2).1 (by omega)
    have : D * 2 ^ t * 2 ^ 52 ≤ N := by
      calc D * 2 ^ t * 2 ^ 52 = D * 2 ^ (t + 52) := by rw [pow_add]; ring
        _ ≤ D * (N / D) := Nat.mul_le_mul_left _ h3
        _ ≤ N := hnum'
    exact ⟨le_nearestEven hdt this, this⟩

/-- A number below one that is not above the target is farther from it. -/
theorem natAbs_lt_of_below (Y : Int) (Z W N : Nat) (g : (Y - N).natAbs ≤ ((Z : Int) - N).natAbs) (h : W < Z) (hN : Z ≤ N) {P : Prop} :
    (Y - N).natAbs ≤ ((W : Int) - N).natAbs ∧ ((Y - N).natAbs = ((W : Int) - N).natAbs → P) := by
  constructor
  · omega
  · intro h'; omega

/-- No pattern is nearer to the exact value than the rounded one, and one equally near means an even rounded one. -/
theorem roundLow_best (N D : Nat) (hD : 0 < D) (hf : roundLow N D < 2047 * 2 ^ 52) (e : Nat) :
    ((D : Int) * unitsOf (roundLow N D) - N).natAbs ≤ ((D : Int) * unitsOf e - N).natAbs ∧
    (((D : Int) * unitsOf (roundLow N D) - N).natAbs = ((D : Int) * unitsOf e - N).natAbs →
      unitsOf e = unitsOf (roundLow N D) ∨ roundLow N D % 2 = 0) := by
  generalize ht : Nat.log2 (N / D) - 52 = t
  obtain ⟨b1, b2⟩ := nearestEven_bounds N D t hD ht
  have hR : roundLow N D = t * 2 ^ 52 + nearestEven N (D * 2 ^ t) := by
    unfold roundLow at hf ⊢
    rw [ht] at hf ⊢
    simp only at hf ⊢
    omega
  have hdt : 0 < D * 2 ^ t := Nat.mul_pos hD (Nat.two_pow_pos t)
  set m := nearestEven N (D * 2 ^ t) with hm
  have hU : unitsOf (roundLow N D) = m * 2 ^ t := by
    rw [hR]
    rcases Nat.eq_zero_or_pos t with h0 | h0
    · subst h0
      rcases Nat.lt_or_ge m (2^53) with h | h
      · rw [Nat.zero_mul, Nat.zero_add, unitsOf_small h]; simp
      · exact unitsOf_binade 0 (by omega) b1
    · exact unitsOf_binade t (b2 h0).1 b1
  have best := nearestEven_best N (D * 2 ^ t) hdt
  rw [← hm] at best
  have heven : roundLow N D % 2 = m % 2 := by rw [hR]; omega
  have eR : (D : Int) * unitsOf (roundLow N D) - N = ((D * 2 ^ t : Nat) : Int) * (m : Int) - N := by
    rw [hU]; push_cast; ring
  rw [eR, heven, hU]
  by_cases hdiv : 2 ^ t ∣ unitsOf e
  · obtain ⟨k, hk⟩ := hdiv
    have eK : (D : Int) * unitsOf e - N = ((D * 2 ^ t : Nat) : Int) * (k : Int) - N := by rw [hk]; push_cast; ring
    rw [eK]
    obtain ⟨g1, g2⟩ := best k
    refine ⟨g1, fun h => ?_⟩
    rcases g2 h with h | h
    · left
      have : k = m := by exact_mod_cast h
      rw [hk, this]; ring
    · exact .inr h
  · have hlt : unitsOf e < 2 ^ 52 * 2 ^ t ∧ 1 ≤ t := by
      rcases low_cases e with h | ⟨s, m', _, h2, h3, h4⟩
      · have ht1 : 1 ≤ t := by
          rcases Nat.eq_zero_or_pos t with h0 | h0
          · subst h0; exact absurd (one_dvd _) hdiv
          · exact h0
        rw [unitsOf_small h] at hdiv ⊢
        refine ⟨?_, ht1⟩
        calc e < 2 ^ 53 := h
          _ = 2 ^ 52 * 2 ^ 1 := by norm_num
          _ ≤ 2 ^ 52 * 2 ^ t := Nat.mul_le_mul_left _ (Nat.pow_le_pow_right (by norm_num) ht1)
      · rw [h4, unitsOf_binade s h2 h3.le] at hdiv ⊢
        have hs : s < t := by
          by_contra hc
          exact hdiv (Dvd.dvd.mul_left (pow_dvd_pow 2 (by omega)) m')
        refine ⟨?_, by omega⟩
        calc m' * 2 ^ s < 2 ^ 53 * 2 ^ s := Nat.mul_lt_mul_of_pos_right h3 (Nat.two_pow_pos _)
          _ = 2 ^ 52 * 2 ^ (s + 1) := by rw [pow_succ]; ring
          _ ≤ 2 ^ 52 * 2 ^ t := Nat.mul_le_mul_left _ (Nat.pow_le_pow_right (by norm_num) (by omega))
    obtain ⟨hlt, ht1⟩ := hlt
    have hN := (b2 ht1).2
    obtain ⟨g1, _⟩ := best (2 ^ 52 : Nat)
    have hlt2 : D * unitsOf e < D * 2 ^ t * 2 ^ 52 := by
      calc D * unitsOf e < D * (2 ^ 52 * 2 ^ t) := Nat.mul_lt_mul_of_pos_left hlt hD
        _ = D * 2 ^ t * 2 ^ 52 := by ring
    have c1 : (D : Int) * unitsOf e = ((D * unitsOf e : Nat) : Int) := by push_cast; rfl
    have c2 : ((D * 2 ^ t : Nat) : Int) * ((2 ^ 52 : Nat) : Int) = ((D * 2 ^ t * 2 ^ 52 : Nat) : Int) := by push_cast; rfl
    rw [c2] at g1
    rw [c1]
    exact natAbs_lt_of_below _ _ _ _ g1 hlt2 hN

/-- `round` gives a number nearest to the exact value, ties to even (roundTiesToEven, 00_scope.md R6). -/
theorem round_best {n : Bool} {N D : Nat} (hD : 0 < D) (hf : (round n N D).isFinite = true) (v : Int) (hv : v = signedNum n N) (c : F64) :
    (D * (round n N D).value - v).natAbs ≤ (D * c.value - v).natAbs ∧
    ((D * (round n N D).value - v).natAbs = (D * c.value - v).natAbs → c.value = (round n N D).value ∨ (round n N D).bits.getLsbD 0 = false) := by
  rw [isFinite_iff, low_round] at hf
  have hlow : (round n N D).low = roundLow N D := low_round _ _ _
  have hbit : (round n N D).bits.getLsbD 0 = decide (roundLow N D % 2 = 1) := by
    rw [← hlow]; unfold low; rw [← BitVec.testBit_toNat, Nat.testBit_zero]
    congr 1; apply propext; omega
  have main := roundLow_best N D hD hf
  have hval : (round n N D).value = signedNum n (unitsOf (roundLow N D)) := by
    unfold F64.value mag signedNum; rw [sign_round, hlow]
  -- same-sign or opposite
  have hc : c.value = signedNum n c.mag ∨ c.value = -signedNum n c.mag := by
    unfold F64.value signedNum; cases c.sign <;> cases n <;> simp
  rw [hval, hv, hbit]
  obtain ⟨m1, m2⟩ := main c.low
  obtain ⟨z1, z2⟩ := main 0
  have hu0 : unitsOf 0 = 0 := unitsOf_small (by norm_num)
  rw [hu0] at z1 z2
  have hcm : unitsOf c.low = c.mag := rfl
  rw [hcm] at m1 m2
  generalize roundLow N D = R at *
  generalize unitsOf R = U at *
  generalize c.mag = M at *
  have hp1 : (D : Int) * signedNum n U - signedNum n N = signedNum n 1 * ((D : Int) * U - N) := by
    cases n <;> simp [signedNum]; ring
  have hp2 : (D : Int) * signedNum n M - signedNum n N = signedNum n 1 * ((D : Int) * M - N) := by
    cases n <;> simp [signedNum]; ring
  have hp3 : (D : Int) * -signedNum n M - signedNum n N = -(signedNum n 1 * ((D : Int) * M + N)) := by
    cases n <;> simp [signedNum] <;> ring
  have hs : ∀ x : Int, (signedNum n 1 * x).natAbs = x.natAbs := by
    intro x; cases n <;> simp [signedNum]
  rw [hp1, hs]
  rcases hc with hc | hc <;> rw [hc]
  · rw [hp2, hs]
    refine ⟨m1, fun h => ?_⟩
    rcases m2 h with h | h
    · left; rw [h]
    · right; simp [h]
  · rw [hp3, Int.natAbs_neg, hs]
    have hDM : (0:Int) ≤ D * M := by positivity
    have e : (D : Int) * M = ((D * M : Nat) : Int) := by push_cast; rfl
    simp only [Nat.cast_zero, Int.mul_zero] at z1 z2
    constructor
    · rw [e] at hDM ⊢; omega
    · intro h
      have hm0 : D * M = 0 := by rw [e] at h; omega
      have hM : M = 0 := by rcases Nat.mul_eq_zero.1 hm0 with h' | h' <;> omega
      rw [e, hm0] at h
      have := z2 (by rw [h]; simp)
      rcases this with h' | h'
      · left; rw [hM, ← h']; cases n <;> simp [signedNum]
      · right; simp [h']

/-! ## Comparisons -/

/-- Rounding to nearest-even reaches an even `M` exactly from half a unit below it on. -/
theorem nearestEven_half (N Y M : Nat) (hY : 0 < Y) (hM : 0 < M) (he : M % 2 = 0) :
    2 * (M * Y) ≤ 2 * N + Y ↔ M ≤ nearestEven N Y := by
  have h1 := Nat.div_add_mod N Y
  have h2 := Nat.mod_lt N hY
  unfold nearestEven
  generalize N / Y = k at *
  generalize N % Y = r at *
  rcases Nat.lt_or_ge k M with hk | hk
  · obtain ⟨d, rfl⟩ : ∃ d, M = k + 1 + d := ⟨M - (k + 1), by omega⟩
    have e : (k + 1 + d) * Y = Y * k + Y + d * Y := by ring
    rw [e]
    rcases Nat.eq_zero_or_pos d with hd | hd
    · subst hd
      simp only [Nat.zero_mul, Nat.add_zero]
      generalize Y * k = Z at *
      constructor
      · intro; split
        · omega
        · split <;> omega
      · split
        · omega
        · intro; omega
    · have : Y ≤ d * Y := Nat.le_mul_of_pos_left _ hd
      generalize d * Y = W at *
      generalize Y * k = Z at *
      constructor
      · intro; omega
      · split
        · omega
        · split <;> omega
  · have : M * Y ≤ Y * k := by rw [Nat.mul_comm]; exact Nat.mul_le_mul_left _ hk
    generalize Y * k = Z at *
    generalize M * Y = W at *
    constructor
    · intro; split
      · omega
      · split <;> omega
    · intro; omega

/-- Overflow: rounding gives infinity exactly from half a unit in the last place above the largest finite number on. -/
theorem roundLow_overflow (N D : Nat) (hD : 0 < D) :
    roundLow N D = 2047 * 2 ^ 52 ↔ (2 ^ 54 - 1) * 2 ^ 2044 * D ≤ N := by
  obtain ⟨hb1, hb2⟩ := nearestEven_bounds N D _ hD rfl
  have hlt : N / D < 2 ^ (Nat.log2 (N / D) + 1) := Nat.lt_log2_self
  have hr := Nat.mod_lt N hD
  have hq := Nat.div_add_mod N D
  have hdef : roundLow N D =
      Nat.min ((Nat.log2 (N / D) - 52) * 2 ^ 52 + nearestEven N (D * 2 ^ (Nat.log2 (N / D) - 52))) (2047 * 2 ^ 52) := rfl
  rw [hdef]
  generalize Nat.log2 (N / D) = L at *
  obtain ⟨Q, hQ⟩ : ∃ Q, Q = 2 ^ 2044 * D := ⟨_, rfl⟩
  rw [Nat.mul_assoc, ← hQ]
  rcases Nat.lt_trichotomy (L - 52) 2045 with ht | ht | ht
  · have hN : N < 9007199254740992 * Q := by
      have hp : (2 : Nat) ^ (L + 1) ≤ 2 ^ 53 * 2 ^ 2044 := by
        rw [← pow_add]; exact Nat.pow_le_pow_right (by norm_num) (by omega)
      have h3 : D * (N / D + 1) ≤ D * (2 ^ 53 * 2 ^ 2044) := Nat.mul_le_mul_left _ (le_trans hlt hp)
      have e2 : D * (2 ^ 53 * 2 ^ 2044) = 9007199254740992 * Q := by
        rw [hQ]; generalize (2 : Nat) ^ 2044 = P; ring
      rw [e2, Nat.mul_add] at h3
      omega
    clear hlt hr hq hQ hdef hb2
    generalize nearestEven N (D * 2 ^ (L - 52)) = E at *
    generalize L - 52 = t at *
    norm_num at hb1 ⊢
    omega
  · rw [ht] at hb1 hb2 ⊢
    have hY := nearestEven_half N (D * 2 ^ 2045) (2 ^ 53) (Nat.mul_pos hD (Nat.two_pow_pos _)) (by norm_num) (by norm_num)
    have e : D * 2 ^ 2045 = 2 * Q := by
      rw [hQ, pow_succ 2 2044]; generalize (2 : Nat) ^ 2044 = P; ring
    rw [e] at hY hb1 ⊢
    clear hlt hr hq hQ hdef hb2 e
    generalize nearestEven N (2 * Q) = E at *
    norm_num at hb1 hY ⊢
    omega
  · have hb := hb2 (by omega)
    have hN : 18014398509481984 * Q ≤ N := by
      have hp : 4 * (2 : Nat) ^ 2044 ≤ 2 ^ (L - 52) := by
        rw [show (4 : Nat) = 2 ^ 2 from rfl, ← pow_add]; exact Nat.pow_le_pow_right (by norm_num) (by omega)
      have h3 : D * (4 * 2 ^ 2044) * 2 ^ 52 ≤ N := le_trans (Nat.mul_le_mul_right _ (Nat.mul_le_mul_left _ hp)) hb.2
      have e3 : D * (4 * 2 ^ 2044) * 2 ^ 52 = 18014398509481984 * Q := by rw [hQ]; generalize (2 : Nat) ^ 2044 = P; ring
      rwa [e3] at h3
    have h5 := hb.1
    clear hlt hr hq hQ hdef hb2 hb
    generalize nearestEven N (D * 2 ^ (L - 52)) = E at *
    generalize L - 52 = t at *
    norm_num at hb1 h5 ⊢
    omega

theorem lt_iff {a b : F64} : lt a b = true ↔ a.isNaN = false ∧ b.isNaN = false ∧ a.value < b.value := by
  simp [lt, and_assoc]

theorem le_iff {a b : F64} : le a b = true ↔ a.isNaN = false ∧ b.isNaN = false ∧ a.value ≤ b.value := by
  simp [le, and_assoc]

theorem eq_iff {a b : F64} : eq a b = true ↔ a.isNaN = false ∧ b.isNaN = false ∧ a.value = b.value := by
  simp [eq, and_assoc]

/-- `isNaN(v) = not (v == v)` (R6). -/
theorem isNaN_eq_not_eq (v : F64) : v.isNaN = !(eq v v) := by
  simp [eq]

theorem le_of_value {a b : F64} (ha : a.isNaN = false) (hb : b.isNaN = false) (h : a.value ≤ b.value) : le a b = true :=
  le_iff.2 ⟨ha, hb, h⟩

theorem le_trans' {a b c : F64} (h1 : le a b = true) (h2 : le b c = true) : le a c = true := by
  rw [le_iff] at *
  exact ⟨h1.1, h2.2.1, h1.2.2.trans h2.2.2⟩

/-- The units of infinity lie above those of every finite number. -/
theorem isFinite_iff_mag {a : F64} (hn : a.isNaN = false) : a.isFinite = true ↔ a.mag < 2 ^ 2098 := by
  have hinf : unitsOf (2047 * 2 ^ 52) = 2 ^ 2098 := by
    rw [show 2047 * 2 ^ 52 = 2046 * 2 ^ 52 + 2 ^ 52 by norm_num, unitsOf_binade 2046 (by omega) (by omega), ← pow_add]
  rw [isNaN_eq_false] at hn
  rw [isFinite_iff]
  constructor
  · intro h
    have := unitsOf_lt h le_rfl
    rwa [hinf] at this
  · intro h
    by_contra hc
    have he : a.low = 2047 * 2 ^ 52 := by omega
    rw [mag, he, hinf] at h
    exact absurd h (lt_irrefl _)

/-- A number between two finite numbers is finite. -/
theorem isFinite_of_between {a lo hi : F64} (h1 : le lo a = true) (h2 : le a hi = true) (hlo : lo.isFinite = true)
    (hhi : hi.isFinite = true) : a.isFinite = true := by
  obtain ⟨_, hn, h3⟩ := le_iff.1 h1
  obtain ⟨_, _, h4⟩ := le_iff.1 h2
  have m1 := (isFinite_iff_mag (isNaN_of_isFinite hlo)).1 hlo
  have m2 := (isFinite_iff_mag (isNaN_of_isFinite hhi)).1 hhi
  rw [isFinite_iff_mag hn]
  have e1 := natAbs_value lo
  have e2 := natAbs_value hi
  have e3 := natAbs_value a
  generalize 2 ^ 2098 = K at *
  omega

/-- Two numbers with one value and one sign are one pattern. -/
theorem eq_of_value {a b : F64} (ha : a.isNaN = false) (hb : b.isNaN = false) (hs : a.sign = b.sign)
    (h : a.value = b.value) : a = b := by
  apply ext_parts hs
  rw [isNaN_eq_false] at ha hb
  have hm : a.mag = b.mag := by rw [← natAbs_value a, ← natAbs_value b, h]
  rcases Nat.lt_trichotomy a.low b.low with h1 | h1 | h1
  · have := unitsOf_lt h1 hb
    simp only [mag] at hm; omega
  · exact h1
  · have := unitsOf_lt h1 ha
    simp only [mag] at hm; omega

/-- A number that is not zero has the sign of its value. -/
theorem sign_eq_of_value {a : F64} (h : a.value ≠ 0) : a.sign = decide (a.value < 0) := by
  have : (0 : Int) ≤ a.mag := by positivity
  cases hs : a.sign with
  | false => rw [value_of_not_sign hs] at h ⊢; simp
  | true =>
    rw [value_of_sign hs] at h ⊢
    symm
    rw [decide_eq_true_eq]
    omega

/-! ## The operations: a bound on the exact value bounds the result -/

theorem signedNum_natAbs (v : Int) : signedNum (decide (v < 0)) v.natAbs = v := by
  unfold signedNum
  by_cases h : v < 0
  · simp only [h, decide_true, if_true]; omega
  · simp only [h, decide_false, Bool.false_eq_true, if_false]; omega

theorem value_signedZero (n : Bool) : (signedZero n).value = 0 := by
  have h : (signedZero n).mag = 0 := by
    simp only [mag, signedZero, low_ofParts n (e := 0) (by norm_num)]; exact unitsOf_small (by norm_num)
  unfold value; rw [h]; split <;> simp

theorem isNaN_signedZero (n : Bool) : (signedZero n).isNaN = false := by
  rw [isNaN_eq_false]; simp only [signedZero, low_ofParts n (e := 0) (by norm_num)]; norm_num

theorem add_finite {a b : F64} (ha : a.isFinite = true) (hb : b.isFinite = true) : add a b = addFinite a b := by
  simp [add, isNaN_of_isFinite ha, isNaN_of_isFinite hb, isInf_of_isFinite ha, isInf_of_isFinite hb]

theorem sub_finite {a b : F64} (ha : a.isFinite = true) (hb : b.isFinite = true) : sub a b = addFinite a (neg b) := by
  simp [sub, isNaN_of_isFinite ha, isNaN_of_isFinite hb, isInf_of_isFinite ha, isInf_of_isFinite hb]

theorem isNaN_addFinite (a b : F64) : (addFinite a b).isNaN = false := by
  unfold addFinite
  simp only
  split
  · exact isNaN_signedZero _
  · exact isNaN_round _ _ _

theorem value_addFinite_le {a b c : F64} (hc : c.isNaN = false) (h : a.value + b.value ≤ c.value) :
    (addFinite a b).value ≤ c.value := by
  unfold addFinite
  simp only
  split
  · rw [value_signedZero]; omega
  · apply value_round_le (by norm_num) hc
    rw [signedNum_natAbs]; simpa using h

theorem le_value_addFinite {a b c : F64} (hc : c.isNaN = false) (h : c.value ≤ a.value + b.value) :
    c.value ≤ (addFinite a b).value := by
  unfold addFinite
  simp only
  split
  · rw [value_signedZero]; omega
  · apply le_value_round (by norm_num) hc
    rw [signedNum_natAbs]; simpa using h

/-- A sum that is a number needs no rounding. -/
theorem value_addFinite_exact {a b c : F64} (hc : c.isNaN = false) (h : a.value + b.value = c.value) :
    (addFinite a b).value = c.value :=
  le_antisymm (value_addFinite_le hc h.le) (le_value_addFinite hc h.ge)

theorem mul_finite {a b : F64} (ha : a.isFinite = true) (hb : b.isFinite = true) :
    mul a b = round (a.sign != b.sign) (a.mag * b.mag) (2 ^ scale) := by
  simp [mul, isNaN_of_isFinite ha, isNaN_of_isFinite hb, isInf_of_isFinite ha, isInf_of_isFinite hb]

theorem isNaN_mul {a b : F64} (ha : a.isFinite = true) (hb : b.isFinite = true) : (mul a b).isNaN = false := by
  rw [mul_finite ha hb]; exact isNaN_round _ _ _

theorem signedNum_mul (a b : F64) : signedNum (a.sign != b.sign) (a.mag * b.mag) = a.value * b.value := by
  unfold signedNum value
  cases a.sign <;> cases b.sign <;> simp

theorem value_mul_le {a b c : F64} (ha : a.isFinite = true) (hb : b.isFinite = true) (hc : c.isNaN = false)
    (h : a.value * b.value ≤ (2 ^ scale : Nat) * c.value) : (mul a b).value ≤ c.value := by
  rw [mul_finite ha hb]
  apply value_round_le (Nat.two_pow_pos _) hc
  rwa [signedNum_mul]

theorem le_value_mul {a b c : F64} (ha : a.isFinite = true) (hb : b.isFinite = true) (hc : c.isNaN = false)
    (h : (2 ^ scale : Nat) * c.value ≤ a.value * b.value) : c.value ≤ (mul a b).value := by
  rw [mul_finite ha hb]
  apply le_value_round (Nat.two_pow_pos _) hc
  rwa [signedNum_mul]

theorem value_mul_exact {a b c : F64} (ha : a.isFinite = true) (hb : b.isFinite = true) (hc : c.isNaN = false)
    (h : a.value * b.value = (2 ^ scale : Nat) * c.value) : (mul a b).value = c.value :=
  le_antisymm (value_mul_le ha hb hc h.le) (le_value_mul ha hb hc h.ge)

theorem isZero_of_value_pos {b : F64} (h : 0 < b.value) : b.isZero = false := by
  simp only [isZero, decide_eq_false_iff_not]
  intro h0
  have : b.mag = 0 := by rw [mag, h0]; exact unitsOf_small (by norm_num)
  unfold value at h; rw [this] at h; split at h <;> simp at h

theorem div_finite {a b : F64} (ha : a.isFinite = true) (hb : b.isFinite = true) (h0 : b.isZero = false) :
    div a b = round (a.sign != b.sign) (a.mag * 2 ^ scale) b.mag := by
  simp [div, isNaN_of_isFinite ha, isNaN_of_isFinite hb, isInf_of_isFinite ha, isInf_of_isFinite hb, h0]

theorem sign_of_value_pos {b : F64} (h : 0 < b.value) : b.sign = false := by
  rw [sign_eq_of_value (by omega)]; simp; omega

theorem isNaN_div {a b : F64} (ha : a.isFinite = true) (hb : b.isFinite = true) (h0 : 0 < b.value) :
    (div a b).isNaN = false := by
  rw [div_finite ha hb (isZero_of_value_pos h0)]; exact isNaN_round _ _ _

theorem signedNum_div (a : F64) {b : F64} (h0 : 0 < b.value) (k : Nat) :
    signedNum (a.sign != b.sign) (a.mag * k) = a.value * k := by
  rw [sign_of_value_pos h0]
  unfold signedNum value
  cases a.sign <;> simp

theorem value_div_le {a b c : F64} (ha : a.isFinite = true) (hb : b.isFinite = true) (h0 : 0 < b.value)
    (hc : c.isNaN = false) (h : a.value * (2 ^ scale : Nat) ≤ b.value * c.value) : (div a b).value ≤ c.value := by
  rw [div_finite ha hb (isZero_of_value_pos h0)]
  have hm : (b.mag : Int) = b.value := by rw [value_of_not_sign (sign_of_value_pos h0)]
  apply value_round_le (by omega) hc
  rw [signedNum_div a h0, hm]; exact h

theorem le_value_div {a b c : F64} (ha : a.isFinite = true) (hb : b.isFinite = true) (h0 : 0 < b.value)
    (hc : c.isNaN = false) (h : b.value * c.value ≤ a.value * (2 ^ scale : Nat)) : c.value ≤ (div a b).value := by
  rw [div_finite ha hb (isZero_of_value_pos h0)]
  have hm : (b.mag : Int) = b.value := by rw [value_of_not_sign (sign_of_value_pos h0)]
  apply le_value_round (by omega) hc
  rw [signedNum_div a h0, hm]; exact h

/-! ## Clamps -/

/-- A clamped number that is no NaN lies in the interval. -/
theorem clamp_within {v lo hi : F64} (hv : v.isNaN = false) (h : le lo hi = true) :
    le lo (clamp v lo hi) = true ∧ le (clamp v lo hi) hi = true := by
  obtain ⟨hl, hh, hle⟩ := le_iff.1 h
  unfold clamp
  split
  · exact ⟨le_of_value hl hl le_rfl, h⟩
  · rename_i h1
    split
    · exact ⟨h, le_of_value hh hh le_rfl⟩
    · rename_i h2
      rw [lt_iff] at h1 h2
      simp only [hv, hl, hh, true_and, not_lt] at h1 h2
      exact ⟨le_of_value hl hv h1, le_of_value hv hh h2⟩

/-- A number inside the interval is not changed by the clamp. -/
theorem clamp_of_within {v lo hi : F64} (h1 : le lo v = true) (h2 : le v hi = true) : clamp v lo hi = v := by
  obtain ⟨_, _, h3⟩ := le_iff.1 h1
  obtain ⟨_, _, h4⟩ := le_iff.1 h2
  unfold clamp
  rw [if_neg (by rw [lt_iff]; simp; intros; omega), if_neg (by rw [lt_iff]; simp; intros; omega)]

end Sys2Proof.F64
end

