-- ==== Sys2Proof/Laws/Memory.lean ====
section
/-! SUPPORT. Memory: a read after a write, the canonical form is kept, equal contents are equal lists, and a 64-bit register
reads back as it was stored, its bytes little-endian. -/

namespace Sys2Proof

/-! ## Words and bytes -/

theorem getLsbD_byteOf (w : Word) (k i : Nat) : (byteOf w k).getLsbD i = (decide (i < 8) && w.getLsbD (8 * k + i)) := by
  simp [byteOf]

theorem wordOfBytes_bytesOfWord (w : Word) : wordOfBytes (bytesOfWord w) = w := by
  simp only [bytesOfWord, List.map, wordOfBytes]
  apply BitVec.eq_of_getLsbD_eq
  intro i hi
  simp only [BitVec.getLsbD_or, BitVec.getLsbD_shiftLeft, BitVec.getLsbD_setWidth, getLsbD_byteOf]
  interval_cases i <;> simp

@[simp] theorem length_bytesOfWord (w : Word) : (bytesOfWord w).length = 8 := rfl

namespace Machine.Memory

/-! ## One byte -/

theorem readByte_writeByte_same (m : Memory) (a : Nat) (v : Byte) (h : m.wf = true) :
    (m.writeByte a v).readByte a = v := by
  have gen : ∀ (m : Memory) (lo : Nat), wfAbove lo m = true → a ≤ lo → m.readByte a = unlisted := by
    intro m
    induction m with
    | nil => intros; rfl
    | cons c rest ih =>
      obtain ⟨b, w⟩ := c
      intro lo hw ha
      simp only [wfAbove, Bool.and_eq_true, decide_eq_true_eq] at hw
      simp only [readByte]
      rw [if_neg (by omega)]
      exact ih b hw.2 (by omega)
  induction m with
  | nil => by_cases hv : v = unlisted <;> simp [writeByte, readByte, hv]
  | cons c rest ih =>
    obtain ⟨b, w⟩ := c
    have hr : wfAbove b rest = true := by simp only [wf, Bool.and_eq_true] at h; exact h.2
    have hrest : wf rest = true := by
      cases rest with
      | nil => rfl
      | cons c2 r2 =>
        simp only [wfAbove, wf, Bool.and_eq_true] at hr ⊢; exact ⟨hr.1.2, hr.2⟩
    simp only [writeByte]
    by_cases h1 : a < b
    · rw [if_pos h1]
      split
      · rename_i hv
        rw [hv]; simp only [readByte]; rw [if_neg (by omega)]
        exact gen rest b hr h1.le
      · simp [readByte]
    · rw [if_neg h1]
      by_cases h2 : a = b
      · rw [if_pos h2]
        split
        · rename_i hv; rw [hv, h2]; exact h2 ▸ gen rest b hr (by omega)
        · simp [readByte]
      · rw [if_neg h2]; simp only [readByte]; rw [if_neg h2]; exact ih hrest

theorem readByte_writeByte_other (m : Memory) (a b : Nat) (v : Byte) (hab : b ≠ a) :
    (m.writeByte a v).readByte b = m.readByte b := by
  induction m with
  | nil => by_cases hv : v = unlisted <;> simp [writeByte, readByte, hv, hab]
  | cons c rest ih =>
    obtain ⟨d, w⟩ := c
    simp only [writeByte]
    by_cases h1 : a < d
    · rw [if_pos h1]; split
      · rfl
      · simp [readByte, hab]
    · rw [if_neg h1]
      by_cases h2 : a = d
      · subst h2
        rw [if_pos rfl]; split <;> simp [readByte, hab]
      · rw [if_neg h2]; simp only [readByte, ih]

/-- The canonical form above a bound is kept by a write above that bound. -/
theorem wfAbove_writeByte (m : Memory) (lo a : Nat) (v : Byte) (h : wfAbove lo m = true) (ha : lo < a) :
    wfAbove lo (m.writeByte a v) = true := by
  induction m generalizing lo with
  | nil => by_cases hv : v = unlisted <;> simp [writeByte, wfAbove, hv, ha]
  | cons c rest ih =>
    obtain ⟨b, w⟩ := c
    simp only [wfAbove, Bool.and_eq_true, decide_eq_true_eq] at h
    simp only [writeByte]
    by_cases h1 : a < b
    · rw [if_pos h1]; split
      · simp only [wfAbove, Bool.and_eq_true, decide_eq_true_eq]; exact h
      · rename_i hv
        simp only [wfAbove, Bool.and_eq_true, decide_eq_true_eq]
        exact ⟨⟨ha, hv⟩, ⟨h1, h.1.2⟩, h.2⟩
    · rw [if_neg h1]
      by_cases h2 : a = b
      · rw [if_pos h2]
        split
        · have : ∀ (r : Memory), wfAbove b r = true → wfAbove lo r = true := by
            intro r hr
            cases r with
            | nil => rfl
            | cons c2 r2 =>
              simp only [wfAbove, Bool.and_eq_true, decide_eq_true_eq] at hr ⊢
              exact ⟨⟨by omega, hr.1.2⟩, hr.2⟩
          exact this rest h.2
        · rename_i hv
          simp only [wfAbove, Bool.and_eq_true, decide_eq_true_eq]
          exact ⟨⟨ha, hv⟩, h2 ▸ h.2⟩
      · rw [if_neg h2]
        simp only [wfAbove, Bool.and_eq_true, decide_eq_true_eq]
        exact ⟨h.1, ih b h.2 (by omega)⟩

/-- Every write keeps the canonical form. -/
theorem wf_writeByte (m : Memory) (a : Nat) (v : Byte) (h : m.wf = true) : (m.writeByte a v).wf = true := by
  cases m with
  | nil => by_cases hv : v = unlisted <;> simp [writeByte, wf, wfAbove, hv]
  | cons c rest =>
    obtain ⟨b, w⟩ := c
    simp only [wf, Bool.and_eq_true, decide_eq_true_eq] at h
    simp only [writeByte]
    by_cases h1 : a < b
    · rw [if_pos h1]; split
      · simp only [wf, Bool.and_eq_true, decide_eq_true_eq]; exact h
      · rename_i hv
        simp only [wf, wfAbove, Bool.and_eq_true, decide_eq_true_eq]; exact ⟨hv, ⟨h1, h.1⟩, h.2⟩
    · rw [if_neg h1]
      by_cases h2 : a = b
      · rw [if_pos h2]; split
        · cases rest with
          | nil => rfl
          | cons c2 r2 =>
            have h3 := h.2
            simp only [wfAbove, wf, Bool.and_eq_true] at h3 ⊢; exact ⟨h3.1.2, h3.2⟩
        · rename_i hv
          simp only [wf, Bool.and_eq_true, decide_eq_true_eq]; exact ⟨hv, h2 ▸ h.2⟩
      · rw [if_neg h2]
        simp only [wf, Bool.and_eq_true, decide_eq_true_eq]
        exact ⟨h.1, wfAbove_writeByte rest b a v h.2 (by omega)⟩

/-- The addresses of the list are those of before and the one written. -/
theorem mem_writeByte {m : Memory} {a : Nat} {v : Byte} {c : Host.Cell} (h : c ∈ m.writeByte a v) : c ∈ m ∨ c.1 = a := by
  induction m with
  | nil =>
    simp only [writeByte] at h
    split at h
    · cases h
    · right; simp at h; rw [h]
  | cons d rest ih =>
    obtain ⟨b, w⟩ := d
    simp only [writeByte] at h
    split at h
    · split at h
      · exact .inl h
      · rcases List.mem_cons.1 h with h | h
        · right; rw [h]
        · exact .inl h
    · split at h
      · split at h
        · exact .inl (List.mem_cons_of_mem _ h)
        · rcases List.mem_cons.1 h with h | h
          · right; rw [h]
          · exact .inl (List.mem_cons_of_mem _ h)
      · rcases List.mem_cons.1 h with h | h
        · exact .inl (h ▸ List.mem_cons_self)
        · rcases ih h with h | h
          · exact .inl (List.mem_cons_of_mem _ h)
          · exact .inr h

/-! ## Several bytes -/

theorem wf_writeBytes (vs : List Byte) (m : Memory) (a : Nat) (h : m.wf = true) : (m.writeBytes a vs).wf = true := by
  induction vs generalizing m a with
  | nil => exact h
  | cons v vs ih => exact ih _ _ (wf_writeByte m a v h)

theorem readByte_writeBytes_outside (vs : List Byte) (m : Memory) (a b : Nat) (h : b < a ∨ a + vs.length ≤ b) :
    (m.writeBytes a vs).readByte b = m.readByte b := by
  induction vs generalizing m a with
  | nil => rfl
  | cons v vs ih =>
    simp only [writeBytes]
    rw [ih _ _ (by simp at h; omega), readByte_writeByte_other _ _ _ _ (by simp at h; omega)]

theorem readBytes_congr (m m' : Memory) (a n : Nat) (h : ∀ b, a ≤ b → b < a + n → m.readByte b = m'.readByte b) :
    m.readBytes a n = m'.readBytes a n := by
  induction n generalizing a with
  | zero => rfl
  | succ n ih =>
    simp only [readBytes]
    rw [h a le_rfl (by omega), ih (a + 1) (fun b h1 h2 => h b (by omega) (by omega))]

theorem readBytes_writeBytes (vs : List Byte) (m : Memory) (a : Nat) (h : m.wf = true) :
    (m.writeBytes a vs).readBytes a vs.length = vs := by
  induction vs generalizing m a with
  | nil => rfl
  | cons v vs ih =>
    simp only [writeBytes, List.length_cons, readBytes]
    rw [readByte_writeBytes_outside _ _ _ _ (.inl (by omega)), readByte_writeByte_same m a v h,
      ih _ _ (wf_writeByte m a v h)]

theorem mem_writeBytes {vs : List Byte} {m : Memory} {a : Nat} {c : Host.Cell} (h : c ∈ m.writeBytes a vs) :
    c ∈ m ∨ (a ≤ c.1 ∧ c.1 < a + vs.length) := by
  induction vs generalizing m a with
  | nil => exact .inl h
  | cons v vs ih =>
    rcases ih h with h1 | h1
    · rcases mem_writeByte h1 with h2 | h2
      · exact .inl h2
      · right; simp; omega
    · right; simp; omega

/-! ## Registers -/

theorem wf_store64 (m : Memory) (a : Nat) (w : Word) (h : m.wf = true) : (m.store64 a w).wf = true :=
  wf_writeBytes _ m a h

theorem load64_store64_same (m : Memory) (a : Nat) (w : Word) (h : m.wf = true) : (m.store64 a w).load64 a = w := by
  have h1 := readBytes_writeBytes (bytesOfWord w) m a h
  rw [length_bytesOfWord] at h1
  rw [load64, store64, h1, wordOfBytes_bytesOfWord]

theorem readByte_store64_outside (m : Memory) (a b : Nat) (w : Word) (h : b < a ∨ a + 8 ≤ b) :
    (m.store64 a w).readByte b = m.readByte b := readByte_writeBytes_outside _ m a b (by simpa using h)

theorem load64_store64_other (m : Memory) (a b : Nat) (w : Word) (h : b + 8 ≤ a ∨ a + 8 ≤ b) :
    (m.store64 a w).load64 b = m.load64 b := by
  rw [load64, load64, readBytes_congr _ m]
  intro c h1 h2
  exact readByte_store64_outside m a c w (by omega)

theorem mem_store64 {m : Memory} {a : Nat} {w : Word} {c : Host.Cell} (h : c ∈ m.store64 a w) :
    c ∈ m ∨ (a ≤ c.1 ∧ c.1 < a + 8) := by simpa using mem_writeBytes h

/-! ## Equal contents are equal lists -/

theorem readByte_of_wfAbove {m : Memory} {lo a : Nat} (h : wfAbove lo m = true) (ha : a ≤ lo) : m.readByte a = unlisted := by
  induction m generalizing lo with
  | nil => rfl
  | cons c rest ih =>
    obtain ⟨b, w⟩ := c
    simp only [wfAbove, Bool.and_eq_true, decide_eq_true_eq] at h
    simp only [readByte]
    rw [if_neg (by omega)]
    exact ih h.2 (by omega)

theorem ext_of_wfAbove {m m' : Memory} {lo : Nat} (h : wfAbove lo m = true) (h' : wfAbove lo m' = true)
    (he : ∀ a, m.readByte a = m'.readByte a) : m = m' := by
  induction m generalizing m' lo with
  | nil =>
    cases m' with
    | nil => rfl
    | cons c r =>
      obtain ⟨b, w⟩ := c
      simp only [wfAbove, Bool.and_eq_true, decide_eq_true_eq] at h'
      have := he b
      simp [readByte] at this
      exact absurd this.symm h'.1.2
  | cons c r ih =>
    obtain ⟨b, w⟩ := c
    have h1 := h
    simp only [wfAbove, Bool.and_eq_true, decide_eq_true_eq] at h1
    cases m' with
    | nil =>
      have := he b
      simp [readByte] at this
      exact absurd this h1.1.2
    | cons c' r' =>
      obtain ⟨b', w'⟩ := c'
      have h2 := h'
      simp only [wfAbove, Bool.and_eq_true, decide_eq_true_eq] at h2
      have hb : b = b' := by
        rcases Nat.lt_trichotomy b b' with hlt | heq | hgt
        · have := he b
          simp only [readByte] at this
          rw [if_pos trivial, if_neg (by omega), readByte_of_wfAbove h2.2 (by omega)] at this
          exact absurd this h1.1.2
        · exact heq
        · have := he b'
          simp only [readByte] at this
          rw [if_pos trivial, if_neg (by omega), readByte_of_wfAbove h1.2 (by omega)] at this
          exact absurd this.symm h2.1.2
      subst hb
      have hw : w = w' := by have := he b; simpa [readByte] using this
      subst hw
      congr 1
      apply ih h1.2 h2.2
      intro a
      by_cases hab : a = b
      · subst hab
        rw [readByte_of_wfAbove h1.2 le_rfl, readByte_of_wfAbove h2.2 le_rfl]
      · have := he a; simpa [readByte, hab] using this

end Machine.Memory
end Sys2Proof
end

