-- ==== Sys2Proof/Laws/Numeric.lean ====
section
/-! SUPPORT. Numeric facts the units rest on: the values of the constants, the fraction that the phase wrap keeps, the range
of one envelope move. -/

namespace Sys2Proof.F64

/-! ## Constants -/

theorem value_zero : zero.value = 0 := by decide +kernel
theorem value_one : one.value = (2 ^ scale : Nat) := by decide +kernel
theorem value_negOne : negOne.value = -(2 ^ scale : Nat) := by decide +kernel
theorem value_two : two.value = 2 * (2 ^ scale : Nat) := by decide +kernel
theorem value_four : four.value = 4 * (2 ^ scale : Nat) := by decide +kernel
theorem value_half : 2 * half.value = (2 ^ scale : Nat) := by decide +kernel
theorem value_quarter : 4 * quarter.value = (2 ^ scale : Nat) := by decide +kernel
theorem value_threeQuarters : 4 * threeQuarters.value = 3 * (2 ^ scale : Nat) := by decide +kernel

/-- 1.0 in units, as an integer: cited in the place of the power written out. -/
theorem scale_pos : (0 : Int) < (2 ^ scale : Nat) := by exact_mod_cast Nat.two_pow_pos scale

theorem isFinite_zero : zero.isFinite = true := by decide
theorem isFinite_one : one.isFinite = true := by decide
theorem isFinite_negOne : negOne.isFinite = true := by decide
theorem isFinite_two : two.isFinite = true := by decide
theorem isFinite_four : four.isFinite = true := by decide
theorem isFinite_half : half.isFinite = true := by decide

/-! ## A sum of anything finite and a zero, a product with 1.0 -/

theorem value_add_zero {a b : F64} (ha : a.isFinite = true) (hb : b.isFinite = true) (h : b.value = 0) :
    (add a b).value = a.value := by
  rw [add_finite ha hb]
  exact value_addFinite_exact (isNaN_of_isFinite ha) (by omega)

/-- `a * 1.0` is `a`, pattern and all. -/
theorem mul_one {a : F64} (ha : a.isFinite = true) : mul a one = a := by
  have h1 : one.sign = false := by decide
  have hv : (mul a one).value = a.value :=
    value_mul_exact ha isFinite_one (isNaN_of_isFinite ha) (by rw [value_one]; exact Int.mul_comm _ _)
  apply eq_of_value (isNaN_mul ha isFinite_one) (isNaN_of_isFinite ha) ?_ hv
  rw [mul_finite ha isFinite_one, sign_round, h1]; simp

theorem pow_split {s k : Nat} (h : k ≤ s) : 2 ^ s = 2 ^ k * 2 ^ (s - k) := by
  rw [← pow_add, Nat.add_sub_cancel' h]

/-- A full significand bounds the exponent beside it. -/
theorem le_of_significand {m s t : Nat} (hm : 2 ^ 52 ≤ m) (h : m * 2 ^ s ≤ 2 ^ (52 + t)) : s ≤ t := by
  have h1 : 2 ^ (52 + s) ≤ 2 ^ (52 + t) := by
    rw [pow_add 2 52 s]; exact (Nat.mul_le_mul_right _ hm).trans h
  have := (Nat.pow_le_pow_iff_right (by norm_num : 1 < 2)).1 h1
  omega

/-- Twice and four times a number of at most 1.0 are numbers. -/
theorem exists_scaled {a : F64} (ha : le zero a = true) (hb : le a one = true) (k : Nat) (hk : k ≤ 2) :
    ∃ c : F64, c.isFinite = true ∧ c.value = 2 ^ k * a.value := by
  obtain ⟨_, hn, h0⟩ := le_iff.1 ha
  have hfa : a.isFinite = true := isFinite_of_between ha hb isFinite_zero isFinite_one
  obtain ⟨_, _, h1⟩ := le_iff.1 hb
  rw [value_zero] at h0
  rw [value_one] at h1
  have hm : (a.mag : Int) = a.value := by have := natAbs_value a; omega
  have hrep : ∃ m s, m ≤ 2 ^ 53 ∧ s ≤ 1022 ∧ a.mag = m * 2 ^ s := by
    rcases low_cases a.low with h | ⟨s, m, _, h2, h3, h4⟩
    · exact ⟨a.low, 0, by omega, by omega, by rw [mag, unitsOf_small h]; simp⟩
    · have hmag : a.mag = m * 2 ^ s := by rw [mag, h4, unitsOf_binade s h2 h3.le]
      refine ⟨m, s, h3.le, le_of_significand (t := 1022) h2 ?_, hmag⟩
      rw [← hmag]
      have : (a.mag : Int) ≤ (2 ^ scale : Nat) := by omega
      exact_mod_cast this
  obtain ⟨m, s, h2, h3, h4⟩ := hrep
  obtain ⟨e, h5, h6⟩ := exists_unitsOf (m := m) (s := s + k) h2 (by omega)
  have h7 : e < 2 ^ 63 := lt_of_le_of_lt h5 (by norm_num)
  refine ⟨ofParts false e, ?_, ?_⟩
  · have h8 : (ofParts false e).isNaN = false := by rw [isNaN_eq_false, low_ofParts _ h7]; exact h5
    rw [isFinite_iff_mag h8, mag, low_ofParts _ h7, h6]
    calc m * 2 ^ (s + k) ≤ 2 ^ 53 * 2 ^ (s + k) := Nat.mul_le_mul_right _ h2
      _ = 2 ^ (53 + (s + k)) := by rw [← pow_add]
      _ < 2 ^ 2098 := Nat.pow_lt_pow_right (by norm_num) (by omega)
  · rw [value_of_not_sign (sign_ofParts _ h7), mag, low_ofParts _ h7, h6, ← hm, h4]
    push_cast; rw [pow_add]; ring

/-- Every 53-bit integer times a power of two in the range is the value of a number. -/
theorem exists_of_value {z : Int} {s : Nat} (hz : z.natAbs ≤ 2 ^ 53) (hs : s ≤ 2045) :
    ∃ c : F64, c.isNaN = false ∧ c.value = z * (2 ^ s : Nat) := by
  obtain ⟨e, h1, h2⟩ := exists_unitsOf (m := z.natAbs) (s := s) hz hs
  have h3 : e < 2 ^ 63 := lt_of_le_of_lt h1 (by norm_num)
  refine ⟨ofParts (decide (z < 0)) e, by rw [isNaN_eq_false, low_ofParts _ h3]; exact h1, ?_⟩
  have hm : (ofParts (decide (z < 0)) e).mag = z.natAbs * 2 ^ s := by rw [mag, low_ofParts _ h3, h2]
  by_cases h : z < 0
  · rw [value_of_sign (by rw [sign_ofParts _ h3]; exact decide_eq_true h), hm, Nat.cast_mul, ← Int.neg_mul]
    congr 1; omega
  · rw [value_of_not_sign (by rw [sign_ofParts _ h3]; exact decide_eq_false h), hm, Nat.cast_mul]
    congr 1; omega

/-- A number of at least 1.0 is a multiple of 2^-52. -/
theorem dvd_mag_of_one_le {a : F64} (h : 2 ^ scale ≤ a.mag) : 2 ^ 1022 ∣ a.mag := by
  rcases low_cases a.low with h1 | ⟨s, m, _, h2, h3, h4⟩
  · have h5 : a.mag = a.low := by rw [mag, unitsOf_small h1]
    have h6 : 2 ^ 53 ≤ 2 ^ scale := Nat.pow_le_pow_right (by norm_num) (by unfold scale; norm_num)
    generalize 2 ^ scale = S at *
    omega
  · have h5 : a.mag = m * 2 ^ s := by rw [mag, h4, unitsOf_binade s h2 h3.le]
    have h6 : 1022 ≤ s := by
      by_contra hc
      have h7 : m * 2 ^ s < 2 ^ 53 * 2 ^ 1021 := lt_of_lt_of_le (Nat.mul_lt_mul_of_pos_right h3 (Nat.two_pow_pos s))
        (Nat.mul_le_mul_left _ (Nat.pow_le_pow_right (by norm_num) (by omega)))
      rw [← h5, ← pow_add] at h7
      exact absurd (lt_of_le_of_lt h h7) (lt_irrefl _)
    rw [h5, pow_split h6]
    exact ⟨m * 2 ^ (s - 1022), by ring⟩

/-! ## Floor and the fraction -/

/-- A finite number of at least 1.0 is a 53-bit significand times a power of two of at most 2^2045 units. -/
theorem mag_rep {a : F64} (ha : a.isFinite = true) : ∃ m s, m < 2 ^ 53 ∧ s ≤ 2045 ∧ a.mag = m * 2 ^ s := by
  have hl := isFinite_iff.1 ha
  rcases low_cases a.low with h | ⟨s, m, _, h2, h3, h4⟩
  · exact ⟨a.low, 0, by omega, by omega, by rw [mag, unitsOf_small h]; simp⟩
  · exact ⟨m, s, h3, by omega, by rw [mag, h4, unitsOf_binade s h2 h3.le]⟩

/-- What is below the units of 1.0 in a number is a number. -/
theorem exists_fraction {a : F64} (ha : a.isFinite = true) :
    ∃ e, e ≤ 2047 * 2 ^ 52 ∧ unitsOf e = a.mag % 2 ^ scale := by
  obtain ⟨m, s, h1, h2, h3⟩ := mag_rep ha
  rcases Nat.lt_or_ge s scale with h | h
  · have h4 : a.mag % 2 ^ scale = (m % 2 ^ (scale - s)) * 2 ^ s := by
      rw [h3, pow_split h.le, Nat.mul_comm (2 ^ s), Nat.mul_mod_mul_right]
    rw [h4]
    exact exists_unitsOf ((Nat.mod_le _ _).trans h1.le) h2
  · have h4 : a.mag % 2 ^ scale = 0 := by
      rw [h3, pow_split h]
      rw [show m * (2 ^ scale * 2 ^ (s - scale)) = 2 ^ scale * (m * 2 ^ (s - scale)) by ring]
      exact Nat.mul_mod_right _ _
    exact ⟨0, by norm_num, by rw [h4]; exact unitsOf_small (by norm_num)⟩

/-- The whole part of a number is a number. -/
theorem exists_whole {a : F64} (ha : a.isFinite = true) :
    ∃ e, e ≤ 2047 * 2 ^ 52 ∧ unitsOf e = a.mag / 2 ^ scale * 2 ^ scale := by
  obtain ⟨m, s, h1, h2, h3⟩ := mag_rep ha
  rcases Nat.lt_or_ge s scale with h | h
  · refine exists_unitsOf (s := scale) ?_ (by unfold scale; norm_num)
    rw [h3, pow_split h.le, Nat.mul_comm (2 ^ s),
      Nat.mul_div_mul_right _ _ (Nat.two_pow_pos s)]
    exact (Nat.div_le_self _ _).trans h1.le
  · have h4 : a.mag / 2 ^ scale * 2 ^ scale = a.mag := by
      apply Nat.div_mul_cancel
      rw [h3, pow_split h]
      exact ⟨m * 2 ^ (s - scale), by ring⟩
    rw [h4]
    exact ⟨a.low, (isFinite_iff.1 ha).le, rfl⟩

/-- `floor` of a finite number that is not below 1.0, exactly. -/
theorem value_floor {a : F64} (ha : a.isFinite = true) (h1 : (2 ^ scale : Nat) ≤ a.value) :
    (floor a).isFinite = true ∧ (floor a).value = (a.mag / 2 ^ scale * 2 ^ scale : Nat) := by
  have hS : 0 < 2 ^ scale := Nat.two_pow_pos _
  have hm : a.value = (a.mag : Int) := by have := natAbs_value a; omega
  obtain ⟨e, he, hu⟩ := exists_whole ha
  have hm' : 2 ^ scale ≤ a.mag := by rw [hm] at h1; exact_mod_cast h1
  have hq : 1 ≤ a.mag / 2 ^ scale := (Nat.le_div_iff_mul_le hS).2 (by omega)
  have hk : a.value / (2 ^ scale : Nat) = ((a.mag / 2 ^ scale : Nat) : Int) := by rw [hm]; rfl
  have hf : floor a = round false (a.mag / 2 ^ scale * 2 ^ scale) 1 := by
    unfold floor
    simp only [isNaN_of_isFinite ha, isInf_of_isFinite ha, Bool.false_eq_true, if_false]
    rw [hk, if_neg (by omega)]
    congr 1
  have hr : roundLow (a.mag / 2 ^ scale * 2 ^ scale) 1 = e := roundLow_exact (by norm_num) he (by omega)
  have hmag : (floor a).mag = a.mag / 2 ^ scale * 2 ^ scale := by rw [hf, mag, low_round, hr, hu]
  have hn : (floor a).isNaN = false := by rw [hf]; exact isNaN_round _ _ _
  constructor
  · rw [isFinite_iff_mag hn, hmag]
    exact lt_of_le_of_lt (Nat.div_mul_le_self _ _) ((isFinite_iff_mag (isNaN_of_isFinite ha)).1 ha)
  · rw [value_of_not_sign (by rw [hf]; exact sign_round _ _ _), hmag]

/-- `x - floor(x)` is exact: it is what lies below the units of 1.0 (40_oscillator.md R137). -/
theorem value_sub_floor {a : F64} (ha : a.isFinite = true) (h1 : (2 ^ scale : Nat) ≤ a.value) :
    (sub a (floor a)).isNaN = false ∧ (sub a (floor a)).value = (a.mag % 2 ^ scale : Nat) := by
  obtain ⟨hf, hv⟩ := value_floor ha h1
  obtain ⟨e, he, hu⟩ := exists_fraction ha
  have hm : a.value = (a.mag : Int) := by have := natAbs_value a; omega
  have h63 : e < 2 ^ 63 := lt_of_le_of_lt he (by norm_num)
  have hc : (ofParts false e).isNaN = false := by rw [isNaN_eq_false, low_ofParts _ h63]; exact he
  have hcv : (ofParts false e).value = (a.mag % 2 ^ scale : Nat) := by
    rw [value_of_not_sign (sign_ofParts _ h63), mag, low_ofParts _ h63, hu]
  rw [sub_finite ha hf]
  refine ⟨isNaN_addFinite _ _, ?_⟩
  rw [value_addFinite_exact hc, hcv]
  rw [hcv, value_neg, hv, hm]
  have h := Nat.div_add_mod a.mag (2 ^ scale)
  have h' : a.mag / 2 ^ scale * 2 ^ scale + a.mag % 2 ^ scale = a.mag := by rw [Nat.mul_comm]; exact h
  generalize a.mag / 2 ^ scale * 2 ^ scale = x at *
  generalize a.mag % 2 ^ scale = y at *
  omega

end Sys2Proof.F64

namespace Sys2Proof.Machine

open F64

/-! ## Ranges -/

theorem within_iff {lo hi x : F64} : within lo hi x = true ↔ le lo x = true ∧ le x hi = true := by
  simp [within]

theorem inUnit_iff {x : F64} :
    inUnit x = true ↔ x.isNaN = false ∧ 0 ≤ x.value ∧ x.value ≤ (2 ^ scale : Nat) := by
  have h0 : F64.zero.isNaN = false := by decide
  have h1 : F64.one.isNaN = false := by decide
  unfold inUnit
  rw [within_iff, le_iff, le_iff, value_zero, value_one]
  simp only [h0, h1, true_and]
  exact ⟨fun h => ⟨h.1.1, h.1.2, h.2.2⟩, fun h => ⟨⟨h.1, h.2.1⟩, h.1, h.2.2⟩⟩

theorem inSigned_iff {x : F64} :
    inSigned x = true ↔ x.isNaN = false ∧ -(2 ^ scale : Nat) ≤ x.value ∧ x.value ≤ (2 ^ scale : Nat) := by
  have h0 : F64.negOne.isNaN = false := by decide
  have h1 : F64.one.isNaN = false := by decide
  unfold inSigned
  rw [within_iff, le_iff, le_iff, value_negOne, value_one]
  simp only [h0, h1, true_and]
  exact ⟨fun h => ⟨h.1.1, h.1.2, h.2.2⟩, fun h => ⟨⟨h.1, h.2.1⟩, h.1, h.2.2⟩⟩

theorem inPhase_iff {x : F64} :
    inPhase x = true ↔ x.isNaN = false ∧ 0 ≤ x.value ∧ x.value < (2 ^ scale : Nat) := by
  have h0 : F64.zero.isNaN = false := by decide
  have h1 : F64.one.isNaN = false := by decide
  unfold inPhase
  rw [Bool.and_eq_true, le_iff, lt_iff, value_zero, value_one]
  simp only [h0, h1, true_and]
  exact ⟨fun h => ⟨h.1.1, h.1.2, h.2.2⟩, fun h => ⟨⟨h.1, h.2.1⟩, h.1, h.2.2⟩⟩

theorem nonneg_zero : nonneg F64.zero = true := by decide +kernel
theorem inUnit_zero : inUnit F64.zero = true := by decide +kernel
theorem inUnit_one : inUnit F64.one = true := by decide +kernel
theorem inSigned_zero : inSigned F64.zero = true := by decide +kernel
theorem inPhase_zero : inPhase F64.zero = true := by decide +kernel

theorem nonneg_iff {x : F64} : nonneg x = true ↔ x.isNaN = false ∧ 0 ≤ x.value := by
  have h0 : F64.zero.isNaN = false := by decide
  unfold nonneg
  rw [le_iff, value_zero]
  simp only [h0, true_and]

theorem isFinite_of_inSigned {x : F64} (h : inSigned x = true) : x.isFinite = true :=
  isFinite_of_between (within_iff.1 h).1 (within_iff.1 h).2 isFinite_negOne isFinite_one

theorem isFinite_of_inUnit {x : F64} (h : inUnit x = true) : x.isFinite = true :=
  isFinite_of_between (within_iff.1 h).1 (within_iff.1 h).2 isFinite_zero isFinite_one

/-- The difference of two levels is in [-1, 1]. -/
theorem inSigned_sub {a b : F64} (ha : inUnit a = true) (hb : inUnit b = true) : inSigned (sub a b) = true := by
  have fa := isFinite_of_inUnit ha
  have fb := isFinite_of_inUnit hb
  obtain ⟨_, a0, a1⟩ := inUnit_iff.1 ha
  obtain ⟨_, b0, b1⟩ := inUnit_iff.1 hb
  rw [sub_finite fa fb, inSigned_iff]
  refine ⟨isNaN_addFinite _ _, ?_, ?_⟩
  · rw [← value_negOne]
    apply le_value_addFinite (by decide)
    rw [value_negOne, value_neg]; omega
  · rw [← value_one]
    apply value_addFinite_le (by decide)
    rw [value_one, value_neg]; omega

/-- The product of a number in [-1, 1] and one in [0, 1] is in [-1, 1]. -/
theorem inSigned_mul {a b : F64} (ha : inSigned a = true) (hb : inUnit b = true) : inSigned (mul a b) = true := by
  have fa := isFinite_of_inSigned ha
  have fb := isFinite_of_inUnit hb
  obtain ⟨_, a0, a1⟩ := inSigned_iff.1 ha
  obtain ⟨_, b0, b1⟩ := inUnit_iff.1 hb
  have hS : (0 : Int) < (2 ^ scale : Nat) := by exact_mod_cast Nat.two_pow_pos scale
  rw [inSigned_iff]
  refine ⟨isNaN_mul fa fb, ?_, ?_⟩
  · rw [← value_negOne]
    apply le_value_mul fa fb (by decide)
    rw [value_negOne]
    generalize ((2 ^ scale : Nat) : Int) = S at *
    nlinarith
  · rw [← value_one]
    apply value_mul_le fa fb (by decide)
    rw [value_one]
    generalize ((2 ^ scale : Nat) : Int) = S at *
    nlinarith

/-- One move of an envelope stays in [0, 1], whatever the factor in [0, 1] is (42_envelope.md R184). -/
theorem inUnit_envLevel {level target k : F64} (hl : inUnit level = true) (ht : inUnit target = true)
    (hk : inUnit k = true) : inUnit (envLevel level target k) = true := by
  have h1 := isFinite_of_inSigned (inSigned_mul (inSigned_sub hl ht) hk)
  have h2 : (F64.add target (F64.mul (F64.sub level target) k)).isNaN = false := by
    rw [add_finite (isFinite_of_inUnit ht) h1]; exact isNaN_addFinite _ _
  exact within_iff.2 (clamp_within h2 (by decide +kernel))

end Sys2Proof.Machine
end

