-- ==== Sys2Proof/Laws/State.lean ====
section
/-! SUPPORT. What each update of the state leaves in each field, true by definition, so that no later proof unfolds a record
update. -/

namespace Sys2Proof.Machine

/-! `raiseFlag` -/

@[simp] theorem raiseFlag_err (f : ErrFlag) (s : State) : (raiseFlag f s).err = s.err ||| f.mask := rfl
@[simp] theorem raiseFlag_slot (f : ErrFlag) (s : State) : (raiseFlag f s).slot = s.slot := rfl
@[simp] theorem raiseFlag_freqArg (f : ErrFlag) (s : State) : (raiseFlag f s).freqArg = s.freqArg := rfl
@[simp] theorem raiseFlag_lastSample (f : ErrFlag) (s : State) : (raiseFlag f s).lastSample = s.lastSample := rfl
@[simp] theorem raiseFlag_sampleCount (f : ErrFlag) (s : State) : (raiseFlag f s).sampleCount = s.sampleCount := rfl
@[simp] theorem raiseFlag_shadow (f : ErrFlag) (s : State) : (raiseFlag f s).shadow = s.shadow := rfl
@[simp] theorem raiseFlag_live (f : ErrFlag) (s : State) : (raiseFlag f s).live = s.live := rfl
@[simp] theorem raiseFlag_voice (f : ErrFlag) (s : State) : (raiseFlag f s).voice = s.voice := rfl
@[simp] theorem raiseFlag_aenv (f : ErrFlag) (s : State) : (raiseFlag f s).aenv = s.aenv := rfl
@[simp] theorem raiseFlag_fenv (f : ErrFlag) (s : State) : (raiseFlag f s).fenv = s.fenv := rfl
@[simp] theorem raiseFlag_outbuf (f : ErrFlag) (s : State) : (raiseFlag f s).outbuf = s.outbuf := rfl
@[simp] theorem raiseFlag_inputs (f : ErrFlag) (s : State) : (raiseFlag f s).inputs = s.inputs := rfl
@[simp] theorem raiseFlag_observed (f : ErrFlag) (s : State) : (raiseFlag f s).observed = s.observed := rfl
@[simp] theorem raiseFlag_wait (f : ErrFlag) (s : State) : (raiseFlag f s).wait = s.wait := rfl
@[simp] theorem raiseFlag_latches (f : ErrFlag) (s : State) : (raiseFlag f s).latches = s.latches := rfl
@[simp] theorem raiseFlag_draws (f : ErrFlag) (s : State) : (raiseFlag f s).draws = s.draws := rfl
@[simp] theorem raiseFlag_busyReads (f : ErrFlag) (s : State) : (raiseFlag f s).busyReads = s.busyReads := rfl

/-! `clearFlags` -/

@[simp] theorem clearFlags_err (v : Word) (s : State) : (clearFlags v s).err = s.err &&& ~~~(v.setWidth 3) := rfl
@[simp] theorem clearFlags_slot (v : Word) (s : State) : (clearFlags v s).slot = s.slot := rfl
@[simp] theorem clearFlags_freqArg (v : Word) (s : State) : (clearFlags v s).freqArg = s.freqArg := rfl
@[simp] theorem clearFlags_lastSample (v : Word) (s : State) : (clearFlags v s).lastSample = s.lastSample := rfl
@[simp] theorem clearFlags_sampleCount (v : Word) (s : State) : (clearFlags v s).sampleCount = s.sampleCount := rfl
@[simp] theorem clearFlags_shadow (v : Word) (s : State) : (clearFlags v s).shadow = s.shadow := rfl
@[simp] theorem clearFlags_live (v : Word) (s : State) : (clearFlags v s).live = s.live := rfl
@[simp] theorem clearFlags_voice (v : Word) (s : State) : (clearFlags v s).voice = s.voice := rfl
@[simp] theorem clearFlags_aenv (v : Word) (s : State) : (clearFlags v s).aenv = s.aenv := rfl
@[simp] theorem clearFlags_fenv (v : Word) (s : State) : (clearFlags v s).fenv = s.fenv := rfl
@[simp] theorem clearFlags_outbuf (v : Word) (s : State) : (clearFlags v s).outbuf = s.outbuf := rfl
@[simp] theorem clearFlags_inputs (v : Word) (s : State) : (clearFlags v s).inputs = s.inputs := rfl
@[simp] theorem clearFlags_observed (v : Word) (s : State) : (clearFlags v s).observed = s.observed := rfl
@[simp] theorem clearFlags_wait (v : Word) (s : State) : (clearFlags v s).wait = s.wait := rfl
@[simp] theorem clearFlags_latches (v : Word) (s : State) : (clearFlags v s).latches = s.latches := rfl
@[simp] theorem clearFlags_draws (v : Word) (s : State) : (clearFlags v s).draws = s.draws := rfl
@[simp] theorem clearFlags_busyReads (v : Word) (s : State) : (clearFlags v s).busyReads = s.busyReads := rfl

/-! `outbufSet` -/

@[simp] theorem outbufSet_err (i : Nat) (x : F64) (s : State) : (outbufSet i x s).err = s.err := rfl
@[simp] theorem outbufSet_slot (i : Nat) (x : F64) (s : State) : (outbufSet i x s).slot = s.slot := rfl
@[simp] theorem outbufSet_freqArg (i : Nat) (x : F64) (s : State) : (outbufSet i x s).freqArg = s.freqArg := rfl
@[simp] theorem outbufSet_lastSample (i : Nat) (x : F64) (s : State) : (outbufSet i x s).lastSample = s.lastSample := rfl
@[simp] theorem outbufSet_sampleCount (i : Nat) (x : F64) (s : State) : (outbufSet i x s).sampleCount = s.sampleCount := rfl
@[simp] theorem outbufSet_shadow (i : Nat) (x : F64) (s : State) : (outbufSet i x s).shadow = s.shadow := rfl
@[simp] theorem outbufSet_live (i : Nat) (x : F64) (s : State) : (outbufSet i x s).live = s.live := rfl
@[simp] theorem outbufSet_voice (i : Nat) (x : F64) (s : State) : (outbufSet i x s).voice = s.voice := rfl
@[simp] theorem outbufSet_aenv (i : Nat) (x : F64) (s : State) : (outbufSet i x s).aenv = s.aenv := rfl
@[simp] theorem outbufSet_fenv (i : Nat) (x : F64) (s : State) : (outbufSet i x s).fenv = s.fenv := rfl
@[simp] theorem outbufSet_outbuf (i : Nat) (x : F64) (s : State) : (outbufSet i x s).outbuf = s.outbuf.store64 (outbufOffset i) x.bits := rfl
@[simp] theorem outbufSet_inputs (i : Nat) (x : F64) (s : State) : (outbufSet i x s).inputs = s.inputs := rfl
@[simp] theorem outbufSet_observed (i : Nat) (x : F64) (s : State) : (outbufSet i x s).observed = s.observed := rfl
@[simp] theorem outbufSet_wait (i : Nat) (x : F64) (s : State) : (outbufSet i x s).wait = s.wait := rfl
@[simp] theorem outbufSet_latches (i : Nat) (x : F64) (s : State) : (outbufSet i x s).latches = s.latches := rfl
@[simp] theorem outbufSet_draws (i : Nat) (x : F64) (s : State) : (outbufSet i x s).draws = s.draws := rfl
@[simp] theorem outbufSet_busyReads (i : Nat) (x : F64) (s : State) : (outbufSet i x s).busyReads = s.busyReads := rfl

/-! `shadowSet` -/

@[simp] theorem shadowSet_err (p : Param) (v : Word) (s : State) : (shadowSet p v s).err = s.err := rfl
@[simp] theorem shadowSet_slot (p : Param) (v : Word) (s : State) : (shadowSet p v s).slot = s.slot := rfl
@[simp] theorem shadowSet_freqArg (p : Param) (v : Word) (s : State) : (shadowSet p v s).freqArg = s.freqArg := rfl
@[simp] theorem shadowSet_lastSample (p : Param) (v : Word) (s : State) : (shadowSet p v s).lastSample = s.lastSample := rfl
@[simp] theorem shadowSet_sampleCount (p : Param) (v : Word) (s : State) : (shadowSet p v s).sampleCount = s.sampleCount := rfl
@[simp] theorem shadowSet_shadow (p : Param) (v : Word) (s : State) : (shadowSet p v s).shadow = s.shadow.set p.index v := rfl
@[simp] theorem shadowSet_live (p : Param) (v : Word) (s : State) : (shadowSet p v s).live = s.live := rfl
@[simp] theorem shadowSet_voice (p : Param) (v : Word) (s : State) : (shadowSet p v s).voice = s.voice := rfl
@[simp] theorem shadowSet_aenv (p : Param) (v : Word) (s : State) : (shadowSet p v s).aenv = s.aenv := rfl
@[simp] theorem shadowSet_fenv (p : Param) (v : Word) (s : State) : (shadowSet p v s).fenv = s.fenv := rfl
@[simp] theorem shadowSet_outbuf (p : Param) (v : Word) (s : State) : (shadowSet p v s).outbuf = s.outbuf := rfl
@[simp] theorem shadowSet_inputs (p : Param) (v : Word) (s : State) : (shadowSet p v s).inputs = s.inputs := rfl
@[simp] theorem shadowSet_observed (p : Param) (v : Word) (s : State) : (shadowSet p v s).observed = s.observed := rfl
@[simp] theorem shadowSet_wait (p : Param) (v : Word) (s : State) : (shadowSet p v s).wait = s.wait := rfl
@[simp] theorem shadowSet_latches (p : Param) (v : Word) (s : State) : (shadowSet p v s).latches = s.latches := rfl
@[simp] theorem shadowSet_draws (p : Param) (v : Word) (s : State) : (shadowSet p v s).draws = s.draws := rfl
@[simp] theorem shadowSet_busyReads (p : Param) (v : Word) (s : State) : (shadowSet p v s).busyReads = s.busyReads := rfl

/-! `setFreqArg` -/

@[simp] theorem setFreqArg_err (v : Word) (s : State) : (setFreqArg v s).err = s.err := rfl
@[simp] theorem setFreqArg_slot (v : Word) (s : State) : (setFreqArg v s).slot = s.slot := rfl
@[simp] theorem setFreqArg_freqArg (v : Word) (s : State) : (setFreqArg v s).freqArg = v := rfl
@[simp] theorem setFreqArg_lastSample (v : Word) (s : State) : (setFreqArg v s).lastSample = s.lastSample := rfl
@[simp] theorem setFreqArg_sampleCount (v : Word) (s : State) : (setFreqArg v s).sampleCount = s.sampleCount := rfl
@[simp] theorem setFreqArg_shadow (v : Word) (s : State) : (setFreqArg v s).shadow = s.shadow := rfl
@[simp] theorem setFreqArg_live (v : Word) (s : State) : (setFreqArg v s).live = s.live := rfl
@[simp] theorem setFreqArg_voice (v : Word) (s : State) : (setFreqArg v s).voice = s.voice := rfl
@[simp] theorem setFreqArg_aenv (v : Word) (s : State) : (setFreqArg v s).aenv = s.aenv := rfl
@[simp] theorem setFreqArg_fenv (v : Word) (s : State) : (setFreqArg v s).fenv = s.fenv := rfl
@[simp] theorem setFreqArg_outbuf (v : Word) (s : State) : (setFreqArg v s).outbuf = s.outbuf := rfl
@[simp] theorem setFreqArg_inputs (v : Word) (s : State) : (setFreqArg v s).inputs = s.inputs := rfl
@[simp] theorem setFreqArg_observed (v : Word) (s : State) : (setFreqArg v s).observed = s.observed := rfl
@[simp] theorem setFreqArg_wait (v : Word) (s : State) : (setFreqArg v s).wait = s.wait := rfl
@[simp] theorem setFreqArg_latches (v : Word) (s : State) : (setFreqArg v s).latches = s.latches := rfl
@[simp] theorem setFreqArg_draws (v : Word) (s : State) : (setFreqArg v s).draws = s.draws := rfl
@[simp] theorem setFreqArg_busyReads (v : Word) (s : State) : (setFreqArg v s).busyReads = s.busyReads := rfl

/-! `emptySlot` -/

@[simp] theorem emptySlot_err (s : State) : (emptySlot s).err = s.err := rfl
@[simp] theorem emptySlot_slot (s : State) : (emptySlot s).slot = none := rfl
@[simp] theorem emptySlot_freqArg (s : State) : (emptySlot s).freqArg = s.freqArg := rfl
@[simp] theorem emptySlot_lastSample (s : State) : (emptySlot s).lastSample = s.lastSample := rfl
@[simp] theorem emptySlot_sampleCount (s : State) : (emptySlot s).sampleCount = s.sampleCount := rfl
@[simp] theorem emptySlot_shadow (s : State) : (emptySlot s).shadow = s.shadow := rfl
@[simp] theorem emptySlot_live (s : State) : (emptySlot s).live = s.live := rfl
@[simp] theorem emptySlot_voice (s : State) : (emptySlot s).voice = s.voice := rfl
@[simp] theorem emptySlot_aenv (s : State) : (emptySlot s).aenv = s.aenv := rfl
@[simp] theorem emptySlot_fenv (s : State) : (emptySlot s).fenv = s.fenv := rfl
@[simp] theorem emptySlot_outbuf (s : State) : (emptySlot s).outbuf = s.outbuf := rfl
@[simp] theorem emptySlot_inputs (s : State) : (emptySlot s).inputs = s.inputs := rfl
@[simp] theorem emptySlot_observed (s : State) : (emptySlot s).observed = s.observed := rfl
@[simp] theorem emptySlot_wait (s : State) : (emptySlot s).wait = 0 := rfl
@[simp] theorem emptySlot_latches (s : State) : (emptySlot s).latches = s.latches := rfl
@[simp] theorem emptySlot_draws (s : State) : (emptySlot s).draws = s.draws := rfl
@[simp] theorem emptySlot_busyReads (s : State) : (emptySlot s).busyReads = s.busyReads := rfl

/-! `resetBlock` -/

@[simp] theorem resetBlock_err (s : State) : (resetBlock s).err = State.reset.err := rfl
@[simp] theorem resetBlock_slot (s : State) : (resetBlock s).slot = State.reset.slot := rfl
@[simp] theorem resetBlock_freqArg (s : State) : (resetBlock s).freqArg = State.reset.freqArg := rfl
@[simp] theorem resetBlock_lastSample (s : State) : (resetBlock s).lastSample = State.reset.lastSample := rfl
@[simp] theorem resetBlock_sampleCount (s : State) : (resetBlock s).sampleCount = State.reset.sampleCount := rfl
@[simp] theorem resetBlock_shadow (s : State) : (resetBlock s).shadow = State.reset.shadow := rfl
@[simp] theorem resetBlock_live (s : State) : (resetBlock s).live = State.reset.live := rfl
@[simp] theorem resetBlock_voice (s : State) : (resetBlock s).voice = State.reset.voice := rfl
@[simp] theorem resetBlock_aenv (s : State) : (resetBlock s).aenv = State.reset.aenv := rfl
@[simp] theorem resetBlock_fenv (s : State) : (resetBlock s).fenv = State.reset.fenv := rfl
@[simp] theorem resetBlock_outbuf (s : State) : (resetBlock s).outbuf = State.reset.outbuf := rfl
@[simp] theorem resetBlock_inputs (s : State) : (resetBlock s).inputs = s.inputs := rfl
@[simp] theorem resetBlock_observed (s : State) : (resetBlock s).observed = s.observed := rfl
@[simp] theorem resetBlock_wait (s : State) : (resetBlock s).wait = State.reset.wait := rfl
@[simp] theorem resetBlock_latches (s : State) : (resetBlock s).latches = s.latches := rfl
@[simp] theorem resetBlock_draws (s : State) : (resetBlock s).draws = s.draws := rfl
@[simp] theorem resetBlock_busyReads (s : State) : (resetBlock s).busyReads = s.busyReads := rfl

/-! `countSample` -/

@[simp] theorem countSample_err (x : F64) (s : State) : (countSample x s).err = s.err := rfl
@[simp] theorem countSample_slot (x : F64) (s : State) : (countSample x s).slot = s.slot := rfl
@[simp] theorem countSample_freqArg (x : F64) (s : State) : (countSample x s).freqArg = s.freqArg := rfl
@[simp] theorem countSample_lastSample (x : F64) (s : State) : (countSample x s).lastSample = x := rfl
@[simp] theorem countSample_sampleCount (x : F64) (s : State) : (countSample x s).sampleCount = s.sampleCount + 1 := rfl
@[simp] theorem countSample_shadow (x : F64) (s : State) : (countSample x s).shadow = s.shadow := rfl
@[simp] theorem countSample_live (x : F64) (s : State) : (countSample x s).live = s.live := rfl
@[simp] theorem countSample_voice (x : F64) (s : State) : (countSample x s).voice = s.voice := rfl
@[simp] theorem countSample_aenv (x : F64) (s : State) : (countSample x s).aenv = s.aenv := rfl
@[simp] theorem countSample_fenv (x : F64) (s : State) : (countSample x s).fenv = s.fenv := rfl
@[simp] theorem countSample_outbuf (x : F64) (s : State) : (countSample x s).outbuf = s.outbuf := rfl
@[simp] theorem countSample_inputs (x : F64) (s : State) : (countSample x s).inputs = s.inputs := rfl
@[simp] theorem countSample_observed (x : F64) (s : State) : (countSample x s).observed = s.observed := rfl
@[simp] theorem countSample_wait (x : F64) (s : State) : (countSample x s).wait = s.wait := rfl
@[simp] theorem countSample_latches (x : F64) (s : State) : (countSample x s).latches = s.latches := rfl
@[simp] theorem countSample_draws (x : F64) (s : State) : (countSample x s).draws = s.draws := rfl
@[simp] theorem countSample_busyReads (x : F64) (s : State) : (countSample x s).busyReads = s.busyReads := rfl

/-! `hardStop` -/

@[simp] theorem hardStop_err (s : State) : (hardStop s).err = s.err := rfl
@[simp] theorem hardStop_slot (s : State) : (hardStop s).slot = s.slot := rfl
@[simp] theorem hardStop_freqArg (s : State) : (hardStop s).freqArg = s.freqArg := rfl
@[simp] theorem hardStop_lastSample (s : State) : (hardStop s).lastSample = F64.zero := rfl
@[simp] theorem hardStop_sampleCount (s : State) : (hardStop s).sampleCount = s.sampleCount := rfl
@[simp] theorem hardStop_shadow (s : State) : (hardStop s).shadow = s.shadow := rfl
@[simp] theorem hardStop_live (s : State) : (hardStop s).live = s.live := rfl
@[simp] theorem hardStop_voice (s : State) : (hardStop s).voice = { s.voice with vstate := .idle } := rfl
@[simp] theorem hardStop_aenv (s : State) : (hardStop s).aenv = Envelope.reset := rfl
@[simp] theorem hardStop_fenv (s : State) : (hardStop s).fenv = Envelope.reset := rfl
@[simp] theorem hardStop_outbuf (s : State) : (hardStop s).outbuf = s.outbuf := rfl
@[simp] theorem hardStop_inputs (s : State) : (hardStop s).inputs = s.inputs := rfl
@[simp] theorem hardStop_observed (s : State) : (hardStop s).observed = s.observed := rfl
@[simp] theorem hardStop_wait (s : State) : (hardStop s).wait = s.wait := rfl
@[simp] theorem hardStop_latches (s : State) : (hardStop s).latches = s.latches := rfl
@[simp] theorem hardStop_draws (s : State) : (hardStop s).draws = s.draws := rfl
@[simp] theorem hardStop_busyReads (s : State) : (hardStop s).busyReads = s.busyReads := rfl

/-! `hostRead` -/

@[simp] theorem hostRead_err (a : Nat) (s : State) : (hostRead a s).err = s.err := rfl
@[simp] theorem hostRead_slot (a : Nat) (s : State) : (hostRead a s).slot = s.slot := rfl
@[simp] theorem hostRead_freqArg (a : Nat) (s : State) : (hostRead a s).freqArg = s.freqArg := rfl
@[simp] theorem hostRead_lastSample (a : Nat) (s : State) : (hostRead a s).lastSample = s.lastSample := rfl
@[simp] theorem hostRead_sampleCount (a : Nat) (s : State) : (hostRead a s).sampleCount = s.sampleCount := rfl
@[simp] theorem hostRead_shadow (a : Nat) (s : State) : (hostRead a s).shadow = s.shadow := rfl
@[simp] theorem hostRead_live (a : Nat) (s : State) : (hostRead a s).live = s.live := rfl
@[simp] theorem hostRead_voice (a : Nat) (s : State) : (hostRead a s).voice = s.voice := rfl
@[simp] theorem hostRead_aenv (a : Nat) (s : State) : (hostRead a s).aenv = s.aenv := rfl
@[simp] theorem hostRead_fenv (a : Nat) (s : State) : (hostRead a s).fenv = s.fenv := rfl
@[simp] theorem hostRead_outbuf (a : Nat) (s : State) : (hostRead a s).outbuf = s.outbuf := rfl
@[simp] theorem hostRead_inputs (a : Nat) (s : State) : (hostRead a s).inputs = s.inputs := rfl
@[simp] theorem hostRead_observed (a : Nat) (s : State) : (hostRead a s).observed = (a, readValue s (regAt a)) :: s.observed := rfl
@[simp] theorem hostRead_wait (a : Nat) (s : State) : (hostRead a s).wait = s.wait := rfl
@[simp] theorem hostRead_latches (a : Nat) (s : State) : (hostRead a s).latches = s.latches := rfl
@[simp] theorem hostRead_draws (a : Nat) (s : State) : (hostRead a s).draws = s.draws := rfl
@[simp] theorem hostRead_busyReads (a : Nat) (s : State) : (hostRead a s).busyReads = if readIsFree s (regAt a) then s.busyReads + 1 else s.busyReads := rfl

/-! `takeInput` -/

@[simp] theorem takeInput_err (is : List Input) (s : State) : (takeInput is s).err = s.err := rfl
@[simp] theorem takeInput_slot (is : List Input) (s : State) : (takeInput is s).slot = s.slot := rfl
@[simp] theorem takeInput_freqArg (is : List Input) (s : State) : (takeInput is s).freqArg = s.freqArg := rfl
@[simp] theorem takeInput_lastSample (is : List Input) (s : State) : (takeInput is s).lastSample = s.lastSample := rfl
@[simp] theorem takeInput_sampleCount (is : List Input) (s : State) : (takeInput is s).sampleCount = s.sampleCount := rfl
@[simp] theorem takeInput_shadow (is : List Input) (s : State) : (takeInput is s).shadow = s.shadow := rfl
@[simp] theorem takeInput_live (is : List Input) (s : State) : (takeInput is s).live = s.live := rfl
@[simp] theorem takeInput_voice (is : List Input) (s : State) : (takeInput is s).voice = s.voice := rfl
@[simp] theorem takeInput_aenv (is : List Input) (s : State) : (takeInput is s).aenv = s.aenv := rfl
@[simp] theorem takeInput_fenv (is : List Input) (s : State) : (takeInput is s).fenv = s.fenv := rfl
@[simp] theorem takeInput_outbuf (is : List Input) (s : State) : (takeInput is s).outbuf = s.outbuf := rfl
@[simp] theorem takeInput_inputs (is : List Input) (s : State) : (takeInput is s).inputs = is := rfl
@[simp] theorem takeInput_observed (is : List Input) (s : State) : (takeInput is s).observed = s.observed := rfl
@[simp] theorem takeInput_wait (is : List Input) (s : State) : (takeInput is s).wait = s.wait - 1 := rfl
@[simp] theorem takeInput_latches (is : List Input) (s : State) : (takeInput is s).latches = s.latches := rfl
@[simp] theorem takeInput_draws (is : List Input) (s : State) : (takeInput is s).draws = s.draws := rfl
@[simp] theorem takeInput_busyReads (is : List Input) (s : State) : (takeInput is s).busyReads = s.busyReads := rfl

/-! `withFetchWord` -/

@[simp] theorem withFetchWord_err (s : State) (n w : Nat) : (s.withFetchWord n w).err = s.err := rfl
@[simp] theorem withFetchWord_slot (s : State) (n w : Nat) : (s.withFetchWord n w).slot = some (BitVec.ofNat 64 (w % 2 ^ n)) := rfl
@[simp] theorem withFetchWord_freqArg (s : State) (n w : Nat) : (s.withFetchWord n w).freqArg = s.freqArg := rfl
@[simp] theorem withFetchWord_lastSample (s : State) (n w : Nat) : (s.withFetchWord n w).lastSample = s.lastSample := rfl
@[simp] theorem withFetchWord_sampleCount (s : State) (n w : Nat) : (s.withFetchWord n w).sampleCount = s.sampleCount := rfl
@[simp] theorem withFetchWord_shadow (s : State) (n w : Nat) : (s.withFetchWord n w).shadow = s.shadow := rfl
@[simp] theorem withFetchWord_live (s : State) (n w : Nat) : (s.withFetchWord n w).live = s.live := rfl
@[simp] theorem withFetchWord_voice (s : State) (n w : Nat) : (s.withFetchWord n w).voice = s.voice := rfl
@[simp] theorem withFetchWord_aenv (s : State) (n w : Nat) : (s.withFetchWord n w).aenv = s.aenv := rfl
@[simp] theorem withFetchWord_fenv (s : State) (n w : Nat) : (s.withFetchWord n w).fenv = s.fenv := rfl
@[simp] theorem withFetchWord_outbuf (s : State) (n w : Nat) : (s.withFetchWord n w).outbuf = s.outbuf := rfl
@[simp] theorem withFetchWord_inputs (s : State) (n w : Nat) : (s.withFetchWord n w).inputs = s.inputs := rfl
@[simp] theorem withFetchWord_observed (s : State) (n w : Nat) : (s.withFetchWord n w).observed = s.observed := rfl
@[simp] theorem withFetchWord_wait (s : State) (n w : Nat) : (s.withFetchWord n w).wait = 0 := rfl
@[simp] theorem withFetchWord_latches (s : State) (n w : Nat) : (s.withFetchWord n w).latches = s.latches := rfl
@[simp] theorem withFetchWord_draws (s : State) (n w : Nat) : (s.withFetchWord n w).draws = s.draws := rfl
@[simp] theorem withFetchWord_busyReads (s : State) (n w : Nat) : (s.withFetchWord n w).busyReads = s.busyReads := rfl

/-! `withInputs` -/

@[simp] theorem withInputs_err (s : State) (is : List Input) : (s.withInputs is).err = s.err := rfl
@[simp] theorem withInputs_slot (s : State) (is : List Input) : (s.withInputs is).slot = s.slot := rfl
@[simp] theorem withInputs_freqArg (s : State) (is : List Input) : (s.withInputs is).freqArg = s.freqArg := rfl
@[simp] theorem withInputs_lastSample (s : State) (is : List Input) : (s.withInputs is).lastSample = s.lastSample := rfl
@[simp] theorem withInputs_sampleCount (s : State) (is : List Input) : (s.withInputs is).sampleCount = s.sampleCount := rfl
@[simp] theorem withInputs_shadow (s : State) (is : List Input) : (s.withInputs is).shadow = s.shadow := rfl
@[simp] theorem withInputs_live (s : State) (is : List Input) : (s.withInputs is).live = s.live := rfl
@[simp] theorem withInputs_voice (s : State) (is : List Input) : (s.withInputs is).voice = s.voice := rfl
@[simp] theorem withInputs_aenv (s : State) (is : List Input) : (s.withInputs is).aenv = s.aenv := rfl
@[simp] theorem withInputs_fenv (s : State) (is : List Input) : (s.withInputs is).fenv = s.fenv := rfl
@[simp] theorem withInputs_outbuf (s : State) (is : List Input) : (s.withInputs is).outbuf = s.outbuf := rfl
@[simp] theorem withInputs_inputs (s : State) (is : List Input) : (s.withInputs is).inputs = is := rfl
@[simp] theorem withInputs_observed (s : State) (is : List Input) : (s.withInputs is).observed = s.observed := rfl
@[simp] theorem withInputs_wait (s : State) (is : List Input) : (s.withInputs is).wait = s.wait := rfl
@[simp] theorem withInputs_latches (s : State) (is : List Input) : (s.withInputs is).latches = s.latches := rfl
@[simp] theorem withInputs_draws (s : State) (is : List Input) : (s.withInputs is).draws = s.draws := rfl
@[simp] theorem withInputs_busyReads (s : State) (is : List Input) : (s.withInputs is).busyReads = s.busyReads := rfl

/-! Envelope updates -/

@[simp] theorem envReset_eq (e : Envelope) : envReset e = Envelope.reset := rfl
@[simp] theorem envNoteOn_stage (e : Envelope) : (envNoteOn e).stage = .attack := rfl
@[simp] theorem envNoteOn_level (e : Envelope) : (envNoteOn e).level = e.level := rfl
@[simp] theorem envNoteOn_entry (e : Envelope) : (envNoteOn e).entry = e.level := rfl
@[simp] theorem envNoteOn_t (e : Envelope) : (envNoteOn e).t = F64.zero := rfl
@[simp] theorem envEnter_stage (e : Envelope) (st : Stage) : (envEnter e st).stage = st := rfl
@[simp] theorem envEnter_level (e : Envelope) (st : Stage) : (envEnter e st).level = e.level := rfl
@[simp] theorem envEnter_entry (e : Envelope) (st : Stage) : (envEnter e st).entry = e.level := rfl
@[simp] theorem envEnter_t (e : Envelope) (st : Stage) : (envEnter e st).t = F64.zero := rfl
@[simp] theorem envMove_stage (e : Envelope) (p : Adsr) (dt : F64) : (envMove e p dt).stage = e.stage := rfl
@[simp] theorem envMove_entry (e : Envelope) (p : Adsr) (dt : F64) : (envMove e p dt).entry = e.entry := rfl
@[simp] theorem envMove_t (e : Envelope) (p : Adsr) (dt : F64) : (envMove e p dt).t = F64.add e.t dt := rfl

end Sys2Proof.Machine
end

