-- ==== Sys2Proof/Laws/Units.lean ====
section
/-! SUPPORT. One lemma per shared operation that says what it can do: the command step, the note events, the envelope tick,
one rendered sample, a block of them, the scheduler. -/

namespace Sys2Proof.Machine

/-! ## Commands and the core step -/

@[simp] theorem exec_nop (s : State) : exec .nop s = .next s := rfl
@[simp] theorem exec_noteOn (n o : Nat) (s : State) :
    exec (.noteOn n o) s = .next (voiceNoteOn (keyFreq (clampNote n) (clampOctave o)) s) := rfl
@[simp] theorem exec_noteOnHz (s : State) : exec .noteOnHz s = .next (voiceNoteOn (freqOperand s.freqArg) s) := rfl
@[simp] theorem exec_noteOff (s : State) : exec .noteOff s = .next (voiceNoteOff s) := rfl
@[simp] theorem exec_setParams (s : State) : exec .setParams s = .next (commitParams s) := rfl
@[simp] theorem exec_renderSample (r : Nat) (s : State) :
    exec (.renderSample r) s = .next (renderOne (sampleRate r) s).2 := rfl
@[simp] theorem exec_renderBlock (n r : Nat) (s : State) :
    exec (.renderBlock n r) s = .next (renderFrames (sampleRate r) (clampFrames n) 0 s) := rfl
@[simp] theorem exec_hardStop (s : State) : exec .hardStop s = .next (hardStop s) := rfl

/-- A core step that ends in `t`: the word had no meaning and `BADCMD` was raised, or its instruction was executed; the slot
is empty either way. -/
theorem coreStep_cases {w : Word} {s t : State} (h : coreStep w s = .next t) :
    (∃ e, decode w = .error e ∧ t = emptySlot (raiseFlag .badCmd s)) ∨
    (∃ i u, decode w = .ok i ∧ exec i s = .next u ∧ t = emptySlot u) := by
  unfold coreStep at h
  cases hd : decode w with
  | error e =>
    rw [hd] at h
    exact .inl ⟨e, rfl, by cases h; rfl⟩
  | ok i =>
    rw [hd] at h
    simp only at h
    cases hx : exec i s with
    | next u =>
      rw [hx] at h
      exact .inr ⟨i, u, rfl, hx, by cases h; rfl⟩
    | fault f => exact f.casesOn
    | refused r => rw [hx] at h; cases h

/-- A step that ends in `t` is one of: nothing to do, a core step, a step from outside. -/
theorem step_cases {s t : State} (h : step s = .next t) :
    (s.slot = none ∧ s.inputs = [] ∧ t = s) ∨
    (∃ w, s.slot = some w ∧ (s.wait = 0 ∨ s.inputs = []) ∧ coreStep w s = .next t) ∨
    (∃ i rest, s.inputs = i :: rest ∧ (s.slot = none ∨ s.wait ≠ 0) ∧ inputStep i (takeInput rest s) = .next t) := by
  unfold step agentStep at h
  cases hs : s.slot with
  | none =>
    cases hi : s.inputs with
    | nil => rw [hs, hi] at h; exact .inl ⟨rfl, rfl, by cases h; rfl⟩
    | cons i rest => rw [hs, hi] at h; exact .inr (.inr ⟨i, rest, rfl, .inl rfl, h⟩)
  | some w =>
    cases hi : s.inputs with
    | nil => rw [hs, hi] at h; exact .inr (.inl ⟨w, rfl, .inr rfl, h⟩)
    | cons i rest =>
      rw [hs, hi] at h
      simp only at h
      by_cases hw : s.wait = 0
      · rw [if_pos hw] at h; exact .inr (.inl ⟨w, rfl, .inl hw, h⟩)
      · rw [if_neg hw] at h; exact .inr (.inr ⟨i, rest, rfl, .inr hw, h⟩)

/-- The step when it is the world outside that moves. -/
theorem step_of_input {s : State} {i : Input} {rest : List Input} (h : s.inputs = i :: rest)
    (hm : s.slot = none ∨ s.wait ≠ 0) : step s = inputStep i (takeInput rest s) := by
  unfold step agentStep
  cases hs : s.slot with
  | none => simp [h]
  | some w =>
    rcases hm with hm | hm
    · simp [hs] at hm
    · simp [h, hm]

/-- The step when it is the core that moves. -/
theorem step_of_core {s : State} {w : Word} (h : s.slot = some w) (hm : s.wait = 0 ∨ s.inputs = []) :
    step s = coreStep w s := by
  unfold step agentStep
  rw [h]
  cases hi : s.inputs with
  | nil => rfl
  | cons i rest => rcases hm with hm | hm <;> simp_all

/-- A step from outside that ends in `t`: an access within the contract, a poll or a reset. -/
theorem inputStep_cases {i : Input} {s t : State} (h : inputStep i s = .next t) :
    (∃ a n, i = .read a n ∧ inContract a n = true ∧ t = hostRead a s) ∨
    (∃ a n v, i = .write a n v ∧ inContract a n = true ∧ t = hostWrite a v s) ∨
    (i = .poll ∧ t = pollStep s) ∨ (i = .reset ∧ t = resetBlock s) := by
  cases i with
  | read a n =>
    simp only [inputStep] at h
    split at h
    · exact .inl ⟨a, n, rfl, ‹_›, by cases h; rfl⟩
    · cases h
  | write a n v =>
    simp only [inputStep] at h
    split at h
    · exact .inr (.inl ⟨a, n, v, rfl, ‹_›, by cases h; rfl⟩)
    · cases h
  | poll => exact .inr (.inr (.inl ⟨rfl, by cases h; rfl⟩))
  | reset => exact .inr (.inr (.inr ⟨rfl, by cases h; rfl⟩))

/-- Runs of the machine, one step at a time. -/
theorem run_zero (s : State) : core.run 0 s = .next s := rfl

theorem run_succ {s t : State} (k : Nat) (h : step s = .next t) : core.run (k + 1) s = core.run k t := by
  refine (Host.Core.run.eq_2 core s k).trans ?_
  have h' : core.step s = .next t := h
  rw [h']

/-! ## Host accesses -/

/-- What a host write can do: clear flags, latch or overrun, store, or nothing. -/
theorem hostWrite_cases (a : Nat) (v : Word) (s : State) :
    hostWrite a v s = clearFlags v s ∨ hostWrite a v s = writeCmd v s ∨ hostWrite a v s = setFreqArg v s ∨
    (∃ p, hostWrite a v s = shadowSet p v s) ∨ hostWrite a v s = s := by
  unfold hostWrite
  split
  · exact .inl rfl
  · exact .inr (.inl rfl)
  · exact .inr (.inr (.inl rfl))
  · exact .inr (.inr (.inr (.inl ⟨_, rfl⟩)))
  all_goals exact .inr (.inr (.inr (.inr rfl)))

/-- A write to `CMD` latches into an empty slot and raises `OVERRUN` on a full one. -/
theorem writeCmd_cases (w : Word) (s : State) :
    (s.slot = none ∧
      writeCmd w s = { s with slot := some w, wait := Config.latency s.latches, latches := s.latches + 1 }) ∨
    (∃ u, s.slot = some u ∧ writeCmd w s = raiseFlag .overrun s) := by
  unfold writeCmd
  cases hs : s.slot with
  | none => exact .inl ⟨rfl, rfl⟩
  | some u => exact .inr ⟨u, rfl, rfl⟩

/-! ## Envelopes -/

/-- What a tick does to the stage: it stays or completes, one transition at most (42_envelope.md R184, R185). -/
theorem envTick_stage (e : Envelope) (p : Adsr) (dt : F64) :
    (envTick e p dt).stage = e.stage ∨ (e.stage = .attack ∧ (envTick e p dt).stage = .decay) ∨
    (e.stage = .decay ∧ (envTick e p dt).stage = .sustain) ∨
    (e.stage = .release ∧ envTick e p dt = Envelope.reset) := by
  unfold envTick
  by_cases h : e.stage = .idle
  · rw [if_pos h]; exact .inl rfl
  · rw [if_neg h]
    unfold envComplete
    simp only [envMove_stage]
    cases hs : e.stage with
    | idle => exact absurd hs h
    | sustain => exact .inl (by simp [hs])
    | attack => simp only; split <;> simp [hs]
    | decay => simp only; split <;> simp [hs]
    | release =>
      simp only
      split
      · exact .inr (.inr (.inr ⟨trivial, rfl⟩))
      · simp [hs]

/-- The completion test changes the level only by the pin of Idle, and the entry only to the level or the pin (R185). -/
theorem envComplete_cases (e : Envelope) (p : Adsr) :
    envComplete e p = e ∨ (∃ st, (st = .decay ∨ st = .sustain) ∧ envComplete e p = envEnter e st) ∨
    envComplete e p = Envelope.reset := by
  unfold envComplete
  split
  · split
    · exact .inr (.inl ⟨.decay, .inl rfl, rfl⟩)
    · exact .inl rfl
  · split
    · exact .inr (.inl ⟨.sustain, .inr rfl, rfl⟩)
    · exact .inl rfl
  · split
    · exact .inr (.inr rfl)
    · exact .inl rfl
  · exact .inl rfl
  · exact .inl rfl

/-- A note-off takes a held envelope into Release and leaves every other as it is (R183). -/
theorem envNoteOff_cases (e : Envelope) :
    ((e.stage = .attack ∨ e.stage = .decay ∨ e.stage = .sustain) ∧
      envNoteOff e = { e with entry := e.level, stage := .release, t := F64.zero }) ∨
    ((e.stage = .idle ∨ e.stage = .release) ∧ envNoteOff e = e) := by
  unfold envNoteOff
  split <;> simp_all

/-! ## The signal chain -/

/-- The LFO's advance moves the phase, and draws into the held value at a wrap in SAMPLE_HOLD mode only (41_lfo.md R162). -/
theorem lfoAdvance_cases (live : Live) (v : Voice) (fs : F64) (d : Nat) :
    lfoAdvance live v fs d = ({ v with lfoPhase := advance v.lfoPhase live.lfoRate fs }, d) ∨
    (lfoWraps live v fs = true ∧ live.lfoWave = .sampleHold ∧
      lfoAdvance live v fs d = ({ v with lfoPhase := advance v.lfoPhase live.lfoRate fs, lfoSh := draw d }, d + 1)) := by
  unfold lfoAdvance
  by_cases h : (lfoWraps live v fs && decide (live.lfoWave = .sampleHold)) = true
  · rw [if_pos h]
    rw [Bool.and_eq_true, decide_eq_true_eq] at h
    exact .inr ⟨h.1, h.2, rfl⟩
  · rw [if_neg h]; exact .inl rfl

/-- What the chain does to the voice, field by field. -/
theorem signalChain_voice (live : Live) (v : Voice) (l fs : F64) (d : Nat) :
    let r := (signalChain live v l fs d).2.1
    r.vstate = v.vstate ∧ r.freq = v.freq ∧
    r.oscPhase = advance v.oscPhase (oscFreq live v) fs ∧
    r.subPhase = advance v.subPhase (F64.mul v.freq F64.half) fs ∧
    r.lfoPhase = advance v.lfoPhase live.lfoRate fs ∧
    (r.lfoSh = v.lfoSh ∨ ∃ k, r.lfoSh = draw k) := by
  simp only [signalChain, oscStep, subStep, lfoStep, svfStep]
  generalize hv : ({ v with
    oscPhase := advance v.oscPhase (oscFreq live v) fs
    subPhase := advance v.subPhase (F64.mul v.freq F64.half) fs } : Voice) = u
  have h1 : u.vstate = v.vstate ∧ u.freq = v.freq ∧ u.oscPhase = advance v.oscPhase (oscFreq live v) fs ∧
      u.subPhase = advance v.subPhase (F64.mul v.freq F64.half) fs ∧ u.lfoPhase = v.lfoPhase ∧ u.lfoSh = v.lfoSh := by
    subst hv; exact ⟨rfl, rfl, rfl, rfl, rfl, rfl⟩
  obtain ⟨e1, e2, e3, e4, e5, e6⟩ := h1
  rcases lfoAdvance_cases live u fs (noiseStep live d).2 with h | ⟨_, _, h⟩ <;> rw [h]
  · exact ⟨e1, e2, e3, e4, by simp only [e5], .inl e6⟩
  · exact ⟨e1, e2, e3, e4, by simp only [e5], .inr ⟨_, rfl⟩⟩

/-! ## One sample -/

/-- One tick of a voice that exists, its parts named (44_voice.md R236). -/
theorem renderVoice_eq (fs : F64) (s : State) :
    renderVoice fs s =
      let c := signalChain s.live s.voice s.fenv.level fs s.draws
      let a := envTick s.aenv s.live.amp (F64.div F64.one fs)
      (outSample s.live c.1 s.aenv.level,
       { s with
          voice := teardown a c.2.1, aenv := a, fenv := envTick s.fenv s.live.filter (F64.div F64.one fs), draws := c.2.2 }) :=
  rfl

/-- A rendered sample in Idle: +0.0, counted, nothing else (44_voice.md R237). -/
theorem renderOne_idle {s : State} (fs : F64) (h : s.voice.vstate = .idle) :
    renderOne fs s = (F64.zero, countSample F64.zero s) := by simp [renderOne, h]

/-- A rendered sample of a voice that exists. -/
theorem renderOne_voice {s : State} (fs : F64) (h : s.voice.vstate ≠ .idle) :
    renderOne fs s = ((renderVoice fs s).1, countSample (renderVoice fs s).1 (renderVoice fs s).2) := by
  unfold renderOne
  cases hv : s.voice.vstate with
  | idle => exact absurd hv h
  | sounding => rfl
  | releasing => rfl

/-- A rendered sample reads nothing but the live bank, the voice, the envelopes and the draws, so it commutes with any
change of the other fields that the sample does not write. -/
theorem renderOne_congr (fs : F64) (s : State) (err : BitVec 3) (slot : Option Word) (freqArg : Word)
    (shadow : Vector Word 21) (outbuf : Memory) (inputs : List Input) (observed : List (Nat × Word))
    (wait latches busyReads : Nat) :
    renderOne fs { s with err, slot, freqArg, shadow, outbuf, inputs, observed, wait, latches, busyReads } =
      ((renderOne fs s).1,
       { (renderOne fs s).2 with err, slot, freqArg, shadow, outbuf, inputs, observed, wait, latches, busyReads }) := by
  unfold renderOne
  cases s.voice.vstate <;> rfl

/-- What a rendered sample leaves alone (44_voice.md R236). -/
theorem renderOne_frame (fs : F64) (s : State) :
    let t := (renderOne fs s).2
    t.err = s.err ∧ t.slot = s.slot ∧ t.freqArg = s.freqArg ∧ t.shadow = s.shadow ∧ t.live = s.live ∧
    t.outbuf = s.outbuf ∧ t.inputs = s.inputs ∧ t.observed = s.observed ∧ t.wait = s.wait ∧ t.latches = s.latches ∧
    t.busyReads = s.busyReads ∧ t.voice.freq = s.voice.freq := by
  unfold renderOne
  cases hv : s.voice.vstate with
  | idle => simp
  | sounding => simp [renderVoice, teardown, hv, (signalChain_voice _ _ _ _ _).1, (signalChain_voice _ _ _ _ _).2.1]
  | releasing =>
    simp only [renderVoice, teardown, countSample]
    split <;> simp [(signalChain_voice _ _ _ _ _).2.1]

/-- Every rendered sample is counted and is the last sample (R39, R40). -/
theorem renderOne_count (fs : F64) (s : State) :
    (renderOne fs s).2.sampleCount = s.sampleCount + 1 ∧ (renderOne fs s).2.lastSample = (renderOne fs s).1 := by
  unfold renderOne
  cases s.voice.vstate <;> exact ⟨rfl, rfl⟩

/-! ## Blocks -/

@[simp] theorem renderFrames_zero (fs : F64) (i : Nat) (s : State) : renderFrames fs 0 i s = s := rfl

theorem renderFrames_succ (fs : F64) (n i : Nat) (s : State) :
    renderFrames fs (n + 1) i s = renderFrames fs n (i + 1) (outbufSet i (renderOne fs s).1 (renderOne fs s).2) := rfl

/-- The block's last sample split off. -/
theorem renderFrames_succ_last (fs : F64) (n i : Nat) (s : State) :
    renderFrames fs (n + 1) i s =
      outbufSet (i + n) (renderOne fs (renderFrames fs n i s)).1 (renderOne fs (renderFrames fs n i s)).2 := by
  induction n generalizing i s with
  | zero => rfl
  | succ n ih =>
    rw [renderFrames_succ, ih, renderFrames_succ, show i + 1 + n = i + (n + 1) by omega]

/-- An invariant that one sample and one store keep is kept by a block. -/
theorem renderFrames_keeps {P : State → Prop} (fs : F64) (hr : ∀ s, P s → P (renderOne fs s).2)
    (hs : ∀ i x s, P s → P (outbufSet i x s)) (n i : Nat) (s : State) (h : P s) : P (renderFrames fs n i s) := by
  induction n generalizing i s with
  | zero => exact h
  | succ n ih => exact ih _ _ (hs _ _ _ (hr _ h))

/-! ## The shadow bank -/

theorem shadowGet_shadowSet_same (p : Param) (v : Word) (s : State) : shadowGet (shadowSet p v s) p = v := by
  simp [shadowGet, shadowSet]

theorem Param_index_injective {p q : Param} (h : p.index = q.index) : p = q := by
  revert h; cases p <;> cases q <;> decide

theorem shadowGet_shadowSet_other {p q : Param} (v : Word) (s : State) (h : q ≠ p) :
    shadowGet (shadowSet p v s) q = shadowGet s q := by
  have : p.index.val ≠ q.index.val := fun he => h (Param_index_injective (Fin.ext he).symm)
  simp [shadowGet, shadowSet, this]

end Sys2Proof.Machine
end

