-- ==== Sys2Proof/Laws/PerInstr.lean ====
section
/-! SUPPORT. Facts about every instruction as syntax, one lemma per constructor. -/

namespace Sys2Proof.Laws.OpcodeField

/-- Bits [7:0] of an instruction's word are the opcode of its row, whatever the operands (30_encoding.md R101, R108). -/
def Statement (i : Instr) : Prop := ∃ row ∈ opcodeMap, row.op = i.op ∧ opcodeOf (encode i) = row.opcode

theorem nop : Statement .nop := ⟨_, .head _, rfl, rfl⟩

theorem noteOn (n o : Nat) : Statement (.noteOn n o) := by
  refine ⟨_, .tail _ (.head _), rfl, ?_⟩
  simp only [opcodeOf, bitField, encode, BitVec.toNat_ofNat]; omega

theorem noteOnHz : Statement .noteOnHz := ⟨_, .tail _ (.tail _ (.head _)), rfl, rfl⟩

theorem noteOff : Statement .noteOff := ⟨_, .tail _ (.tail _ (.tail _ (.head _))), rfl, rfl⟩

theorem setParams : Statement .setParams := ⟨_, .tail _ (.tail _ (.tail _ (.tail _ (.head _)))), rfl, rfl⟩

theorem renderSample (r : Nat) : Statement (.renderSample r) := by
  refine ⟨_, .tail _ (.tail _ (.tail _ (.tail _ (.tail _ (.head _))))), rfl, ?_⟩
  simp only [opcodeOf, bitField, encode, BitVec.toNat_ofNat]; omega

theorem renderBlock (f r : Nat) : Statement (.renderBlock f r) := by
  refine ⟨_, .tail _ (.tail _ (.tail _ (.tail _ (.tail _ (.tail _ (.head _)))))), rfl, ?_⟩
  simp only [opcodeOf, bitField, encode, BitVec.toNat_ofNat]; omega

theorem hardStop : Statement .hardStop :=
  ⟨_, .tail _ (.tail _ (.tail _ (.tail _ (.tail _ (.tail _ (.tail _ (.head _))))))), rfl, rfl⟩

end Sys2Proof.Laws.OpcodeField
end

