-- ==== Sys2Proof/Tests/Slice0.lean ====
section
/-! SUPPORT. Tests: expected results are those of the spec (95_test_vectors.md, named by its vector, or the rule's own
example); then one witness for every statement that has hypotheses. -/

namespace Sys2Proof.Tests

set_option Elab.async false

open Sys2Proof Sys2Proof.Machine Sys2Proof.Claims

/-! ## Helpers -/

/-- A field of the next state. -/
def after {α : Type} (o : Host.Outcome State Fault Refusal) (f : State → α) : Option α :=
  match o with
  | .next t => some (f t)
  | .fault _ => none
  | .refused _ => none

/-- A voice that sounds at 440 Hz, both envelopes at level 0.8 and time 0.5 in the given stage. -/
def playing (v : VState) (st : Stage) : State :=
  { State.reset with
    voice := ⟨v, ⟨0x407B800000000000⟩, ⟨0x3FEC000000000000⟩, ⟨0x3FDC000000000000⟩, ⟨0x3FEE000000000000⟩, ⟨0x3FE0000000000000⟩, ⟨0x3FD0000000000000⟩, ⟨0xBFE0000000000000⟩⟩
    aenv := ⟨st, ⟨0x3FE999999999999A⟩, ⟨0x3FF0000000000000⟩, ⟨0x3FE0000000000000⟩⟩
    fenv := ⟨st, ⟨0x3FE999999999999A⟩, ⟨0x3FF0000000000000⟩, ⟨0x3FE0000000000000⟩⟩ }

/-- A word is latched, and `n` host steps may still come before its core step. -/
def latched (s : State) (w : Word) (n : Nat) (is : List Input) : State := { s with slot := some w, wait := n, inputs := is }

/-- The live bank after reset with another LFO. -/
def lfoBank (w : LfoWave) (rate depth : F64) : Live := { Live.reset with lfoWave := w, lfoRate := rate, lfoDepth := depth }

/-- A voice with the given LFO phase and held value. -/
def lfoVoice (phase sh : F64) : Voice := { Voice.reset with lfoPhase := phase, lfoSh := sh }

/-! ## WellFormed: one ill-formed term for each check (30_encoding.md R111) -/

theorem test_wf_note : ¬ (Instr.noteOn 256 4).WellFormed := by decide
theorem test_wf_octave : ¬ (Instr.noteOn 0 256).WellFormed := by decide
theorem test_wf_frames : ¬ (Instr.renderBlock 16777216 44100).WellFormed := by decide
theorem test_wf_block_rate : ¬ (Instr.renderBlock 1 4294967296).WellFormed := by decide
theorem test_wf_sample_rate : ¬ (Instr.renderSample 4294967296).WellFormed := by decide
theorem test_assembler_rejects : assemble (.noteOn 256 4) = none := by decide

/-! ## Decoding (vectors D1–D19; the fields written out bit by bit where R103–R105 lay them) -/

theorem test_decode_nop : decode 0x0000000000000000 = .ok .nop := by decide
theorem test_decode_noteOn : decode (0b0000000000000000000000000000000000000000#40 ++ 0b00000101#8 ++ 0b00001001#8 ++ 0b00000001#8)
    = .ok (.noteOn 9 5) := by decide
theorem test_decode_noteOn_unclamped : decode 0x00000000000F0C01 = .ok (.noteOn 12 15) := by decide
theorem test_decode_noteOnHz : decode 0x0000000000000002 = .ok .noteOnHz := by decide
theorem test_decode_noteOff : decode 0x0000000000000003 = .ok .noteOff := by decide
theorem test_decode_setParams : decode 0x0000000000000004 = .ok .setParams := by decide
theorem test_decode_renderSample : decode (0b00000000000000001010110001000100#32 ++ 0#24 ++ 0b00000101#8)
    = .ok (.renderSample 44100) := by decide
theorem test_decode_renderBlock : decode (0b00000000000000001010110001000100#32 ++ 0b000000000000010000000000#24 ++ 0b00000110#8)
    = .ok (.renderBlock 1024 44100) := by decide
theorem test_decode_renderBlock_full : decode 0xFFFFFFFFFFFFFF06 = .ok (.renderBlock 16777215 4294967295) := by decide
theorem test_decode_hardStop : decode 0x0000000000000007 = .ok .hardStop := by decide
/-- D5–D9 and D12. -/
theorem test_decode_reserved :
    [0x0000000001040001, 0x0000000000000008, 0x00000000000000FF, 0x0000000000000103, 0x8000000000000000, 0x0000AC4400000105].map
      (fun w => (decode w).isOk) = [false, false, false, false, false, false] := by decide
/-- "Assembler" under D19. -/
theorem test_assemble :
    [Instr.noteOn 9 5, .renderBlock 8 128, .renderSample 1000, .renderBlock 2048 1000, .renderBlock 1092 44100].map assemble =
      [some 0x0000000000050901, some 0x0000008000000806, some 0x000003E800000005, some 0x000003E800080006,
        some 0x0000AC4400044406] := by decide
theorem test_decodeTableWord : decodeTableWord 64 0x0000AC4400040006 = some (.renderBlock 1024 44100) := by decide
theorem test_decodeTableWord_short : decodeTableWord 8 0x03 = some .noteOff := by decide
/-- The bytes after the command stay (R100: eight bytes, one length). -/
theorem test_decodeBytes : decodeBytes [0x01, 0x09, 0x05, 0, 0, 0, 0, 0, 0x55] = some (.ok (.noteOn 9 5), [0x55]) := by decide

/-! ## Operands (R107, vectors D3, D4, D11, D15–D17, C1) -/

theorem test_clamps : (clampNote 12, clampOctave 15, clampOctave 0, clampFrames 16777215, clampFrames 0) = (11, 6, 2, 2048, 0) := by
  decide
theorem test_sampleRate : (sampleRate 0, sampleRate 44100, sampleRate 4294967295) = (⟨0x4054000000000000⟩, ⟨0x40E5888000000000⟩, ⟨0x41EFFFFFFFE00000⟩) := by
  decide +kernel
/-- C1: -5, NaN, +inf, 1e9, -0.0 and 440. -/
theorem test_freqOperand :
    [0xC014000000000000, 0x7FF8000000000000, 0x7FF0000000000000, 0x41CDCD6500000000, 0x8000000000000000, 0x407B800000000000].map
      freqOperand = [F64.zero, F64.zero, ⟨0x40D3880000000000⟩, ⟨0x40D3880000000000⟩, F64.negZero, ⟨0x407B800000000000⟩] := by decide +kernel
/-- S1: note 9 of octave 5 under every `EXP2`; key indexes 14 and -45 are the ends of R113's range. -/
theorem test_key : keyFreq 9 5 = ⟨0x407B800000000000⟩ ∧ keyIndex 11 6 = 14 ∧ keyIndex 0 2 = -45 := by decide +kernel

/-! ## Arithmetic (00_scope.md R6, R9) -/

/-- R9's decimals are the patterns in the model. -/
theorem test_constants :
    F64.nearest false 3141592653589793 1000000000000000 = Config.pi ∧ F64.nearest false 1 1000 = Config.envEpsilon ∧
    F64.nearest false 6907755278982137 1000000000000000 = Config.lnInvEps ∧ F64.mul F64.two Config.pi = Config.twoPi ∧
    F64.nearest false 1000 1 = Config.lfoCutoffRangeHz := by decide +kernel
/-- Ties go to even: 1 + 2^-53 is 1, and (1 + 2^-52) + 2^-53 is 1 + 2^-51. -/
theorem test_add_ties : F64.add F64.one ⟨0x3CA0000000000000⟩ = F64.one ∧
    F64.add ⟨0x3FF0000000000001⟩ ⟨0x3CA0000000000000⟩ = ⟨0x3FF0000000000002⟩ := by decide +kernel
/-- Overflow, a zero difference, infinity less infinity, and the smallest subnormal halved. -/
theorem test_edges : F64.add ⟨0x7FEFFFFFFFFFFFFF⟩ ⟨0x7FEFFFFFFFFFFFFF⟩ = ⟨0x7FF0000000000000⟩ ∧
    F64.sub F64.one F64.one = F64.zero ∧ F64.mul ⟨1⟩ F64.half = F64.zero ∧
    F64.div F64.negOne F64.zero = ⟨0xFFF0000000000000⟩ ∧ F64.floor ⟨0x4006000000000000⟩ = ⟨0x4000000000000000⟩ := by decide +kernel
/-- Infinities and the signs of zeros: inf / -1, 1 / -inf, -0 + -0, -1 * 0; the floors of -0.5 and -0.0. -/
theorem test_infinity_zero :
    F64.div ⟨0x7FF0000000000000⟩ F64.negOne = ⟨0xFFF0000000000000⟩ ∧ F64.div F64.one ⟨0xFFF0000000000000⟩ = F64.negZero ∧
    F64.add F64.negZero F64.negZero = F64.negZero ∧ F64.mul F64.negOne F64.zero = F64.negZero ∧
    F64.floor ⟨0xBFE0000000000000⟩ = F64.negOne ∧ F64.floor F64.negZero = F64.negZero := by decide +kernel
theorem test_nan : (F64.sub ⟨0x7FF0000000000000⟩ ⟨0x7FF0000000000000⟩).isNaN = true := F64.isNaN_nan _ _ _
/-- F3's 1/30, and comparisons with a NaN and of the two zeros. -/
theorem test_div_compare : F64.div F64.one ⟨0x403E000000000000⟩ = ⟨0x3FA1111111111111⟩ ∧ F64.le ⟨0x7FF8000000000000⟩ F64.one = false ∧
    F64.eq F64.negZero F64.zero = true := by decide +kernel

/-! ## Oscillators (vectors O1–O4) -/

/-- O1, TRIANGLE. -/
theorem test_triangle :
    [F64.zero, ⟨0x3FC0000000000000⟩, ⟨0x3FD0000000000000⟩, ⟨0x3FD8000000000000⟩, ⟨0x3FE0000000000000⟩, ⟨0x3FE4000000000000⟩, ⟨0x3FE8000000000000⟩, ⟨0x3FEC000000000000⟩, ⟨0x3FEFFFFFFFFFFFFF⟩].map triangleWave =
      [F64.zero, ⟨0x3FE0000000000000⟩, ⟨0x3FF0000000000000⟩, ⟨0x3FE0000000000000⟩, F64.zero, ⟨0xBFE0000000000000⟩, ⟨0xBFF0000000000000⟩, ⟨0xBFE0000000000000⟩, ⟨0xBCC0000000000000⟩] := by decide +kernel
/-- O1, SAWTOOTH. -/
theorem test_sawtooth :
    [F64.zero, ⟨0x3FD0000000000000⟩, ⟨0x3FE0000000000000⟩, ⟨0x3FE8000000000000⟩, ⟨0x3FEFFFFFFFFFFFFF⟩].map sawtoothWave =
      [⟨0xBFF0000000000000⟩, ⟨0xBFE0000000000000⟩, F64.zero, ⟨0x3FE0000000000000⟩, ⟨0x3FEFFFFFFFFFFFFE⟩] := by decide +kernel
/-- O1, SQUARE at widths 0.5, 0.0 and 1.0. -/
theorem test_square :
    squareWave ⟨0x3FD8000000000000⟩ F64.half = F64.one ∧ squareWave F64.half F64.half = F64.negOne ∧
    squareWave F64.zero F64.zero = F64.negOne ∧ squareWave ⟨0x3FEFFFFFFFFFFFFF⟩ F64.one = F64.one := by decide +kernel
/-- O2. -/
theorem test_advance :
    advance ⟨0x3FEC000000000000⟩ ⟨0x4030000000000000⟩ ⟨0x4060000000000000⟩ = F64.zero ∧ advance ⟨0x3FE0000000000000⟩ ⟨0x4058000000000000⟩ ⟨0x4050000000000000⟩ = F64.zero ∧
    advance ⟨0x3FD3333333333333⟩ ⟨0x4059000000000000⟩ ⟨0x4054000000000000⟩ = ⟨0x3FE199999999999A⟩ ∧ advance F64.zero ⟨0x40D3880000000000⟩ ⟨0x4054000000000000⟩ = F64.zero ∧
    advance ⟨0x3FD0000000000000⟩ F64.zero ⟨0x40E5888000000000⟩ = ⟨0x3FD0000000000000⟩ ∧ advance ⟨0x3FECCCCCCCCCCCCD⟩ ⟨0x407B800000000000⟩ ⟨0x40E5888000000000⟩ = ⟨0x3FED1E88C3F9F67B⟩ := by decide +kernel
/-- O3 at DETUNE 0, exact under every `EXP2`. -/
theorem test_detune_zero : oscFreq Live.reset { Voice.reset with freq := ⟨0x4059000000000000⟩ } = ⟨0x4059000000000000⟩ := by decide +kernel
/-- O4. -/
theorem test_osc_sub :
    oscStep { Live.reset with oscWave := .sawtooth } { Voice.reset with freq := ⟨0x4030000000000000⟩ } ⟨0x4060000000000000⟩ =
      (⟨0xBFF0000000000000⟩, { Voice.reset with freq := ⟨0x4030000000000000⟩, oscPhase := ⟨0x3FC0000000000000⟩ }) ∧
    subStep { Voice.reset with freq := ⟨0x4030000000000000⟩, subPhase := ⟨0x3FDC000000000000⟩ } ⟨0x4060000000000000⟩ =
      (⟨0x3FF0000000000000⟩, { Voice.reset with freq := ⟨0x4030000000000000⟩, subPhase := ⟨0x3FE0000000000000⟩ }) := by decide +kernel

/-! ## LFO (vectors L1–L6, L10) -/

/-- L1 and L2. -/
theorem test_lfo_square :
    lfoStep (lfoBank .square ⟨0x4014000000000000⟩ ⟨0x3FE0000000000000⟩) (lfoVoice ⟨0x3FD0000000000000⟩ F64.zero) ⟨0x40E5888000000000⟩ 7 =
      (⟨0x3FF0000000000000⟩, lfoVoice ⟨0x3FD001DB8B6F9267⟩ F64.zero, 7) ∧
    lfoStep (lfoBank .square F64.zero ⟨0x3FE0000000000000⟩) (lfoVoice ⟨0x3FD0000000000000⟩ F64.zero) ⟨0x40E5888000000000⟩ 7 =
      (F64.zero, lfoVoice ⟨0x3FD0000000000000⟩ F64.zero, 7) ∧
    lfoCutoff (lfoBank .square ⟨0x4014000000000000⟩ ⟨0x3FE0000000000000⟩) ⟨0x3FF0000000000000⟩ = ⟨0x407F400000000000⟩ := by decide +kernel
/-- L4: the wrap draws once, and the old value shows. -/
theorem test_lfo_wrap :
    let r := lfoStep (lfoBank .sampleHold ⟨0x4020000000000000⟩ ⟨0x3FE0000000000000⟩) (lfoVoice ⟨0x3FEE000000000000⟩ F64.zero) ⟨0x4060000000000000⟩ 7
    r.1 = F64.zero ∧ r.2.1.lfoPhase = F64.zero ∧ r.2.2 = 8 := by decide +kernel
theorem test_lfo_draw :
    (lfoAdvance (lfoBank .sampleHold ⟨0x4020000000000000⟩ ⟨0x3FE0000000000000⟩) (lfoVoice ⟨0x3FEE000000000000⟩ F64.zero) ⟨0x4060000000000000⟩ 7).1.lfoSh = draw 7 := by
  unfold lfoAdvance
  rw [if_pos (by decide +kernel)]
/-- L5 and L6: no draw. -/
theorem test_lfo_hold :
    lfoStep (lfoBank .sampleHold ⟨0x4020000000000000⟩ ⟨0x3FE0000000000000⟩) (lfoVoice F64.zero ⟨0x3FE0000000000000⟩) ⟨0x4060000000000000⟩ 7 =
      (⟨0x3FE0000000000000⟩, lfoVoice ⟨0x3FB0000000000000⟩ ⟨0x3FE0000000000000⟩, 7) ∧
    lfoStep (lfoBank .sampleHold F64.zero ⟨0x3FE0000000000000⟩) (lfoVoice ⟨0x3FEE000000000000⟩ ⟨0x3FE6666666666666⟩) ⟨0x4060000000000000⟩ 7 =
      (F64.zero, lfoVoice ⟨0x3FEE000000000000⟩ ⟨0x3FE6666666666666⟩, 7) := by decide +kernel

/-! ## Envelopes (vectors E5, E7, E8; R183's example) -/

/-- E7. -/
theorem test_env_idle : envTick Envelope.reset Live.reset.amp ⟨0x3F50624DD2F1A9FC⟩ = Envelope.reset := by decide +kernel
/-- E8. -/
theorem test_env_retrigger : envNoteOn ⟨.sustain, ⟨0x3FE999999999999A⟩, ⟨0x3FF0000000000000⟩, ⟨0x3FE0000000000000⟩⟩ = ⟨.attack, ⟨0x3FE999999999999A⟩, ⟨0x3FE999999999999A⟩, F64.zero⟩ := by decide
theorem test_env_note_off : envNoteOff ⟨.attack, ⟨0x3FBEB851EB851EB8⟩, F64.zero, ⟨0x3FE0000000000000⟩⟩ = ⟨.release, ⟨0x3FBEB851EB851EB8⟩, ⟨0x3FBEB851EB851EB8⟩, F64.zero⟩ := by decide
/-- R185: the elapsed test ends a release whatever the level. -/
theorem test_env_release_elapsed : envComplete ⟨.release, ⟨0x3FE999999999999A⟩, ⟨0x3FF0000000000000⟩, ⟨0x3FC999999999999A⟩⟩ Live.reset.amp = Envelope.reset := by
  decide +kernel
/-- E1, tick 10: 1 - 0.999 is above the epsilon, and the elapsed test fires. -/
theorem test_env_attack_elapsed :
    envComplete ⟨.attack, ⟨0x3FEFF7CED916872B⟩, F64.zero, ⟨0x3F847AE147AE147C⟩⟩ Live.reset.amp = ⟨.decay, ⟨0x3FEFF7CED916872B⟩, ⟨0x3FEFF7CED916872B⟩, F64.zero⟩ ∧
    envComplete ⟨.attack, ⟨0x3FEFF7CED916872B⟩, F64.zero, ⟨0x3F826E978D4FDF3B⟩⟩ Live.reset.amp = ⟨.attack, ⟨0x3FEFF7CED916872B⟩, F64.zero, ⟨0x3F826E978D4FDF3B⟩⟩ := by
  decide +kernel

/-! ## Filter (vectors F1, F3; R214's example) -/

theorem test_cutoffClamp :
    cutoffClamp ⟨0x40CD4C0000000000⟩ ⟨0x40E5888000000000⟩ = ⟨0x40C5888000000000⟩ ∧ cutoffClamp ⟨0xC072C00000000000⟩ ⟨0x40E5888000000000⟩ = ⟨0x4034000000000000⟩ ∧
    cutoffClamp ⟨0x40CD4C0000000000⟩ ⟨0x4054000000000000⟩ = ⟨0x4034000000000000⟩ := by decide +kernel
theorem test_qCoef :
    [F64.zero, ⟨0x3FD0000000000000⟩, ⟨0x3FE0000000000000⟩, ⟨0x4000000000000000⟩, ⟨0x403E000000000000⟩].map (fun r => qCoef { Live.reset with resonance := r }) =
      [⟨0x4000000000000000⟩, ⟨0x4000000000000000⟩, ⟨0x4000000000000000⟩, ⟨0x3FE0000000000000⟩, ⟨0x3FA1111111111111⟩] := by decide +kernel
theorem test_svf :
    svfB Voice.reset F64.one F64.one F64.half = F64.one ∧ svfL Voice.reset F64.one F64.one = F64.one ∧
    svfOut .highpass F64.one F64.half F64.one F64.one = ⟨0xBFE0000000000000⟩ := by decide +kernel

/-! ## Commands (vectors V1, C2–C8, E8; the rules' examples) -/

/-- R268. -/
theorem test_nop : step (latched State.reset 0x0 0 []) = .next State.reset := rfl
/-- R261 from Idle; C7: STATUS 37. -/
theorem test_noteOn : after (exec (.noteOn 9 5) State.reset) (fun t => (t.voice.freq, statusWord t)) = some (⟨0x407B800000000000⟩, 37) := by
  decide +kernel
/-- R240, E8. -/
theorem test_noteOn_retrigger :
    after (exec (.noteOn 9 5) (playing .releasing .release)) (fun t => (t.voice.oscPhase, t.aenv, t.voice.vstate)) =
      some (⟨0x3FEC000000000000⟩, ⟨.attack, ⟨0x3FE999999999999A⟩, ⟨0x3FE999999999999A⟩, F64.zero⟩, .sounding) := by decide +kernel
/-- P3: a negative frequency. -/
theorem test_noteOnHz :
    after (exec .noteOnHz { State.reset with freqArg := 0xC014000000000000 }) (fun t => (t.voice.freq, t.voice.vstate)) =
      some (F64.zero, .sounding) := by decide +kernel
/-- C7: STATUS 146. -/
theorem test_noteOff : after (exec .noteOff (playing .sounding .sustain)) statusWord = some 146 := by decide +kernel
theorem test_noteOff_idle : exec .noteOff State.reset = .next State.reset := rfl
/-- C2, C3 and P3. -/
theorem test_setParams :
    after (exec .setParams { State.reset with
        shadow := (((State.reset.shadow.set 6 7).set 7 0x7FF8000000000000).set 8 0x4046800000000000).set 1 0xFFF0000000000000 })
      (fun t => (t.live.filterType, t.live.cutoff, t.live.resonance, t.live.pulseWidth, t.err, t.shadow[6])) =
      some (.lowpass, ⟨0x408F400000000000⟩, ⟨0x403E000000000000⟩, F64.zero, 1, 7) := by decide +kernel
/-- R41, R110: code 4 of `LFO_WAVE` is SAMPLE_HOLD, code 3 of `OSC_WAVE` SQUARE, code 2 of `FILTER_TYPE` is HIGHPASS. -/
theorem test_setParams_codes :
    after (exec .setParams { State.reset with shadow := ((State.reset.shadow.set 18 4).set 0 3).set 6 2 })
      (fun t => (t.live.lfoWave, t.live.oscWave, t.live.filterType)) = some (.sampleHold, .square, .highpass) := by decide +kernel
/-- C3: the whole register must match. -/
theorem test_sanitize :
    [sanitize .lfoWave 2, sanitize .oscWave 2, sanitize .oscWave 0x0000000100000000, sanitize .aenvAttack 0] =
      [(0, true), (2, false), (0, true), (0x3F50624DD2F1A9FC, false)] := by decide +kernel
/-- V1. -/
theorem test_renderSample_idle :
    exec (.renderSample 44100) State.reset = .next { State.reset with sampleCount := 1 } := rfl
/-- O2, L4 inside a whole tick: phases advance and the noise takes no draw. -/
theorem test_renderSample_phases :
    after (exec (.renderSample 1760) (playing .sounding .sustain)) (fun t => (t.voice.oscPhase, t.voice.subPhase, t.sampleCount)) =
      some (⟨0x3FC0000000000000⟩, ⟨0x3FE2000000000000⟩, 1) := by decide +kernel
/-- D16. -/
theorem test_renderBlock_none : exec (.renderBlock 0 44100) (playing .sounding .attack) = .next (playing .sounding .attack) := rfl
/-- R266: an idle block of three samples clears three elements and keeps the fourth. -/
theorem test_renderBlock_idle :
    after (exec (.renderBlock 3 128) { State.reset with outbuf := [(0x1017, 0x3F), (0x101F, 0x3F)] })
      (fun t => (t.outbuf, t.sampleCount)) = some ([(0x101F, 0x3F)], 3) := by decide +kernel
/-- C8. -/
theorem test_hardStop :
    after (exec .hardStop (playing .sounding .attack)) (fun t => (statusWord t, t.aenv.level, t.lastSample, t.voice.oscPhase, t.voice.fltL)) =
      some (0, F64.zero, F64.zero, ⟨0x3FEC000000000000⟩, ⟨0x3FD0000000000000⟩) := by decide +kernel

/-! ## Steps, registers and errors (vectors C4–C7, P3, P5) -/

/-- D6: BADCMD and nothing else. -/
theorem test_step_reserved : step (State.reset.withFetchWord 64 0x8) = .next { State.reset with err := 0b010 } := rfl
theorem test_withFetchWord :
    after (step (State.reset.withFetchWord 64 0x0000000000050901)) (fun t => (t.voice.freq, t.slot)) = some (⟨0x407B800000000000⟩, none) := by
  decide +kernel
/-- P5, first outcome: the core step comes after the second write. -/
theorem test_overrun :
    after (step (latched State.reset 0x3 1 [.write 0x018 8 0x0000000000040001])) (fun t => (t.err, t.slot)) =
      some (0b100, some 0x3) := by decide +kernel
/-- P5, second outcome: the core step comes before it. -/
theorem test_no_overrun :
    after (step (latched State.reset 0x3 0 [.write 0x018 8 0x0000000000040001])) (fun t => (t.err, t.slot, t.inputs)) =
      some (0, none, [.write 0x018 8 0x0000000000040001]) := by decide +kernel
/-- C5. -/
theorem test_err_clear : (clearFlags 0x1 { State.reset with err := 0b011 }).err = 0b010 ∧
    (clearFlags 0xFFFFFFFFFFFFFFF8 { State.reset with err := 0b011 }).err = 0b011 := by decide
/-- C6. -/
theorem test_registers :
    [0x000, 0x018, 0x038, 0x0E8, 0x068, 0x7FF8].map (fun a => readValue State.reset (regAt a)) =
      [0x5348313031434F52, 0, 0, 0, 0x3FF0000000000000, 0] := by decide +kernel
/-- C6. -/
theorem test_ro_write : hostWrite 0x000 123 State.reset = State.reset ∧ hostWrite 0x1000 1 State.reset = State.reset := by decide
/-- C7. -/
theorem test_status :
    [State.reset, playing .sounding .decay, playing .sounding .sustain, { State.reset with err := 1 },
      latched State.reset 0 0 []].map statusWord = [0, 73, 109, 512, 256] := by decide +kernel
/-- R72: the bytes of `ID`. -/
theorem test_bytes : [0, 1, 6, 7].map (windowByte State.reset) = [0x52, 0x4F, 0x48, 0x53] := by decide
/-- R49: element 1 of `OUTBUF` is little-endian at 0x1008. -/
theorem test_outbuf : outbufGet { State.reset with outbuf := [(0x100E, 0xF0), (0x100F, 0x3F)] } 1 = F64.one ∧
    (outbufSet 1 F64.one State.reset).outbuf = [(0x100E, 0xF0), (0x100F, 0x3F)] := by decide +kernel
/-- `wait` reads again while `BUSY` is 1, and once more when it is 0. -/
theorem test_poll :
    after (step (latched State.reset 0x3 5 [.poll])) (fun t => t.inputs) = some [.poll] ∧
    after (step (State.reset.withInputs [.poll])) (fun t => (t.inputs, t.observed)) = some ([], [(0x008, 0)]) := by decide +kernel
/-- R112: `play_hz 440.0`. -/
theorem test_play_hz : stmtInputs (.playHz ⟨0x407B800000000000⟩) =
    some [.poll, .write 0x020 8 0x407B800000000000, .poll, .write 0x018 8 0x2, .poll] := by decide
/-- R300: a latched command is discarded unexecuted. -/
theorem test_reset : step (latched (playing .sounding .attack) 0x7 1 [.reset]) = .next State.reset := rfl

/-! ## Witnesses: states and operands that meet the hypotheses of each statement -/

/-- Finite operands: a sum that overflows and one that is a zero, a quotient by a number and one by zero, -/
theorem witness_ArithmeticIsCorrectlyRounded :
    let m : F64 := ⟨0x7FEFFFFFFFFFFFFF⟩
    m.isFinite = true ∧ overflowBound ≤ (m.value + m.value).natAbs ∧ (m.value - m.value).natAbs < overflowBound ∧
    m.value - m.value = 0 ∧ F64.zero.isFinite = true ∧ F64.zero.value = 0 ∧ m.value ≠ 0 := by decide +kernel

/-- infinite ones that give no NaN, and ones that do; a floor of each kind. -/
theorem witness_ArithmeticIsCorrectlyRounded_infinite :
    let p : F64 := ⟨0x7FF0000000000000⟩
    let n : F64 := ⟨0xFFF0000000000000⟩
    p.isInf = true ∧ n.isInf = true ∧ (F64.add p F64.one).isNaN = false ∧ (F64.sub F64.one n).isNaN = false ∧
    (F64.mul p n).isNaN = false ∧ (F64.div p F64.zero).isNaN = false ∧ (F64.div F64.one n).isNaN = false ∧
    p.sign ≠ n.sign ∧ F64.zero.isZero = true ∧ F64.one.isFinite = true := by decide +kernel

theorem witness_TranscendentalsObeyTheirLaws :
    ∃ x : F64, x.isFinite = true ∧ F64.le x F64.zero = true := ⟨⟨0xFFEFFFFFFFFFFFFF⟩, by decide +kernel⟩

theorem witness_DrawsAreInRangeAndTakenWhenEnabled : ∃ a b : Live,
    F64.eq a.noiseLevel F64.zero = false ∧ F64.eq b.noiseLevel F64.zero = true :=
  ⟨{ Live.reset with noiseLevel := F64.one }, { Live.reset with noiseLevel := F64.negZero }, by decide +kernel⟩

/-- The last element of `OUTBUF` and the ends of the reserved ranges. -/
theorem witness_WindowMapIsThatOfTheTable : regAt 0x4FF8 = .outbuf 2047 ∧
    [0x038, 0x0E8, 0x0F8, 0x168, 0x0FF8, 0x5000, 0x7FF8].map regAt = List.replicate 7 .reserved := by decide

theorem witness_RegistersReadTheirContents : (playing .sounding .attack).slot = none := rfl

theorem witness_ErrorFlagsAreSticky : ∃ s t : State, step s = .next t ∧ s.err.getLsbD 2 = true ∧ takes s (.write 0x010 8 3) :=
  ⟨{ State.reset with err := 0b110, inputs := [.write 0x010 8 3] }, _, rfl, rfl, rfl, .inl rfl⟩

theorem witness_ErrorFlagsHaveTheirCauses :
    (∃ s t : State, step s = .next t ∧ t.err.getLsbD 0 = true ∧ s.err = 0) ∧
    (∃ s t : State, step s = .next t ∧ t.err.getLsbD 1 = true ∧ s.err = 0) ∧
    (∃ s t : State, step s = .next t ∧ t.err.getLsbD 2 = true ∧ s.err = 0) :=
  ⟨⟨latched { State.reset with shadow := State.reset.shadow.set 18 2 } 0x4 0 [], _, rfl, by decide +kernel, rfl⟩,
   ⟨latched State.reset 0x108 0 [], _, rfl, rfl, rfl⟩,
   ⟨latched State.reset 0x3 1 [.write 0x018 8 0], _, rfl, rfl, rfl⟩⟩

theorem witness_CmdWriteLatchesOrOverruns :
    (State.reset.withInputs [.write 0x018 8 3]).inputs = .write 0x018 8 3 :: [] ∧ (State.reset.withInputs [.write 0x018 8 3]).slot = none ∧
    (latched State.reset 0x3 1 [.write 0x018 8 4]).slot.isSome = true ∧ (latched State.reset 0x3 1 [.write 0x018 8 4]).wait ≠ 0 := by
  decide

/-- `ERR`, `FREQ_ARG`, the first and the last parameter, and the two ends of what ignores writes; idle and while busy. -/
theorem witness_HostWritesStoreClearOrAreIgnored :
    (∀ a ∈ [0x010, 0x020, 0x040, 0x0E0, 0x000, 0x7FF8], aligned a 8) ∧
    hostMoves (State.reset.withInputs [.write 0x7FF8 8 1]) ∧ hostMoves (latched State.reset 0x3 1 [.write 0x000 8 1]) ∧
    [0x010, 0x020, 0x040, 0x0E0, 0x000, 0x7FF8].map regAt =
      [.err, .freqArg, .param .oscWave, .param .lfoDepth, .id, .reserved] :=
  ⟨by unfold aligned; decide, .inl rfl, .inr (by decide), by decide⟩

theorem witness_SampleCountCountsRenderedSamples : ∃ s t : State, step s = .next t ∧ t.sampleCount = s.sampleCount + 1 ∧
    s.sampleCount = 0xFFFFFFFFFFFFFFFF := ⟨latched { State.reset with sampleCount := 0xFFFFFFFFFFFFFFFF } 0x5 0 [], _, rfl, rfl, rfl⟩

theorem witness_ShadowRegistersReadBackAsWritten :
    (State.reset.withInputs [.write 0x0E0 8 5]).inputs = .write (0x040 + 8 * Param.lfoDepth.index.val) 8 5 :: [] ∧
    hostMoves (State.reset.withInputs [.write 0x0E0 8 5]) := ⟨rfl, .inl rfl⟩

theorem witness_LiveBankAndOutputsHaveTheirWriters : ∃ s t : State, step s = .next t ∧ t.lastSample ≠ s.lastSample :=
  ⟨latched { State.reset with lastSample := F64.one } 0x7 0 [], _, rfl, by decide⟩

/-- A state that sounds meets the invariants, -/
theorem playing_invariants : (playing .sounding .sustain).Inv ∧ (playing .sounding .sustain).PhasesOk := by
  have he : (⟨.sustain, ⟨0x3FE999999999999A⟩, ⟨0x3FF0000000000000⟩, ⟨0x3FE0000000000000⟩⟩ : Envelope).Ok :=
    ⟨by decide +kernel, by decide +kernel, by decide +kernel, fun h => by cases h⟩
  exact ⟨⟨⟨rfl, rfl⟩, he, he, by decide +kernel, by decide +kernel, by decide +kernel,
    fun p => by cases p <;> decide +kernel, rfl, fun c hc => by cases hc⟩, by decide +kernel, by decide +kernel⟩

/-- and so it does with a command latched. -/
theorem latched_invariants (w : Word) : (latched (playing .sounding .sustain) w 0 []).Inv :=
  have h := playing_invariants.1
  ⟨h.stages, h.aenv, h.fenv, h.lfoPhase, h.lfoSh, h.freq, h.live, h.outbuf⟩

theorem witness_EveryStepKeepsTheInvariants : ∃ s t : State, s.Inv ∧ step s = .next t ∧ s.voice.vstate = .sounding :=
  ⟨latched (playing .sounding .sustain) 0x3 0 [], _, latched_invariants 0x3, rfl, rfl⟩

/-- The detuned frequency is finite where `EXP2` is fixed, at DETUNE 0. -/
theorem witness_EveryStepKeepsThePhasesInRange : ∃ s t : State, s.Inv ∧ s.PhasesOk ∧ s.FreqsFinite ∧ step s = .next t :=
  ⟨latched (playing .sounding .sustain) 0x0000AC4400000005 0 [], _, latched_invariants _,
    ⟨playing_invariants.2.osc, playing_invariants.2.sub⟩, ⟨by decide +kernel, by decide +kernel⟩, rfl⟩

theorem witness_AccessOutsideTheContractIsRefused :
    ¬ aligned 0x010 4 ∧ ¬ aligned 0x004 8 ∧ ¬ aligned 0x8000 8 ∧ aligned 0x7FF8 8 ∧
    hostMoves (State.reset.withInputs [.read 0x8000 8]) ∧ hostMoves (latched State.reset 0 1 [.write 0x010 4 0]) :=
  ⟨by unfold aligned; decide, by unfold aligned; decide, by unfold aligned; decide, by unfold aligned; decide, .inl rfl,
    .inr (by decide)⟩

theorem witness_RegisterBytesAreLittleEndian : (0x7FF8 % 8 = 0 ∧ 7 < 8) ∧ windowByte State.reset (0x000 + 7) = 0x53 := by decide +kernel

/-- A read of the last offset, and a round of `wait` while nothing and while a command is latched. -/
theorem witness_ReadsHaveNoSideEffects : (State.reset.withInputs [.read 0x7FF8 8]).inputs = .read 0x7FF8 8 :: [] ∧
    hostMoves (State.reset.withInputs [.read 0x7FF8 8]) ∧ aligned 0x7FF8 8 ∧
    ((State.reset.withInputs [.poll]).inputs = .poll :: [] ∧ hostMoves (State.reset.withInputs [.poll])) ∧
    (latched State.reset 0x3 1 [.poll]).inputs = .poll :: [] ∧ hostMoves (latched State.reset 0x3 1 [.poll]) :=
  ⟨rfl, .inl rfl, by unfold aligned; decide, ⟨rfl, .inl rfl⟩, rfl, .inr (by decide)⟩

theorem witness_DecodeOfEncodeIsTheInstruction :
    (Instr.noteOn 255 255).WellFormed ∧ (Instr.renderBlock 16777215 4294967295).WellFormed ∧ (Instr.renderSample 0).WellFormed := by
  decide +kernel

theorem witness_EncodeOfDecodeIsTheWord : decode 0xFFFFFFFFFFFFFF06 = .ok (.renderBlock 16777215 4294967295) := by decide

theorem witness_ReservedWordsRaiseBadCmdOnly : coreMoves (State.reset.withFetchWord 64 0x8000000000000000) 0x8000000000000000 ∧
    ∀ r ∈ opcodeRows, 0x8000000000000000 &&& r.1 ≠ r.2 :=
  ⟨⟨rfl, .inl rfl⟩, by simp [opcodeRows]⟩

theorem witness_TriangleIsExact : inPhase F64.zero = true ∧ inPhase ⟨0x3FD0000000000000⟩ = true ∧ inPhase ⟨0x3FEFFFFFFFFFFFFF⟩ = true := by
  decide +kernel

theorem witness_WaveformsStayInRange : inPhase ⟨0x3FEFFFFFFFFFFFFF⟩ = true ∧ inPhase F64.negZero = true := by decide +kernel

theorem witness_PhaseAdvanceStaysInRange :
    inPhase ⟨0x3FEFFFFFFFFFFFFF⟩ = true ∧ (⟨0x40D3880000000000⟩ : F64).isFinite = true ∧ F64.le F64.zero ⟨0x40D3880000000000⟩ = true ∧
    F64.le (lit 80) ⟨0x4054000000000000⟩ = true ∧ F64.eq F64.negZero F64.zero = true ∧ F64.le F64.zero F64.negZero = true := by decide +kernel

theorem witness_ZeroDetuneKeepsThePitch : Live.reset.detune = F64.zero ∧ (playing .sounding .attack).voice.freq.isFinite = true := by
  decide +kernel

/-- A wrap in SAMPLE_HOLD mode, a wrap in another mode, and no wrap. -/
theorem witness_LfoTickIsThatOfTheSpec :
    lfoWraps (lfoBank .sampleHold ⟨0x4020000000000000⟩ ⟨0x3FE0000000000000⟩) (lfoVoice ⟨0x3FEE000000000000⟩ F64.zero) ⟨0x4060000000000000⟩ = true ∧
    (lfoBank .sine ⟨0x4020000000000000⟩ ⟨0x3FE0000000000000⟩).lfoWave ≠ .sampleHold ∧
    lfoWraps (lfoBank .sampleHold ⟨0x4020000000000000⟩ ⟨0x3FE0000000000000⟩) (lfoVoice F64.zero F64.zero) ⟨0x4060000000000000⟩ = false := by decide +kernel

theorem witness_DisabledLfoAddsExactlyNothing :
    (lfoBank .square F64.zero F64.one).inRange .lfoDepth = true ∧ F64.eq (lfoBank .square F64.zero F64.one).lfoRate F64.zero = true ∧
    (lfoBank .square F64.one F64.zero).inRange .lfoDepth = true ∧ F64.eq (lfoBank .square F64.one F64.zero).lfoDepth F64.zero = true ∧
    F64.eq ⟨0x4034000000000000⟩ F64.zero = false ∧ (⟨0x4034000000000000⟩ : F64).isNaN = false ∧ F64.eq ⟨0x7FF8000000000000⟩ F64.zero = false := by decide +kernel

/-- For `EnvelopeNoteEvents`, `EnvelopeTickIsThatOfTheSpec` and `EnvelopeTickTransitions`: every stage occurs. -/
theorem witness_EnvelopeStages : ∀ st : Stage, (playing .sounding st).aenv.stage = st := fun _ => rfl

theorem witness_EnvelopeTickStaysInRange :
    (playing .sounding .attack).aenv.Ok ∧ Envelope.reset.Ok ∧ within (lit 1 1000) (lit 60) ⟨0x3F50624DD2F1A9FC⟩ = true ∧
    within (lit 1 1000) (lit 60) ⟨0x404E000000000000⟩ = true ∧ inUnit F64.zero = true ∧ F64.le (lit 80) ⟨0x4054000000000000⟩ = true :=
  ⟨⟨by decide +kernel, by decide +kernel, by decide +kernel, fun h => by cases h⟩,
   ⟨by decide +kernel, by decide +kernel, by decide +kernel, fun _ => rfl⟩, by decide +kernel⟩

theorem witness_CutoffStaysInRange : F64.le (lit 80) ⟨0x4054000000000000⟩ = true ∧ (⟨0xC072C00000000000⟩ : F64).isNaN = false ∧ ∃ s : State, s.Inv := by
  exact ⟨by decide +kernel, by decide +kernel, _, playing_invariants.1⟩

theorem witness_DampingRange : { Live.reset with resonance := F64.zero }.inRange .resonance = true ∧
    { Live.reset with resonance := ⟨0x403E000000000000⟩ }.inRange .resonance = true := by decide +kernel

theorem witness_RenderingWithoutAVoiceIsSilent : (playing .idle .idle).voice.vstate = .idle := rfl

/-- Where the release time has elapsed, the tick ends the voice, whatever `EXP` is. -/
theorem release_ends (fs : F64) (s : State) (hv : s.voice.vstate = .releasing) (hs : s.aenv.stage = .release)
    (h : F64.le s.live.amp.release (F64.add s.aenv.t (F64.div F64.one fs)) = true) :
    (renderOne fs s).2.voice.vstate = .idle := by
  have ht : (envTick s.aenv s.live.amp (F64.div F64.one fs)).stage = .idle := by
    unfold envTick envComplete envMove
    simp only [hs, h, Bool.or_true, reduceCtorEq, if_false, if_true]
  rw [renderOne_voice fs (by rw [hv]; decide), renderVoice_eq]
  simp only [countSample, teardown, ht, (signalChain_voice s.live s.voice s.fenv.level fs s.draws).1, hv, and_self, if_true]

/-- A release that ends in its tick, one that goes on (a tick of no length leaves the level), and a sounding voice. -/
theorem witness_VoiceEndsWithItsRelease :
    (renderOne (sampleRate 0) (latched (playing .releasing .release) 0x5 0 [])).2.voice.vstate = .idle ∧
    (renderOne ⟨0x7FF0000000000000⟩ { playing .releasing .release with aenv := ⟨.release, ⟨0x3FE0000000000000⟩, ⟨0x3FE0000000000000⟩, F64.zero⟩ }).2.voice.vstate
      = .releasing ∧
    (playing .sounding .attack).voice.vstate = .sounding := 
  ⟨release_ends _ _ rfl rfl (by decide +kernel), by decide +kernel, rfl⟩

theorem witness_VoiceStateTable :
    (after (step (latched State.reset 0x1 0 [])) fun t => t.voice.vstate) = some .sounding ∧
    (after (step (latched (playing .sounding .attack) 0x3 0 [])) fun t => t.voice.vstate) = some .releasing ∧
    (∃ t, step (latched (playing .releasing .release) 0x5 0 []) = .next t ∧ t.voice.vstate = .idle) ∧
    (after (step (latched (playing .sounding .attack) 0x7 0 [])) fun t => t.voice.vstate) = some .idle ∧
    (after (step ((playing .releasing .release).withInputs [.reset])) fun t => t.voice.vstate) = some .idle :=
  ⟨by decide +kernel, by decide +kernel,
   ⟨emptySlot (renderOne (sampleRate 0) (latched (playing .releasing .release) 0x5 0 [])).2, rfl,
    by rw [emptySlot_voice]; exact release_ends _ _ rfl rfl (by decide +kernel)⟩, by decide +kernel, by decide +kernel⟩

theorem witness_StepRunsTheLatchedCommand :
    coreMoves (latched State.reset 0x8 0 [.poll]) 0x8 ∧ decode 0x8 = .error (.reservedOpcode 8) ∧
    coreMoves (latched State.reset 0x7 5 []) 0x7 ∧ decode 0x7 = .ok .hardStop :=
  ⟨⟨rfl, .inl rfl⟩, rfl, ⟨rfl, .inr rfl⟩, rfl⟩

theorem witness_LatchedCommandCompletes :
    (latched State.reset 0x2 2 [.read 0x7FF8 8, .write 0x020 8 5, .poll]).slot = some 0x2 ∧
    ∀ i ∈ [Input.read 0x7FF8 8, .write 0x020 8 5, .poll], i.inContract = true ∧ i ≠ .reset := by decide

/-- For `NoteOnStartsAFreshVoice`, `NoteOnRetriggersTheVoice` and `RenderSampleOfAVoice`. -/
theorem witness_NoteOn : State.reset.voice.vstate = .idle ∧ (playing .releasing .release).voice.vstate ≠ .idle ∧
    (playing .sounding .decay).voice.vstate ≠ .idle := by decide

/-- A bank with a reserved code, and one without. -/
theorem witness_SetParamsCommitsTheShadowBank :
    (∃ p : Param, reservedCode p (State.reset.shadow.set 18 2)[p.index]) ∧ ¬ ∃ p : Param, reservedCode p State.reset.shadow[p.index] := by
  refine ⟨⟨.lfoWave, by simp only [reservedCode, Param.row]; decide +kernel⟩, ?_⟩
  rintro ⟨p, h⟩
  cases p <;> simp only [reservedCode, Param.row, ParamRow.unit, ParamRow.time] at h <;> revert h <;> decide +kernel

theorem witness_RenderBlockFillsOutbuf : State.reset.outbuf.wf = true ∧
    ({ State.reset with outbuf := [(0x1007, 0x80), (0x4FFF, 1)] } : State).outbuf.wf = true ∧
    (0 < min 1 2048 ∧ 2047 < min 16777215 2048 ∧ min 0 2048 = 0) ∧ 0x1000 + 8 * min 16777215 2048 ≤ 0x5000 := by decide

theorem witness_RenderCommandsFrame : (∃ t, exec (.renderSample 0) (playing .sounding .decay) = .next t) ∧
    ∃ t, exec (.renderBlock 2 128) (playing .sounding .decay) = .next t := ⟨⟨_, rfl⟩, ⟨_, rfl⟩⟩

theorem witness_ResetRestoresTheBlock : hostMoves (latched (playing .sounding .decay) 0x7 1 [.reset]) ∧
    (latched (playing .sounding .decay) 0x7 1 [.reset]).inputs = .reset :: [] := ⟨.inr (by decide), rfl⟩

theorem witness_ReadsThatStayExactWhileBusy : (latched State.reset 0 0 []).slot.isSome = true := rfl

theorem witness_ShadowWritesAreInaudibleBeforeSetParams : (Instr.renderBlock 1 80) ≠ .setParams ∧
    ∃ t, exec (.renderBlock 1 80) (playing .sounding .decay) = .next t := ⟨by decide, ⟨_, rfl⟩⟩

end Sys2Proof.Tests
end

section
/-! PROOFS. The scope's statements (00_scope.md): R6's arithmetic, R7's functions, R8's draws. First the facts about binary64
they need: zeros and infinities as patterns, every finite result as one rounding, NaN results, `floor`. -/

namespace Sys2Proof.F64

open Sys2Proof.Claims

/-! ## Zeros and infinities -/

theorem unitsOf_eq_zero {e : Nat} : unitsOf e = 0 ↔ e = 0 := by
  rcases low_cases e with h | ⟨s, m, hs, hm, hm', rfl⟩
  · rw [unitsOf_small h]
  · have hpos : 0 < m * 2 ^ s := Nat.mul_pos (by omega) (Nat.two_pow_pos s)
    rw [unitsOf_binade s hm hm'.le]
    omega

theorem mag_eq_zero_iff {a : F64} : a.mag = 0 ↔ a.isZero = true := by
  rw [mag, unitsOf_eq_zero, isZero, decide_eq_true_eq]

theorem value_eq_zero_iff {a : F64} : a.value = 0 ↔ a.isZero = true := by
  rw [← mag_eq_zero_iff, ← natAbs_value, Int.natAbs_eq_zero]

theorem isNaN_of_isInf {a : F64} (h : a.isInf = true) : a.isNaN = false := by
  rw [isNaN_eq_false]
  exact (of_decide_eq_true h).le

theorem isNaN_of_isZero {a : F64} (h : a.isZero = true) : a.isNaN = false := by
  rw [isNaN_eq_false, of_decide_eq_true h]
  norm_num

theorem isInf_of_isZero {a : F64} (h : a.isZero = true) : a.isInf = false := by
  simp [isInf, of_decide_eq_true h]

theorem isFinite_or_isInf {a : F64} (h : a.isNaN = false) : a.isFinite = true ∨ a.isInf = true := by
  cases hf : a.isFinite with
  | true => exact .inl rfl
  | false => exact .inr (isInf_of_not_finite h hf)

theorem inf_eq_infOf (n : Bool) : inf n = infOf n := by cases n <;> rfl

theorem signedZero_eq_zeroOf (n : Bool) : signedZero n = zeroOf n := by cases n <;> rfl

@[simp] theorem isNaN_inf (n : Bool) : (inf n).isNaN = false := by cases n <;> decide

theorem eq_infOf_of_isInf {a : F64} (h : a.isInf = true) : a = infOf a.sign := by
  have hlow : a.low = 2047 * 2 ^ 52 := of_decide_eq_true h
  rw [← inf_eq_infOf, inf, ← hlow, ofParts_sign_low]

/-- An infinity's units lie beyond those of every finite number. -/
theorem mag_lt_of_isFinite_of_isInf {a b : F64} (ha : a.isFinite = true) (hb : b.isInf = true) : a.mag < b.mag := by
  have hlow : b.low = 2047 * 2 ^ 52 := of_decide_eq_true hb
  exact unitsOf_lt (by rw [hlow]; exact isFinite_iff.1 ha) hlow.le

theorem sign_eq_msb (a : F64) : a.sign = a.bits.msb := by simp [sign, BitVec.msb_eq_decide]

/-- Unary minus flips bit 63 and nothing else. -/
theorem bits_neg (a : F64) : (neg a).bits = a.bits ^^^ 0x8000000000000000 := by
  suffices h : neg a = ⟨a.bits ^^^ 0x8000000000000000⟩ from congrArg bits h
  refine ext_parts ?_ ?_
  · rw [sign_neg, sign_eq_msb, sign_eq_msb, BitVec.msb_xor]
    exact (Bool.xor_true _).symm
  · rw [low_neg]
    change a.bits.toNat % 2 ^ 63 = (a.bits.toNat ^^^ 2 ^ 63) % 2 ^ 63
    rw [Nat.xor_mod_two_pow, Nat.mod_self, Nat.xor_zero]

/-! ## One rounding -/

/-- `round` is R6's rounding of the exact value it is given. -/
theorem round_rounded {n : Bool} {num den : Nat} {v : Int} (hden : 0 < den) (hv : v = signedNum n num) :
    rounded (round n num den) v den n := by
  have habs : v.natAbs = num := by subst hv; cases n <;> simp [signedNum]
  have hover : overflowBound * den ≤ num ↔ roundLow num den = 2047 * 2 ^ 52 := (roundLow_overflow num den hden).symm
  unfold rounded
  rw [habs]
  constructor
  · intro h
    rw [← inf_eq_infOf, round, inf, hover.1 h]
  · intro h
    have hfin : (round n num den).isFinite = true := by
      rw [isFinite_iff, low_round]
      exact lt_of_le_of_ne (roundLow_le_inf num den) fun he => absurd (hover.2 he) (by omega)
    exact ⟨hfin, fun c _ => round_best hden hfin v hv c, sign_round n num den⟩

/-- A value that is some number's needs no rounding. -/
theorem value_round_exact {n : Bool} {num : Nat} {c : F64} (hc : c.isNaN = false) (h : c.value = signedNum n num) :
    (round n num 1).value = c.value :=
  le_antisymm (value_round_le Nat.one_pos hc (by simp [h])) (le_value_round Nat.one_pos hc (by simp [h]))

theorem signedZero_eq_round (n : Bool) : signedZero n = round n 0 1 := by
  have h0 : roundLow 0 1 = 0 := roundLow_exact Nat.one_pos (by norm_num) (by rw [unitsOf_eq_zero.2 rfl])
  rw [signedZero, round, h0]

/-! ## Finite operands -/

/-- The sign of a sum of finite numbers. -/
def sumSign (a b : F64) : Bool := if a.value + b.value = 0 then a.sign && b.sign else decide (a.value + b.value < 0)

/-- A sum, zero or not, is one rounding. -/
theorem addFinite_eq_round (a b : F64) : addFinite a b = round (sumSign a b) (a.value + b.value).natAbs 1 := by
  unfold addFinite sumSign
  by_cases h : a.value + b.value = 0
  · simp only [h, if_true, signedZero_eq_round, Int.natAbs_zero]
  · simp only [h, if_false]

theorem signedNum_sumSign (a b : F64) : signedNum (sumSign a b) (a.value + b.value).natAbs = a.value + b.value := by
  unfold sumSign
  by_cases h : a.value + b.value = 0
  · simp [h, signedNum]
  · rw [if_neg h, signedNum_natAbs]

theorem addFinite_rounded (a b : F64) : rounded (addFinite a b) (a.value + b.value) 1 (sumSign a b) := by
  rw [addFinite_eq_round]
  exact round_rounded Nat.one_pos (signedNum_sumSign a b).symm

/-- The sign of a difference, as R6 gives it. -/
theorem sumSign_neg (a b : F64) :
    sumSign a (neg b) = if a.value - b.value = 0 then a.sign && !b.sign else decide (a.value - b.value < 0) := by
  simp only [sumSign, value_neg, sign_neg, ← sub_eq_add_neg]

/-- The numerator of a quotient: the divisor's sign goes to the dividend. -/
theorem signedNum_quotient {a b : F64} (hb : b.value ≠ 0) (k : Nat) :
    a.value * k * b.value.sign = signedNum (a.sign != b.sign) (a.mag * k) := by
  have hpos : 0 < b.value.natAbs := Int.natAbs_pos.2 hb
  rw [natAbs_value] at hpos
  cases hs : b.sign with
  | false =>
    have hsign : b.value.sign = 1 := Int.sign_eq_one_of_pos (by rw [value_of_not_sign hs]; omega)
    rw [hsign]
    cases ha : a.sign <;> simp [signedNum, value, ha]
  | true =>
    have hsign : b.value.sign = -1 := Int.sign_eq_neg_one_of_neg (by rw [value_of_sign hs]; omega)
    rw [hsign]
    cases ha : a.sign <;> simp [signedNum, value, ha]

theorem div_zero_eq_inf {a b : F64} (ha : a.isFinite = true) (hb : b.isZero = true) (h : a.isZero = false) :
    div a b = inf (a.sign != b.sign) := by
  simp [div, isNaN_of_isFinite ha, isInf_of_isFinite ha, isNaN_of_isZero hb, isInf_of_isZero hb, hb, h]

theorem finiteRule_holds {a b : F64} (ha : a.isFinite = true) (hb : b.isFinite = true) : finiteRule a b := by
  refine ⟨?_, ?_, ?_, ?_, ?_⟩
  · rw [add_finite ha hb]
    exact addFinite_rounded a b
  · rw [sub_finite ha hb, ← sumSign_neg, sub_eq_add_neg, ← value_neg]
    exact addFinite_rounded a (neg b)
  · rw [mul_finite ha hb]
    exact round_rounded (Nat.two_pow_pos _) (signedNum_mul a b).symm
  · intro h0
    have hz : b.isZero = false := by rwa [ne_eq, value_eq_zero_iff, Bool.not_eq_true] at h0
    have hmag : 0 < b.mag := Nat.pos_of_ne_zero fun h => absurd (mag_eq_zero_iff.1 h) (by simp [hz])
    rw [div_finite ha hb hz]
    exact round_rounded hmag (signedNum_quotient h0 _)
  · intro h0 hne
    rw [← inf_eq_infOf]
    rw [ne_eq, value_eq_zero_iff, Bool.not_eq_true] at hne
    exact div_zero_eq_inf ha (value_eq_zero_iff.1 h0) hne

/-! ## NaN results and infinite operands

Each proof goes along the branches of its operation: a branch answers the NaN of an invalid operation or the value claimed. -/

theorem isNaN_add_iff (a b : F64) : (add a b).isNaN = true ↔
    (a.isNaN = true ∨ b.isNaN = true) ∨ (a.isInf = true ∧ b.isInf = true ∧ a.sign ≠ b.sign) := by
  unfold add
  split_ifs <;> simp_all [isNaN_nan, isNaN_addFinite]

/-- A difference is the sum with the second operand negated; only the bits of a NaN may differ. -/
theorem sub_eq_add_neg_or_isNaN (a b : F64) :
    sub a b = add a (neg b) ∨ ((sub a b).isNaN = true ∧ (add a (neg b)).isNaN = true) := by
  unfold sub add
  simp only [isNaN_neg, isInf_neg, sign_neg]
  split_ifs <;> simp_all [isNaN_nan]

theorem isNaN_sub (a b : F64) : (sub a b).isNaN = (add a (neg b)).isNaN := by
  obtain h | ⟨hs, ha⟩ := sub_eq_add_neg_or_isNaN a b
  · rw [h]
  · rw [hs, ha]

theorem sub_eq_add_neg_of_not_isNaN {a b : F64} (h : (sub a b).isNaN = false) : sub a b = add a (neg b) := by
  obtain he | ⟨hs, _⟩ := sub_eq_add_neg_or_isNaN a b
  · exact he
  · exact absurd hs (by simp [h])

theorem isNaN_sub_iff (a b : F64) : (sub a b).isNaN = true ↔
    (a.isNaN = true ∨ b.isNaN = true) ∨ (a.isInf = true ∧ b.isInf = true ∧ a.sign = b.sign) := by
  rw [isNaN_sub, isNaN_add_iff, isNaN_neg, isInf_neg, sign_neg, ne_eq, Bool.eq_not, not_not]

theorem isNaN_mul_iff (a b : F64) : (mul a b).isNaN = true ↔
    (a.isNaN = true ∨ b.isNaN = true) ∨ (a.isInf = true ∧ b.isZero = true) ∨ (a.isZero = true ∧ b.isInf = true) := by
  have ha : a.isZero = true → a.isInf = false := isInf_of_isZero
  have hb : b.isZero = true → b.isInf = false := isInf_of_isZero
  unfold mul
  split_ifs with hnan hinf hzero
  · simp_all [isNaN_nan]
  · simp only [Bool.or_eq_true] at hinf hzero
    grind [isNaN_nan]
  · simp_all
  · simp_all

theorem isNaN_div_iff (a b : F64) : (div a b).isNaN = true ↔
    (a.isNaN = true ∨ b.isNaN = true) ∨ (a.isInf = true ∧ b.isInf = true) ∨ (a.isZero = true ∧ b.isZero = true) := by
  have ha : a.isZero = true → a.isInf = false := isInf_of_isZero
  have hb : b.isZero = true → b.isInf = false := isInf_of_isZero
  unfold div
  split_ifs <;> simp_all [isNaN_nan, isNaN_signedZero]

theorem nanRule_holds (a b : F64) : nanRule a b :=
  ⟨isNaN_add_iff a b, isNaN_sub_iff a b, isNaN_mul_iff a b, isNaN_div_iff a b⟩

theorem add_eq_left_of_isInf {a b : F64} (ha : a.isInf = true) (hn : (add a b).isNaN = false) : add a b = a := by
  unfold add at hn ⊢
  split_ifs at hn ⊢ <;> simp_all [isNaN_nan]

/-- Where both terms are infinite and the sum is no NaN, they are the same infinity. -/
theorem add_eq_right_of_isInf {a b : F64} (hb : b.isInf = true) (hn : (add a b).isNaN = false) : add a b = b := by
  cases ha : a.isInf with
  | false =>
    unfold add at hn ⊢
    split_ifs at hn ⊢ <;> simp_all [isNaN_nan]
  | true =>
    have hs : a.sign = b.sign := by
      by_contra h
      exact absurd ((isNaN_add_iff a b).2 (.inr ⟨ha, hb, h⟩)) (by simp [hn])
    rw [add_eq_left_of_isInf ha hn, eq_infOf_of_isInf ha, eq_infOf_of_isInf hb, hs]

theorem mul_eq_infOf {a b : F64} (h : a.isInf = true ∨ b.isInf = true) (hn : (mul a b).isNaN = false) :
    mul a b = infOf (a.sign != b.sign) := by
  rw [← inf_eq_infOf]
  unfold mul at hn ⊢
  split_ifs at hn ⊢ <;> simp_all [isNaN_nan]

theorem div_eq_infOf_of_isInf {a b : F64} (ha : a.isInf = true) (hn : (div a b).isNaN = false) :
    div a b = infOf (a.sign != b.sign) := by
  rw [← inf_eq_infOf]
  unfold div at hn ⊢
  split_ifs at hn ⊢ <;> simp_all [isNaN_nan]

theorem div_eq_zeroOf_of_isInf {a b : F64} (hb : b.isInf = true) (hn : (div a b).isNaN = false) :
    div a b = zeroOf (a.sign != b.sign) := by
  rw [← signedZero_eq_zeroOf]
  unfold div at hn ⊢
  split_ifs at hn ⊢ <;> simp_all [isNaN_nan]

theorem infRule_holds (a b : F64) : infRule a b := by
  refine ⟨add_eq_left_of_isInf, add_eq_right_of_isInf, ?_, ?_, mul_eq_infOf, div_eq_infOf_of_isInf, div_eq_zeroOf_of_isInf⟩
  · intro ha hn
    rw [sub_eq_add_neg_of_not_isNaN hn]
    exact add_eq_left_of_isInf ha (by rwa [← isNaN_sub])
  · intro hb hn
    have hneg : (neg b).isInf = true := by rwa [isInf_neg]
    rw [sub_eq_add_neg_of_not_isNaN hn, ← sign_neg, ← eq_infOf_of_isInf hneg]
    exact add_eq_right_of_isInf hneg (by rwa [← isNaN_sub])

/-! ## Comparisons -/

/-- An infinity's value is beyond that of every finite number, on the side of its sign. -/
theorem value_beyond_of_isInf {a b : F64} (ha : a.isFinite = true) (hb : b.isInf = true) :
    if b.sign then b.value < a.value else a.value < b.value := by
  have hlt := mag_lt_of_isFinite_of_isInf ha hb
  have habs := natAbs_value a
  cases hs : b.sign with
  | false =>
    simp only [Bool.false_eq_true, if_false]
    rw [value_of_not_sign hs]
    omega
  | true =>
    simp only [if_true]
    rw [value_of_sign hs]
    omega

theorem compareRule_holds (a b : F64) : compareRule a b :=
  ⟨lt_iff, le_iff, eq_iff, by rw [isNaN_eq_not_eq, Bool.not_eq_true'], value_beyond_of_isInf, rfl, rfl, rfl, fun _ => rfl⟩

/-! ## Floor -/

/-- The largest integer not above `a`. -/
def floorInt (a : F64) : Int := a.value / (2 ^ scale : Nat)

theorem natAbs_ediv_le {v : Int} {S k : Nat} (hS : 0 < S) (h : v.natAbs ≤ k * S) : (v / S).natAbs ≤ k := by
  have hpos : (0 : Int) < S := by exact_mod_cast hS
  have habs : (v.natAbs : Int) ≤ k * S := by exact_mod_cast h
  have hupper : v / S ≤ k := Int.ediv_le_of_le_mul hpos (by omega)
  have hlower : -(k : Int) ≤ v / S := (Int.le_ediv_iff_mul_le hpos).2 (by rw [Int.neg_mul]; omega)
  omega

/-- The largest integer not above a finite number is itself a finite number: below 2^53 as every integer there, beyond because
the number is an integer. -/
theorem exists_floorInt {a : F64} (ha : a.isFinite = true) :
    ∃ c : F64, c.isFinite = true ∧ c.value = a.floorInt * (2 ^ scale : Nat) := by
  obtain ⟨m, s, hm, hs, hmag⟩ := mag_rep ha
  rcases Nat.lt_or_ge s scale with hlt | hge
  · have hle : a.value.natAbs ≤ 2 ^ 53 * 2 ^ scale := by
      rw [natAbs_value, hmag]
      exact Nat.mul_le_mul hm.le (Nat.pow_le_pow_right (by norm_num) hlt.le)
    have hk : a.floorInt.natAbs ≤ 2 ^ 53 := natAbs_ediv_le (Nat.two_pow_pos scale) hle
    obtain ⟨c, hc, hv⟩ := exists_of_value hk (show scale ≤ 2045 by unfold scale; norm_num)
    refine ⟨c, ?_, hv⟩
    rw [isFinite_iff_mag hc, ← natAbs_value, hv, Int.natAbs_mul, Int.natAbs_natCast]
    calc a.floorInt.natAbs * 2 ^ scale ≤ 2 ^ 53 * 2 ^ scale := Nat.mul_le_mul_right _ hk
      _ = 2 ^ (53 + scale) := by rw [← pow_add]
      _ < 2 ^ 2098 := Nat.pow_lt_pow_right (by norm_num) (by unfold scale; norm_num)
  · have hdvd : ((2 ^ scale : Nat) : Int) ∣ a.value := by
      rw [← Int.dvd_natAbs, natAbs_value, hmag, Int.natCast_dvd_natCast]
      exact Dvd.dvd.mul_left (pow_dvd_pow 2 hge) m
    exact ⟨a, ha, (Int.ediv_mul_cancel hdvd).symm⟩

theorem floorInt_nonneg {a : F64} (h : a.sign = false) : 0 ≤ a.floorInt :=
  Int.ediv_nonneg (value_nonneg h) scale_pos.le

theorem floorInt_nonpos {a : F64} (h : a.sign = true) : a.floorInt ≤ 0 :=
  Int.ediv_le_of_le_mul scale_pos (by rw [value_of_sign h]; omega)

theorem signedNum_floorInt (a : F64) (k : Nat) : signedNum a.sign (a.floorInt.natAbs * k) = a.floorInt * k := by
  cases hs : a.sign with
  | false =>
    have h : (a.floorInt.natAbs : Int) = a.floorInt := Int.natAbs_of_nonneg (floorInt_nonneg hs)
    simp [signedNum, h]
  | true =>
    have h : (a.floorInt.natAbs : Int) = -a.floorInt := Int.ofNat_natAbs_of_nonpos (floorInt_nonpos hs)
    simp [signedNum, h]

/-- `floor` of a finite number, zero or not, is one rounding. -/
theorem floor_finite {a : F64} (ha : a.isFinite = true) :
    floor a = round a.sign (a.floorInt.natAbs * 2 ^ scale) 1 := by
  have hdef : floor a = if a.floorInt = 0 then signedZero a.sign
      else round (decide (a.floorInt < 0)) (a.floorInt.natAbs * 2 ^ scale) 1 := by
    simp only [floor, isNaN_of_isFinite ha, isInf_of_isFinite ha, Bool.false_eq_true, if_false]
    rfl
  rw [hdef]
  by_cases hk : a.floorInt = 0
  · rw [if_pos hk, signedZero_eq_round, hk, Int.natAbs_zero, Nat.zero_mul]
  · have hsign : decide (a.floorInt < 0) = a.sign := by
      cases hs : a.sign with
      | false => exact decide_eq_false (not_lt.2 (floorInt_nonneg hs))
      | true => exact decide_eq_true (lt_of_le_of_ne (floorInt_nonpos hs) hk)
    rw [if_neg hk, hsign]

/-- The rounding in `floor` changes nothing, since the integer is a number (`exists_floorInt`). -/
theorem floor_exact {a : F64} (ha : a.isFinite = true) :
    (floor a).isFinite = true ∧ (floor a).sign = a.sign ∧ (floor a).value = a.floorInt * (2 ^ scale : Nat) := by
  obtain ⟨c, hfin, hv⟩ := exists_floorInt ha
  have hc := isNaN_of_isFinite hfin
  rw [floor_finite ha]
  have hval : (round a.sign (a.floorInt.natAbs * 2 ^ scale) 1).value = c.value :=
    value_round_exact hc (by rw [hv, signedNum_floorInt])
  refine ⟨?_, sign_round _ _ _, hval.trans hv⟩
  rw [isFinite_iff_mag (isNaN_round _ _ _), ← natAbs_value, hval, natAbs_value]
  exact (isFinite_iff_mag hc).1 hfin

theorem floor_of_isInf {a : F64} (h : a.isInf = true) : floor a = a := by simp [floor, isNaN_of_isInf h, h]

theorem isNaN_floor (a : F64) : (floor a).isNaN = a.isNaN := by
  cases hn : a.isNaN with
  | true => simp [floor, hn, isNaN_nan]
  | false =>
    obtain hf | hi := isFinite_or_isInf hn
    · exact isNaN_of_isFinite (floor_exact hf).1
    · rw [floor_of_isInf hi, hn]

theorem exactRule_holds (a : F64) : exactRule a := by
  refine ⟨fun ha => ?_, floor_of_isInf, isNaN_floor a, bits_neg a⟩
  obtain ⟨hfin, hsign, hv⟩ := floor_exact ha
  exact ⟨hfin, hsign, a.floorInt, hv, Int.ediv_mul_le _ scale_pos.ne', Int.lt_ediv_add_one_mul_self _ scale_pos⟩

end Sys2Proof.F64

namespace Sys2Proof.Machine

open F64

/-! ## The free values under their laws -/

/-- A number in [-1, 1], in the words of R7 and R8. -/
theorem inSigned_spec {x : F64} (h : inSigned x = true) :
    x.isFinite = true ∧ F64.le F64.negOne x = true ∧ F64.le x F64.one = true :=
  ⟨isFinite_of_inSigned h, within_iff.1 h⟩

theorem inSigned_of_isZero {x : F64} (h : x.isZero = true) : inSigned x = true := by
  have hS := scale_pos
  rw [inSigned_iff, value_eq_zero_iff.2 h]
  exact ⟨isNaN_of_isZero h, by omega, by omega⟩

/-- `SIN(+0.0)` is a zero. -/
theorem isZero_sin_zero : (sin F64.zero).isZero = true := by
  simp only [sin, isFinite_zero, Bool.not_true, Bool.false_eq_true, if_false, if_true]
  split
  · assumption
  · decide

theorem inSigned_sin {x : F64} (hx : x.isFinite = true) : inSigned (sin x) = true := by
  by_cases h0 : x = F64.zero
  · rw [h0]
    exact inSigned_of_isZero isZero_sin_zero
  · simp only [sin, hx, h0, Bool.not_true, Bool.false_eq_true, if_false]
    split
    · assumption
    · exact inSigned_zero

theorem exp_negZero : exp F64.negZero = F64.one := by
  have h : (F64.negZero.isFinite && F64.le F64.negZero F64.zero) = true := by decide +kernel
  simp [exp, h]

theorem inUnit_exp {x : F64} (hx : x.isFinite = true) (hneg : F64.le x F64.zero = true) : inUnit (exp x) = true := by
  by_cases h0 : x = F64.negZero
  · rw [h0, exp_negZero]
    exact inUnit_one
  · simp only [exp, hx, hneg, h0, Bool.and_self, Bool.not_true, Bool.false_eq_true, if_false]
    split
    · assumption
    · exact inUnit_one

theorem exp2_zero : exp2 F64.zero = F64.one := by simp [exp2, isFinite_zero]

theorem exp2_positive {x : F64} (hx : x.isFinite = true) :
    (exp2 x).isFinite = true ∧ F64.lt F64.zero (exp2 x) = true := by
  have hone : F64.one.isFinite = true ∧ F64.lt F64.zero F64.one = true := by decide +kernel
  by_cases h0 : x = F64.zero
  · rw [h0, exp2_zero]
    exact hone
  · simp only [exp2, hx, h0, Bool.not_true, Bool.false_eq_true, if_false]
    split
    · rwa [← Bool.and_eq_true]
    · exact hone

theorem inSigned_draw (k : Nat) : inSigned (draw k) = true := by
  unfold draw
  simp only
  split
  · assumption
  · exact inSigned_zero

end Sys2Proof.Machine

namespace Sys2Proof.Proofs

open F64 Machine

/-- Settles O1: on finite operands each operation is one rounding of the exact value (`round_rounded`); the rest follows the
branches of the operations. -/
theorem arithmeticIsCorrectlyRounded : Obligations.ArithmeticIsCorrectlyRounded :=
  ⟨fun _ _ => finiteRule_holds, fun a b => ⟨nanRule_holds a b, infRule_holds a b, compareRule_holds a b⟩, exactRule_holds⟩

/-- Settles O2: whatever the free value is, it is kept only where it obeys the law, and its replacement obeys it. -/
theorem transcendentalsObeyTheirLaws : Obligations.TranscendentalsObeyTheirLaws := by
  refine ⟨fun x hx => inSigned_spec (inSigned_sin hx), ?_, fun x hx hneg => ?_, ?_, fun x => exp2_positive, ?_⟩
  · have hz := isZero_sin_zero
    exact eq_iff.2 ⟨isNaN_of_isZero hz, by decide, by rw [value_eq_zero_iff.2 hz, value_zero]⟩
  · have h := inUnit_exp hx hneg
    exact ⟨isFinite_of_inUnit h, within_iff.1 h⟩
  · rw [exp_negZero]
    decide +kernel
  · rw [exp2_zero]
    decide +kernel

/-- Settles O3: the draws as in O2, the noise source by the test of `NOISE_LEVEL`. -/
theorem drawsAreInRangeAndTakenWhenEnabled : Obligations.DrawsAreInRangeAndTakenWhenEnabled :=
  ⟨fun k => inSigned_spec (inSigned_draw k),
   fun live k => ⟨fun h => by simp [noiseStep, h], fun h => by simp [noiseStep, h]⟩⟩

end Sys2Proof.Proofs
end

section
/-! PROOFS. What one step can do, said once: every case of it, what it leaves of the registers that only commands write, and
where the error flags come from. -/

namespace Sys2Proof.Machine

open Sys2Proof.Claims

/-! ## One step -/

/-- One step from `s` ends in the second state: a case for each thing a step can be. An input comes off the list first
(`takeInput`). -/
inductive Stepped (s : State) : State → Prop
  | waits : Stepped s s
  | badWord {w : Word} {e : DecodeError} (hw : coreMoves s w) (hd : decode w = .error e) :
      Stepped s (emptySlot (raiseFlag .badCmd s))
  | command {i : Instr} {u : State} (hr : runs s i) (hx : exec i s = .next u) : Stepped s (emptySlot u)
  | read {a : Nat} {rest : List Input} (ht : takes s (.read a 8)) : Stepped s (hostRead a (takeInput rest s))
  | poll {rest : List Input} (ht : takes s .poll) : Stepped s (pollStep (takeInput rest s))
  | clear {v : Word} {rest : List Input} (ht : takes s (.write 0x010 8 v)) : Stepped s (clearFlags v (takeInput rest s))
  | latch {v : Word} {rest : List Input} (ht : takes s (.write 0x018 8 v)) (hs : s.slot = none) :
      Stepped s { takeInput rest s with slot := some v, wait := Config.latency s.latches, latches := s.latches + 1 }
  | overrun {v : Word} {rest : List Input} (ht : takes s (.write 0x018 8 v)) (hs : s.slot.isSome = true) :
      Stepped s (raiseFlag .overrun (takeInput rest s))
  | storeFreq {a : Nat} {v : Word} {rest : List Input} (ht : takes s (.write a 8 v)) (hr : regAt a = .freqArg) :
      Stepped s (setFreqArg v (takeInput rest s))
  | storeShadow {a : Nat} {p : Param} {v : Word} {rest : List Input} (ht : takes s (.write a 8 v)) (hr : regAt a = .param p) :
      Stepped s (shadowSet p v (takeInput rest s))
  | ignored {a : Nat} {v : Word} {rest : List Input} (ht : takes s (.write a 8 v)) : Stepped s (takeInput rest s)
  | reset {rest : List Input} (ht : takes s .reset) : Stepped s (resetBlock (takeInput rest s))

/-- `ERR` stands at one offset. -/
theorem eq_of_regAt_err {a : Nat} (h : regAt a = .err) : a = 0x010 := by
  unfold regAt at h
  split_ifs at h
  assumption

/-- `CMD` stands at one offset. -/
theorem eq_of_regAt_cmd {a : Nat} (h : regAt a = .cmd) : a = 0x018 := by
  unfold regAt at h
  split_ifs at h
  assumption

/-- A host write, by the register it meets. -/
theorem stepped_hostWrite {s : State} {a : Nat} {v : Word} (rest : List Input) (ht : takes s (.write a 8 v)) :
    Stepped s (hostWrite a v (takeInput rest s)) := by
  cases hr : regAt a with
  | err =>
    simp only [hostWrite, hr]
    exact .clear (eq_of_regAt_err hr ▸ ht)
  | cmd =>
    have ha := eq_of_regAt_cmd hr ▸ ht
    simp only [hostWrite, hr]
    rcases writeCmd_cases v (takeInput rest s) with ⟨hs, hw⟩ | ⟨u, hs, hw⟩
    · rw [hw]
      exact .latch ha hs
    · rw [hw]
      exact .overrun ha (Option.isSome_of_mem hs)
  | freqArg =>
    simp only [hostWrite, hr]
    exact .storeFreq ht hr
  | param p =>
    simp only [hostWrite, hr]
    exact .storeShadow ht hr
  | _ =>
    simp only [hostWrite, hr]
    exact .ignored ht

theorem bytes_of_inContract {a n : Nat} (h : inContract a n = true) : n = 8 := by
  simp only [inContract, Bool.and_eq_true, decide_eq_true_eq] at h
  exact h.1.1

/-- Every step that ends in a next state is one of the cases. -/
theorem stepped_of_step {s t : State} (h : step s = .next t) : Stepped s t := by
  rcases step_cases h with ⟨_, _, rfl⟩ | ⟨w, hs, hm, hc⟩ | ⟨i, rest, hi, hm, hc⟩
  · exact .waits
  · rcases coreStep_cases hc with ⟨e, hd, rfl⟩ | ⟨i, u, hd, hx, rfl⟩
    · exact .badWord ⟨hs, hm⟩ hd
    · exact .command ⟨w, ⟨hs, hm⟩, hd⟩ hx
  · have ht : takes s i := ⟨by rw [hi]; rfl, hm⟩
    rcases inputStep_cases hc with ⟨a, n, rfl, hn, rfl⟩ | ⟨a, n, v, rfl, hn, rfl⟩ | ⟨rfl, rfl⟩ | ⟨rfl, rfl⟩
    · exact .read (bytes_of_inContract hn ▸ ht)
    · exact stepped_hostWrite rest (bytes_of_inContract hn ▸ ht)
    · exact .poll ht
    · exact .reset ht

/-- A round of `wait` is a read of `STATUS`; only the list of inputs tells them apart. -/
theorem pollStep_eq (s : State) :
    pollStep s = { hostRead 0x008 s with inputs := if busy s then .poll :: s.inputs else s.inputs } := by
  unfold pollStep
  split <;> rfl

/-! ## What commands leave alone -/

/-- A note-on touches the voice and the envelopes only. -/
theorem voiceNoteOn_eq (f : F64) (s : State) : ∃ v a e, voiceNoteOn f s = { s with voice := v, aenv := a, fenv := e } := by
  unfold voiceNoteOn
  split <;> exact ⟨_, _, _, rfl⟩

/-- A note-off touches the voice and the envelopes only. -/
theorem voiceNoteOff_eq (s : State) : ∃ v a e, voiceNoteOff s = { s with voice := v, aenv := a, fenv := e } := by
  unfold voiceNoteOff
  split <;> exact ⟨_, _, _, rfl⟩

/-- A commit touches the live bank and `BADENUM` only. -/
theorem commitParams_eq (s : State) :
    commitParams s = { s with live := commitLive s, err := if commitBad s then s.err ||| 0b001 else s.err } := by
  unfold commitParams
  cases commitBad s <;> rfl

/-- What a block of samples leaves alone (45_commands.md R266); `renderOne_frame` is the same of one sample. -/
theorem renderFrames_frame (fs : F64) (n i : Nat) (s : State) :
    let t := renderFrames fs n i s
    t.err = s.err ∧ t.slot = s.slot ∧ t.freqArg = s.freqArg ∧ t.shadow = s.shadow ∧ t.live = s.live ∧
    t.inputs = s.inputs ∧ t.observed = s.observed ∧ t.wait = s.wait ∧ t.latches = s.latches ∧
    t.busyReads = s.busyReads ∧ t.voice.freq = s.voice.freq := by
  induction n generalizing i s with
  | zero => simp
  | succ n ih =>
    have ⟨err, slot, freqArg, shadow, live, _, inputs, observed, wait, latches, busyReads, freq⟩ := renderOne_frame fs s
    have := ih (i + 1) (outbufSet i (renderOne fs s).1 (renderOne fs s).2)
    simpa [renderFrames_succ, err, slot, freqArg, shadow, live, inputs, observed, wait, latches, busyReads, freq] using this

/-- A block counts each of its samples, modulo 2^64 (R40). -/
theorem renderFrames_count (fs : F64) (n i : Nat) (s : State) :
    (renderFrames fs n i s).sampleCount = s.sampleCount + BitVec.ofNat 64 n := by
  induction n generalizing i s with
  | zero => simp
  | succ n ih =>
    rw [renderFrames_succ, ih, outbufSet_sampleCount, (renderOne_count fs s).1, BitVec.ofNat_add, add_assoc,
      add_comm (BitVec.ofNat 64 n)]
    rfl

/-- What each command does to the registers that few commands write. -/
theorem exec_writers {i : Instr} {s u : State} (h : exec i s = .next u) :
    (u.err = s.err ∨ (i = .setParams ∧ commitBad s = true ∧ u.err = s.err ||| 0b001)) ∧
    (u.live = s.live ∨ i = .setParams) ∧
    (u.outbuf = s.outbuf ∨ ∃ f r, i = .renderBlock f r) ∧
    (u.lastSample = s.lastSample ∨ (∃ r, i = .renderSample r) ∨ (∃ f r, i = .renderBlock f r) ∨ i = .hardStop) ∧
    (u.sampleCount = s.sampleCount ∨ (∃ r, i = .renderSample r ∧ u.sampleCount = s.sampleCount + 1) ∨
      ∃ f r, i = .renderBlock f r ∧ u.sampleCount = s.sampleCount + BitVec.ofNat 64 (min f 2048)) := by
  cases i with
  | nop =>
    cases h
    simp
  | noteOn n o =>
    cases h
    obtain ⟨v, a, e, h⟩ := voiceNoteOn_eq (keyFreq (clampNote n) (clampOctave o)) s
    simp [h]
  | noteOnHz =>
    cases h
    obtain ⟨v, a, e, h⟩ := voiceNoteOn_eq (freqOperand s.freqArg) s
    simp [h]
  | noteOff =>
    cases h
    obtain ⟨v, a, e, h⟩ := voiceNoteOff_eq s
    simp [h]
  | setParams =>
    cases h
    rw [commitParams_eq]
    cases commitBad s <;> simp
  | renderSample r =>
    cases h
    have ⟨err, _, _, _, live, outbuf, _⟩ := renderOne_frame (sampleRate r) s
    have ⟨count, _⟩ := renderOne_count (sampleRate r) s
    simp [err, live, outbuf, count]
  | renderBlock f r =>
    cases h
    have ⟨err, _, _, _, live, _⟩ := renderFrames_frame (sampleRate r) (clampFrames f) 0 s
    have count := renderFrames_count (sampleRate r) (clampFrames f) 0 s
    exact ⟨.inl err, .inl live, .inr ⟨f, r, rfl⟩, .inr (.inr (.inl ⟨f, r, rfl⟩)), .inr (.inr ⟨f, r, rfl, count⟩)⟩
  | hardStop =>
    cases h
    simp

/-! ## What a step leaves alone -/

/-- `t` has the voice, the envelopes, the live bank and the outputs of `s`. -/
structure SameSound (s t : State) : Prop where
  voice : t.voice = s.voice
  aenv : t.aenv = s.aenv
  fenv : t.fenv = s.fenv
  live : t.live = s.live
  outbuf : t.outbuf = s.outbuf
  lastSample : t.lastSample = s.lastSample
  sampleCount : t.sampleCount = s.sampleCount

/-- Only a command and the reset change what sounds: no host access does. -/
theorem step_sound {s t : State} (h : step s = .next t) :
    SameSound s t ∨ (takes s .reset ∧ SameSound State.reset t) ∨
    ∃ i u, runs s i ∧ exec i s = .next u ∧ SameSound u t := by
  cases stepped_of_step h with
  | command hr hx => exact .inr (.inr ⟨_, _, hr, hx, ⟨rfl, rfl, rfl, rfl, rfl, rfl, rfl⟩⟩)
  | reset ht => exact .inr (.inl ⟨ht, ⟨rfl, rfl, rfl, rfl, rfl, rfl, rfl⟩⟩)
  | poll ht =>
    rw [pollStep_eq]
    exact .inl ⟨rfl, rfl, rfl, rfl, rfl, rfl, rfl⟩
  | _ => exact .inl ⟨rfl, rfl, rfl, rfl, rfl, rfl, rfl⟩

/-- Where a change of `ERR` comes from (10_state.md R35, 60_exceptions.md R281). -/
theorem step_err {s t : State} (h : step s = .next t) :
    t.err = s.err ∨
    (runs s .setParams ∧ commitBad s = true ∧ t.err = s.err ||| 0b001) ∨
    (∃ w e, coreMoves s w ∧ decode w = .error e ∧ t.err = s.err ||| 0b010) ∨
    (∃ v, takes s (.write 0x018 8 v) ∧ s.slot.isSome = true ∧ t.err = s.err ||| 0b100) ∨
    (∃ v, takes s (.write 0x010 8 v) ∧ t.err = s.err &&& ~~~(v.setWidth 3)) ∨
    (takes s .reset ∧ t.err = 0) := by
  cases stepped_of_step h with
  | command hr hx =>
    rcases (exec_writers hx).1 with herr | ⟨rfl, hbad, herr⟩
    · exact .inl herr
    · exact .inr (.inl ⟨hr, hbad, herr⟩)
  | badWord hw hd => exact .inr (.inr (.inl ⟨_, _, hw, hd, rfl⟩))
  | overrun ht hs => exact .inr (.inr (.inr (.inl ⟨_, ht, hs, rfl⟩)))
  | clear ht => exact .inr (.inr (.inr (.inr (.inl ⟨_, ht, rfl⟩))))
  | reset ht => exact .inr (.inr (.inr (.inr (.inr ⟨ht, rfl⟩))))
  | poll ht =>
    rw [pollStep_eq]
    exact .inl rfl
  | _ => exact .inl rfl

end Sys2Proof.Machine
end

section
/-! PROOFS. Ranges that one tick keeps, whatever the free values are: quotients by a sample rate, the wrapped phase, the level
and the time of an envelope, the frequencies. -/

namespace Sys2Proof.F64

open Sys2Proof.Claims

theorem isFinite_of_value_between {x lo hi : F64} (hx : x.isNaN = false) (hlo : lo.isFinite = true) (hhi : hi.isFinite = true)
    (h1 : lo.value ≤ x.value) (h2 : x.value ≤ hi.value) : x.isFinite = true :=
  isFinite_of_between (le_of_value (isNaN_of_isFinite hlo) hx h1) (le_of_value hx (isNaN_of_isFinite hhi) h2) hlo hhi

/-! ## Quotients and products -/

/-- A quotient of numbers that are not negative lies between 0 and any bound of the exact one; the divisor may be infinite. -/
theorem div_between {a b c : F64} (ha : a.isFinite = true) (h0 : 0 ≤ a.value) (hb : b.isNaN = false) (hpos : 0 < b.value)
    (hc : c.isNaN = false) (h : a.value * (2 ^ scale : Nat) ≤ b.value * c.value) :
    (div a b).isNaN = false ∧ 0 ≤ (div a b).value ∧ (div a b).value ≤ c.value := by
  have hS := scale_pos
  obtain hf | hi := isFinite_or_isInf hb
  · refine ⟨isNaN_div ha hf hpos, ?_, value_div_le ha hf hpos hc h⟩
    have := le_value_div (c := zero) ha hf hpos (by decide) (by rw [value_zero, mul_zero]; positivity)
    rwa [value_zero] at this
  · have hd : div a b = signedZero (a.sign != b.sign) := by
      simp [div, isNaN_of_isFinite ha, isInf_of_isFinite ha, hb, hi]
    have hc0 : 0 ≤ c.value := nonneg_of_mul_nonneg_right (le_trans (by positivity) h) hpos
    rw [hd, value_signedZero]
    exact ⟨isNaN_signedZero _, le_rfl, hc0⟩

/-- A finite number divided by one of at least 1.0 is finite. -/
theorem isFinite_div {a b : F64} (ha : a.isFinite = true) (hb : b.isFinite = true) (h1 : (2 ^ scale : Nat) ≤ b.value) :
    (div a b).isFinite = true := by
  have hS := scale_pos
  have hpos := lt_of_lt_of_le hS h1
  have hna := isNaN_of_isFinite ha
  have hn := isNaN_div ha hb hpos
  rcases le_total 0 a.value with h | h
  · refine isFinite_of_value_between hn isFinite_zero ha ?_ ?_
    · exact le_value_div ha hb hpos (by decide) (by rw [value_zero, mul_zero]; positivity)
    · exact value_div_le ha hb hpos hna (by rw [mul_comm]; exact mul_le_mul_of_nonneg_right h1 h)
  · refine isFinite_of_value_between hn ha isFinite_zero ?_ ?_
    · exact le_value_div ha hb hpos hna (by rw [mul_comm a.value]; exact mul_le_mul_of_nonpos_right h1 h)
    · exact value_div_le ha hb hpos (by decide)
        (by rw [value_zero, mul_zero]; exact mul_nonpos_of_nonpos_of_nonneg h hS.le)

theorem value_mul_nonneg {a b : F64} (ha : a.isFinite = true) (hb : b.isFinite = true) (h0 : 0 ≤ a.value)
    (h1 : 0 ≤ b.value) : 0 ≤ (mul a b).value := by
  have := le_value_mul (c := zero) ha hb (by decide) (by rw [value_zero, mul_zero]; positivity)
  rwa [value_zero] at this

theorem signedNum_natAbs_mul (k : Int) (m : Nat) : signedNum (decide (k < 0)) (k.natAbs * m) = k * m := by
  unfold signedNum
  by_cases h : k < 0
  · simp [h, abs_of_neg h]
  · simp [h, abs_of_nonneg (not_lt.1 h)]

/-- `f64(k)` is finite up to 2^53, where it is exact. -/
theorem isFinite_ofInt {k : Int} (hk : k.natAbs ≤ 2 ^ 53) : (ofInt k).isFinite = true := by
  obtain ⟨c, hc, hv⟩ := exists_of_value (s := scale) hk (by decide)
  have hval : (ofInt k).value = k * (2 ^ scale : Nat) := by
    rw [← hv]
    refine value_round_exact hc ?_
    rw [hv, signedNum_natAbs_mul]
  have hn : (ofInt k).isNaN = false := isNaN_round _ _ _
  rw [isFinite_iff_mag hn, ← natAbs_value]
  calc (ofInt k).value.natAbs = k.natAbs * 2 ^ scale := by rw [hval, Int.natAbs_mul, Int.natAbs_natCast]
    _ ≤ 2 ^ 53 * 2 ^ scale := Nat.mul_le_mul_right _ hk
    _ < 2 ^ 2098 := by decide +kernel

end Sys2Proof.F64

namespace Sys2Proof.Machine

open F64 Claims

/-! ## Sample rates and phases -/

/-- The least sample rate is 80.0 (30_encoding.md R107). -/
theorem value_lit_80 : (lit 80).value = 80 * (2 ^ scale : Nat) := by decide +kernel

theorem rate_spec {fs : F64} (h : F64.le (lit 80) fs = true) : fs.isNaN = false ∧ 80 * (2 ^ scale : Nat) ≤ fs.value := by
  obtain ⟨_, hn, hv⟩ := le_iff.1 h
  exact ⟨hn, value_lit_80 ▸ hv⟩

/-- The clamp of R107 holds for every operand. -/
theorem le_sampleRate (r : Nat) : F64.le (lit 80) (sampleRate r) = true := by
  refine le_of_value (by decide +kernel) (isNaN_round _ _ _) (le_value_round (by decide) (by decide +kernel) ?_)
  have h := Int.ofNat_le.2 (Nat.mul_le_mul_right (2 ^ scale) (Nat.le_max_right r Config.srMin))
  rw [value_lit_80, Nat.cast_one, one_mul]
  rwa [Nat.cast_mul] at h

/-- The duration of a tick is in [0, 1]. -/
theorem inUnit_tick {fs : F64} (h : F64.le (lit 80) fs = true) : inUnit (F64.div F64.one fs) = true := by
  have hS := scale_pos
  obtain ⟨hn, hv⟩ := rate_spec h
  have := div_between (c := F64.one) isFinite_one (by rw [value_one]; exact hS.le) hn (by omega) (by decide)
    (by rw [value_one]; exact mul_le_mul_of_nonneg_right (by omega) hS.le)
  rw [value_one] at this
  exact inUnit_iff.2 this

/-- A quarter of the range of the finite numbers, and half of it. -/
theorem exists_quarter_range : ∃ c top : F64, c.isFinite = true ∧ top.isFinite = true ∧
    (∀ f : F64, f.isFinite = true → f.value ≤ 4 * c.value) ∧ (2 ^ scale : Nat) ≤ c.value ∧ 2 * c.value ≤ top.value := by
  have hc : (2 ^ 2098 : Nat) = 4 * (F64.mk 0x7FD0000000000000).value := by decide +kernel
  refine ⟨⟨0x7FD0000000000000⟩, ⟨0x7FE0000000000000⟩, by decide, by decide, fun f hf => ?_, by decide +kernel, by decide +kernel⟩
  have hlt := (isFinite_iff_mag (isNaN_of_isFinite hf)).1 hf
  rw [← hc]
  exact (Int.le_natAbs.trans_lt (by rw [natAbs_value]; exact_mod_cast hlt)).le

/-- The sum that a phase is advanced to is a finite number that is not negative: it cannot overflow, since the rate is at least
80 (40_oscillator.md R137). -/
theorem phase_sum {p f fs : F64} (hp : inPhase p = true) (hf : f.isFinite = true) (h0 : nonneg f = true)
    (hfs : F64.le (lit 80) fs = true) :
    (F64.add p (F64.div f fs)).isFinite = true ∧ 0 ≤ (F64.add p (F64.div f fs)).value := by
  have hS := scale_pos
  obtain ⟨hn, hv⟩ := rate_spec hfs
  obtain ⟨pn, p0, p1⟩ := inPhase_iff.1 hp
  obtain ⟨fn, f0⟩ := nonneg_iff.1 h0
  obtain ⟨c, top, hc, htop, hlt, hc1, hct⟩ := exists_quarter_range
  obtain ⟨qn, q0, q1⟩ := div_between (c := c) hf f0 hn (by omega) (isNaN_of_isFinite hc) (by
    calc f.value * (2 ^ scale : Nat) ≤ 80 * c.value * (2 ^ scale : Nat) :=
          mul_le_mul_of_nonneg_right (by have := hlt f hf; omega) hS.le
      _ = 80 * (2 ^ scale : Nat) * c.value := by ring
      _ ≤ fs.value * c.value := mul_le_mul_of_nonneg_right hv (by omega))
  have fq := isFinite_of_value_between qn isFinite_zero hc (value_zero.trans_le q0) q1
  have fp := isFinite_of_value_between pn isFinite_zero isFinite_one (value_zero.trans_le p0) (p1.le.trans_eq value_one.symm)
  rw [add_finite fp fq]
  have hx0 := le_value_addFinite (a := p) (b := F64.div f fs) (c := F64.zero) (by decide) (by rw [value_zero]; omega)
  have hx1 := value_addFinite_le (a := p) (b := F64.div f fs) (isNaN_of_isFinite htop) (by omega)
  exact ⟨isFinite_of_value_between (isNaN_addFinite _ _) isFinite_zero htop hx0 hx1, value_zero ▸ hx0⟩

/-- `ADVANCE` keeps the phase in [0, 1) (R137). -/
theorem inPhase_advance {p f fs : F64} (hp : inPhase p = true) (hf : f.isFinite = true) (h0 : nonneg f = true)
    (hfs : F64.le (lit 80) fs = true) : inPhase (advance p f fs) = true := by
  obtain ⟨hx, hx0⟩ := phase_sum hp hf h0 hfs
  unfold advance
  simp only
  split
  next hw =>
    obtain ⟨_, _, h1⟩ := le_iff.1 hw
    rw [value_one] at h1
    obtain ⟨hn, hv⟩ := value_sub_floor hx h1
    rw [inPhase_iff, hv]
    exact ⟨hn, Int.natCast_nonneg _, Int.ofNat_lt.2 (Nat.mod_lt _ (Nat.two_pow_pos _))⟩
  next hw =>
    have hn := isNaN_of_isFinite hx
    rw [le_iff, value_one] at hw
    refine inPhase_iff.2 ⟨hn, hx0, not_le.1 fun h => hw ⟨by decide, hn, h⟩⟩

/-! ## Envelopes -/

/-- The ranges of the parameters of an envelope (10_state.md R41). -/
structure Adsr.InRange (p : Adsr) : Prop where
  attack : within Config.envTimeMin Config.envTimeMax p.attack = true
  decay : within Config.envTimeMin Config.envTimeMax p.decay = true
  sustain : inUnit p.sustain = true
  release : within Config.envTimeMin Config.envTimeMax p.release = true

theorem inUnit_stageTarget {p : Adsr} (hp : p.InRange) (st : Stage) : inUnit (stageTarget p st) = true := by
  cases st with
  | attack => exact inUnit_one
  | decay | sustain => exact hp.sustain
  | release | idle => exact inUnit_zero

theorem within_stageDur {p : Adsr} (hp : p.InRange) (st : Stage) :
    within Config.envTimeMin Config.envTimeMax (stageDur p st) = true := by
  cases st with
  | attack => exact hp.attack
  | decay | sustain => exact hp.decay
  | release | idle => exact hp.release

/-- The factor of a tick is in [0, 1], whatever `EXP` is: its argument is finite and not above 0.0 (42_envelope.md R184). -/
theorem inUnit_envDecayFactor {dur dt : F64} (hd : within Config.envTimeMin Config.envTimeMax dur = true)
    (ht : inUnit dt = true) : inUnit (envDecayFactor dur dt) = true := by
  have hS := scale_pos
  have fd := isFinite_of_inUnit ht
  obtain ⟨_, d0, d1⟩ := inUnit_iff.1 ht
  obtain ⟨_, hn, hmin⟩ := le_iff.1 (within_iff.1 hd).1
  have hL : Config.lnInvEps.isFinite = true := by decide
  have hL0 : 0 ≤ Config.lnInvEps.value := by decide +kernel
  have hpos : 0 < Config.envTimeMin.value := by decide +kernel
  -- 2^14 is above ln(1000) / 0.001, the largest argument that a duration of R41 allows.
  obtain ⟨c, hc, hc0, hbound⟩ : ∃ c : F64, c.isFinite = true ∧ 0 ≤ c.value ∧
      Config.lnInvEps.value * (2 ^ scale : Nat) ≤ Config.envTimeMin.value * c.value :=
    ⟨⟨0x40D0000000000000⟩, by decide +kernel⟩
  have m0 := value_mul_nonneg fd hL d0 hL0
  have m1 := value_mul_le fd hL (isNaN_of_isFinite hL) (mul_le_mul_of_nonneg_right d1 hL0)
  have fm := isFinite_of_value_between (isNaN_mul fd hL) isFinite_zero hL (value_zero.trans_le m0) m1
  obtain ⟨an, a0, a1⟩ := div_between fm m0 hn (hpos.trans_le hmin) (isNaN_of_isFinite hc)
    ((mul_le_mul_of_nonneg_right m1 hS.le).trans (hbound.trans (mul_le_mul_of_nonneg_right hmin hc0)))
  have fa := isFinite_of_value_between an isFinite_zero hc (value_zero.trans_le a0) a1
  refine inUnit_exp (by rwa [isFinite_neg]) (le_of_value (by rwa [isNaN_neg]) (by decide) ?_)
  rw [value_neg, value_zero]
  omega

/-- A time that grows by a tick stays not negative, also where it has become infinite. -/
theorem nonneg_add {a b : F64} (ha : nonneg a = true) (hb : inUnit b = true) : nonneg (F64.add a b) = true := by
  have fb := isFinite_of_inUnit hb
  obtain ⟨na, a0⟩ := nonneg_iff.1 ha
  obtain ⟨_, b0, _⟩ := inUnit_iff.1 hb
  obtain hf | hi := isFinite_or_isInf na
  · have := le_value_addFinite (a := a) (b := b) (c := F64.zero) (by decide) (by rw [value_zero]; omega)
    rw [add_finite hf fb, nonneg_iff]
    exact ⟨isNaN_addFinite _ _, value_zero ▸ this⟩
  · have : F64.add a b = a := by simp [F64.add, na, hi, isNaN_of_isFinite fb, isInf_of_isFinite fb]
    rwa [this]

theorem Envelope.Ok.reset : Envelope.reset.Ok := ⟨inUnit_zero, inUnit_zero, nonneg_zero, fun _ => rfl⟩

/-- Entering a stage other than Idle keeps the ranges. -/
theorem Envelope.Ok.enter {e : Envelope} (h : e.Ok) {st : Stage} (hst : st ≠ .idle) : (envEnter e st).Ok :=
  ⟨h.level, h.level, nonneg_zero, fun hi => absurd hi hst⟩

theorem Envelope.Ok.noteOn {e : Envelope} (h : e.Ok) : (envNoteOn e).Ok := h.enter (st := .attack) (by decide)

theorem Envelope.Ok.noteOff {e : Envelope} (h : e.Ok) : (envNoteOff e).Ok := by
  rcases envNoteOff_cases e with ⟨_, he⟩ | ⟨_, he⟩ <;> rw [he]
  · exact h.enter (st := .release) (by decide)
  · exact h

theorem Envelope.Ok.complete {e : Envelope} (h : e.Ok) (p : Adsr) : (envComplete e p).Ok := by
  rcases envComplete_cases e p with he | ⟨st, hst, he⟩ | he <;> rw [he]
  · exact h
  · exact h.enter (by rcases hst with rfl | rfl <;> decide)
  · exact .reset

/-- A tick keeps an envelope's ranges and the pin of Idle (10_state.md R46, 42_envelope.md R184). -/
theorem Envelope.Ok.tick {e : Envelope} (h : e.Ok) {p : Adsr} (hp : p.InRange) {fs : F64} (hfs : F64.le (lit 80) fs = true) :
    (envTick e p (F64.div F64.one fs)).Ok := by
  have ht := inUnit_tick hfs
  unfold envTick
  split
  next hi => exact ⟨inUnit_zero, h.entry, h.time, fun _ => rfl⟩
  next hi =>
    refine Envelope.Ok.complete (e := envMove e p _) ⟨?_, h.entry, nonneg_add h.time ht, fun hs => absurd hs hi⟩ p
    exact inUnit_envLevel h.level (inUnit_stageTarget hp _) (inUnit_envDecayFactor (within_stageDur hp _) ht)

/-! ## Frequencies -/

theorem nonneg_mul {a b : F64} (ha : a.isFinite = true) (hb : b.isFinite = true) (h0 : nonneg a = true) (h1 : nonneg b = true) :
    nonneg (F64.mul a b) = true :=
  nonneg_iff.2 ⟨isNaN_mul ha hb, value_mul_nonneg ha hb (nonneg_iff.1 h0).2 (nonneg_iff.1 h1).2⟩

theorem nonneg_exp2 {x : F64} (hx : x.isFinite = true) : nonneg (exp2 x) = true := by
  obtain ⟨_, hn, hv⟩ := lt_iff.1 (exp2_positive hx).2
  exact le_of_value (by decide) hn hv.le

/-- A key's frequency is not negative, whatever `EXP2` is (40_oscillator.md R141). -/
theorem nonneg_keyFreq (note octave : Nat) : nonneg (keyFreq (clampNote note) (clampOctave octave)) = true := by
  have hk : (keyIndex (clampNote note) (clampOctave octave)).natAbs ≤ 2 ^ 53 := by
    simp only [keyIndex, clampNote, clampOctave, Config.keyOctaveBias]
    omega
  have hx : (F64.div (F64.ofInt (keyIndex (clampNote note) (clampOctave octave))) F64.twelve).isFinite = true :=
    isFinite_div (isFinite_ofInt hk) (by decide) (by decide +kernel)
  exact nonneg_mul (by decide) (exp2_positive hx).1 (by decide +kernel) (nonneg_exp2 hx)

/-- The frequency of `NOTE_ON_HZ` is not negative (45_commands.md R262). -/
theorem nonneg_freqOperand (w : Word) : nonneg (freqOperand w) = true := by
  unfold freqOperand
  simp only
  split
  next => exact nonneg_zero
  next hn => exact (clamp_within (Bool.eq_false_iff.2 hn) (by decide +kernel)).1

/-- The detuned frequency is not negative (R138). -/
theorem nonneg_oscFreq {live : Live} {v : Voice} (hl : live.inRange .detune = true) (hf : v.freq.isFinite = true)
    (h0 : nonneg v.freq = true) : nonneg (oscFreq live v) = true := by
  have hd : live.detune.isFinite = true :=
    isFinite_of_between (within_iff.1 hl).1 (within_iff.1 hl).2 (by decide) (by decide)
  have hx : (F64.div live.detune F64.twelveHundred).isFinite = true := isFinite_div hd (by decide) (by decide +kernel)
  exact nonneg_mul hf (exp2_positive hx).1 h0 (nonneg_exp2 hx)

/-- Half a finite frequency is finite (R140). -/
theorem isFinite_mul_half {f : F64} (hf : f.isFinite = true) (h0 : nonneg f = true) : (F64.mul f F64.half).isFinite = true := by
  obtain ⟨fn, f0⟩ := nonneg_iff.1 h0
  have hh := value_half
  have hle := value_mul_le (c := f) hf isFinite_half fn (by nlinarith)
  have h1 := value_mul_nonneg hf isFinite_half f0 (by have := scale_pos; omega)
  exact isFinite_of_value_between (isNaN_mul hf isFinite_half) isFinite_zero hf (value_zero.trans_le h1) hle

end Sys2Proof.Machine
end

section
/-! PROOFS. The parameter bank: what sanitising lets through is a word that the table accepts (10_state.md R36, R41), and the
live bank made of such words holds them. -/

namespace Sys2Proof

open Sys2Proof.Claims Sys2Proof.Machine

/-- The word is a valid code of the row, or a number in its range. -/
def ParamRow.accepts : ParamRow → Word → Bool
  | .enum codes _ _, w => codes.contains w.toNat
  | .f64 lo hi _, w => within lo hi ⟨w⟩

/-- The row's own default and fallback are among its values. -/
def ParamRow.ok : ParamRow → Bool
  | .enum codes default fallback =>
    codes.contains (BitVec.ofNat 64 default).toNat && codes.contains (BitVec.ofNat 64 fallback).toNat
  | .f64 lo hi default => within lo hi default

theorem Param.row_ok (p : Param) : p.row.ok = true := by cases p <;> decide +kernel

/-- The reset value of a register is one its row accepts (R43). -/
theorem accepts_resetWord (p : Param) : p.row.accepts p.resetWord = true := by
  have h := p.row_ok
  unfold Param.resetWord
  cases hr : p.row with
  | enum codes default fallback =>
    rw [hr, ParamRow.ok, Bool.and_eq_true] at h
    exact h.1
  | f64 lo hi default => rwa [hr] at h

/-- Sanitising answers a word that the row accepts, whatever the register holds. -/
theorem accepts_sanitize (p : Param) (raw : Word) : p.row.accepts (sanitize p raw).1 = true := by
  have h := p.row_ok
  unfold sanitize
  cases hr : p.row with
  | enum codes default fallback =>
    rw [hr, ParamRow.ok, Bool.and_eq_true] at h
    simp only
    split
    next hc => exact hc
    next => exact h.2
  | f64 lo hi default =>
    rw [hr] at h
    obtain ⟨hlo, hhi⟩ := within_iff.1 h
    simp only
    split
    next => exact h
    next hn => exact within_iff.2 (F64.clamp_within (Bool.eq_false_iff.2 hn) (F64.le_trans' hlo hhi))

/-- The value that sanitising answers is that of R36. -/
theorem sanitize_fst (p : Param) (raw : Word) : (sanitize p raw).1 = sanitized p raw := by
  unfold sanitize sanitized
  cases p.row with
  | enum codes default fallback =>
    by_cases h : raw.toNat ∈ codes <;> simp [h]
  | f64 lo hi default =>
    cases hn : F64.eq ⟨raw⟩ ⟨raw⟩ with
    | false => simp [F64.isNaN_eq_not_eq, hn]
    | true =>
      simp only [F64.isNaN_eq_not_eq, hn, F64.clamp, Bool.not_true, Bool.false_eq_true, if_false, Bool.true_eq_false]
      split
      · rfl
      · split <;> rfl

/-- The verdict is `bad` for the reserved codes only. -/
theorem sanitize_snd_iff (p : Param) (raw : Word) : (sanitize p raw).2 = true ↔ reservedCode p raw := by
  unfold sanitize reservedCode
  cases p.row with
  | enum codes default fallback =>
    by_cases h : raw.toNat ∈ codes <;> simp [h]
  | f64 lo hi default =>
    simp only
    split <;> simp

/-! ## Codes -/

theorem mem_oscKinds {w : Word} (h : Param.oscWave.row.accepts w = true) : (w, OscWave.ofCode w) ∈ oscKinds := by
  have hw : w = 0 ∨ w = 1 ∨ w = 2 ∨ w = 3 := by
    simpa [Param.row, ParamRow.accepts, BitVec.toNat_eq] using h
  rcases hw with rfl | rfl | rfl | rfl <;> decide

theorem mem_filterKinds {w : Word} (h : Param.filterType.row.accepts w = true) : (w, FilterType.ofCode w) ∈ filterKinds := by
  have hw : w = 0 ∨ w = 1 ∨ w = 2 := by
    simpa [Param.row, ParamRow.accepts, BitVec.toNat_eq] using h
  rcases hw with rfl | rfl | rfl <;> decide

theorem mem_lfoKinds {w : Word} (h : Param.lfoWave.row.accepts w = true) : (w, LfoWave.ofCode w) ∈ lfoKinds := by
  have hw : w = 0 ∨ w = 1 ∨ w = 3 ∨ w = 4 := by
    simpa [Param.row, ParamRow.accepts, BitVec.toNat_eq] using h
  rcases hw with rfl | rfl | rfl | rfl <;> decide

theorem code_of_mem_oscKinds : ∀ k ∈ oscKinds, k.2.code = k.1 := by decide

theorem code_of_mem_filterKinds : ∀ k ∈ filterKinds, k.2.code = k.1 := by decide

theorem code_of_mem_lfoKinds : ∀ k ∈ lfoKinds, k.2.code = k.1 := by decide

namespace Machine

/-! ## The live bank -/

theorem inRange_eq (l : Live) (p : Param) : l.inRange p = p.row.accepts (l.word p) := by
  unfold Live.inRange
  cases p.row <;> rfl

/-- A live bank made of accepted words holds each of them. -/
theorem holds_ofWords {w : Param → Word} (h : ∀ p : Param, p.row.accepts (w p) = true) : holds (Live.ofWords w) w :=
  ⟨mem_oscKinds (h _), mem_filterKinds (h _), mem_lfoKinds (h _), rfl, rfl, rfl, rfl, rfl, rfl, rfl, rfl, rfl, rfl, rfl, rfl,
    rfl, rfl, rfl, rfl, rfl, rfl⟩

/-- A live bank made of accepted words reads them back, the codes too. -/
theorem word_ofWords {w : Param → Word} (h : ∀ p : Param, p.row.accepts (w p) = true) (p : Param) : (Live.ofWords w).word p = w p := by
  cases p with
  | oscWave => exact code_of_mem_oscKinds _ (mem_oscKinds (h _))
  | filterType => exact code_of_mem_filterKinds _ (mem_filterKinds (h _))
  | lfoWave => exact code_of_mem_lfoKinds _ (mem_lfoKinds (h _))
  | _ => rfl

theorem inRange_ofWords {w : Param → Word} (h : ∀ p : Param, p.row.accepts (w p) = true) (p : Param) :
    (Live.ofWords w).inRange p = true := by
  rw [inRange_eq, word_ofWords h]
  exact h p

theorem mem_Param_all (p : Param) : p ∈ Param.all := by cases p <;> decide

/-- A commit raises `BADENUM` for a reserved code in some register, and for nothing else (45_commands.md R264). -/
theorem commitBad_iff (s : State) : commitBad s = true ↔ ∃ p : Param, reservedCode p s.shadow[p.index] := by
  simp only [commitBad, List.any_eq_true, sanitize_snd_iff, mem_Param_all, true_and]
  rfl

end Machine
end Sys2Proof
end

section
/-! PROOFS. The invariants of 10_state.md R52, one operation at a time: each command keeps them, and so does every step. -/

namespace Sys2Proof.Machine

open F64 Claims

/-! ## What they read -/

/-- The invariants read the voice, the envelopes, the live bank and `OUTBUF`, and nothing else. -/
theorem State.Inv.congr {s t : State} (h : s.Inv) (hv : t.voice = s.voice) (ha : t.aenv = s.aenv) (hf : t.fenv = s.fenv)
    (hl : t.live = s.live) (ho : t.outbuf = s.outbuf) : t.Inv where
  stages := by rw [hv, ha, hf]; exact h.stages
  aenv := ha ▸ h.aenv
  fenv := hf ▸ h.fenv
  lfoPhase := hv ▸ h.lfoPhase
  lfoSh := hv ▸ h.lfoSh
  freq := hv ▸ h.freq
  live := hl ▸ h.live
  outbuf := ho ▸ h.outbuf

theorem State.Inv.of_sameSound {s t : State} (h : s.Inv) (hs : SameSound s t) : t.Inv :=
  h.congr hs.voice hs.aenv hs.fenv hs.live hs.outbuf

theorem State.PhasesOk.congr {s t : State} (h : s.PhasesOk) (ho : t.voice.oscPhase = s.voice.oscPhase)
    (hs : t.voice.subPhase = s.voice.subPhase) : t.PhasesOk := ⟨ho ▸ h.osc, hs ▸ h.sub⟩

theorem State.Inv.amp {s : State} (h : s.Inv) : s.live.amp.InRange :=
  ⟨h.live .aenvAttack, h.live .aenvDecay, h.live .aenvSustain, h.live .aenvRelease⟩

theorem State.Inv.filter {s : State} (h : s.Inv) : s.live.filter.InRange :=
  ⟨h.live .fenvAttack, h.live .fenvDecay, h.live .fenvSustain, h.live .fenvRelease⟩

theorem State.inv_reset : State.reset.Inv where
  stages := ⟨rfl, rfl⟩
  aenv := .reset
  fenv := .reset
  lfoPhase := inPhase_zero
  lfoSh := inSigned_zero
  freq := nonneg_zero
  live := inRange_ofWords accepts_resetWord
  outbuf := ⟨rfl, by simp [State.reset]⟩

theorem State.phasesOk_reset : State.reset.PhasesOk := ⟨inPhase_zero, inPhase_zero⟩

/-! ## Note events, the commit, the emergency stop -/

/-- A note-on keeps the invariants: both envelopes go to Attack, at their level or at 0 (44_voice.md R231, R232). -/
theorem State.Inv.noteOn {s : State} (h : s.Inv) {f : F64} (hf : nonneg f = true) : (voiceNoteOn f s).Inv := by
  unfold voiceNoteOn
  split
  · exact ⟨⟨rfl, rfl⟩, Envelope.Ok.reset.noteOn, Envelope.Ok.reset.noteOn, inPhase_zero, inSigned_zero, hf, h.live, h.outbuf⟩
  all_goals exact ⟨⟨rfl, rfl⟩, h.aenv.noteOn, h.fenv.noteOn, h.lfoPhase, h.lfoSh, hf, h.live, h.outbuf⟩

/-- A note-on clears both phases or leaves them. -/
theorem State.PhasesOk.noteOn {s : State} (h : s.PhasesOk) (f : F64) : (voiceNoteOn f s).PhasesOk := by
  unfold voiceNoteOn
  split
  · exact ⟨inPhase_zero, inPhase_zero⟩
  all_goals exact h.congr rfl rfl

/-- A held envelope is released (42_envelope.md R183). -/
theorem envNoteOff_stage_of_held {e : Envelope} (h : e.stage.held = true) : (envNoteOff e).stage = .release := by
  rcases envNoteOff_cases e with ⟨_, he⟩ | ⟨hs, _⟩
  · rw [he]
  · rcases hs with hs | hs <;> rw [hs] at h <;> cases h

theorem envNoteOff_of_not_held {e : Envelope} (h : e.stage = .release ∨ e.stage = .idle) : envNoteOff e = e := by
  unfold envNoteOff
  rcases h with h | h <;> rw [h]

theorem State.Inv.noteOff {s : State} (h : s.Inv) : (voiceNoteOff s).Inv := by
  have hst := h.stages
  unfold voiceNoteOff
  split
  next => exact h
  next hv =>
    rw [hv] at hst
    exact ⟨⟨envNoteOff_stage_of_held hst.1, .inl (envNoteOff_stage_of_held hst.2)⟩, h.aenv.noteOff, h.fenv.noteOff,
      h.lfoPhase, h.lfoSh, h.freq, h.live, h.outbuf⟩
  next hv =>
    rw [hv] at hst
    obtain ⟨ha, hf⟩ := hst
    refine ⟨⟨?_, ?_⟩, h.aenv.noteOff, h.fenv.noteOff, h.lfoPhase, h.lfoSh, h.freq, h.live, h.outbuf⟩
    · rwa [envNoteOff_of_not_held (.inl ha)]
    · rwa [envNoteOff_of_not_held hf]

theorem State.PhasesOk.noteOff {s : State} (h : s.PhasesOk) : (voiceNoteOff s).PhasesOk := by
  unfold voiceNoteOff
  split <;> exact h.congr rfl rfl

theorem State.Inv.commit {s : State} (h : s.Inv) : (commitParams s).Inv := by
  rw [commitParams_eq]
  exact ⟨h.stages, h.aenv, h.fenv, h.lfoPhase, h.lfoSh, h.freq, inRange_ofWords fun p => accepts_sanitize p _, h.outbuf⟩

theorem State.Inv.hardStop {s : State} (h : s.Inv) : (hardStop s).Inv :=
  ⟨⟨rfl, rfl⟩, .reset, .reset, h.lfoPhase, h.lfoSh, h.freq, h.live, h.outbuf⟩

/-! ## One rendered sample -/

@[simp] theorem teardown_freq (e : Envelope) (v : Voice) : (teardown e v).freq = v.freq := by unfold teardown; split <;> rfl
@[simp] theorem teardown_oscPhase (e : Envelope) (v : Voice) : (teardown e v).oscPhase = v.oscPhase := by
  unfold teardown; split <;> rfl
@[simp] theorem teardown_subPhase (e : Envelope) (v : Voice) : (teardown e v).subPhase = v.subPhase := by
  unfold teardown; split <;> rfl
@[simp] theorem teardown_lfoPhase (e : Envelope) (v : Voice) : (teardown e v).lfoPhase = v.lfoPhase := by
  unfold teardown; split <;> rfl
@[simp] theorem teardown_lfoSh (e : Envelope) (v : Voice) : (teardown e v).lfoSh = v.lfoSh := by unfold teardown; split <;> rfl

/-- A tick does not end a held stage (42_envelope.md R185). -/
theorem held_envTick {e : Envelope} (h : e.stage.held = true) (p : Adsr) (dt : F64) : (envTick e p dt).stage.held = true := by
  rcases envTick_stage e p dt with hs | ⟨_, hs⟩ | ⟨_, hs⟩ | ⟨hr, _⟩
  · rwa [hs]
  · rw [hs]; rfl
  · rw [hs]; rfl
  · rw [hr] at h; cases h

/-- A tick leaves Release or goes to the reset envelope. -/
theorem envTick_of_release {e : Envelope} (h : e.stage = .release) (p : Adsr) (dt : F64) :
    (envTick e p dt).stage = .release ∨ envTick e p dt = Envelope.reset := by
  rcases envTick_stage e p dt with hs | ⟨ha, _⟩ | ⟨hd, _⟩ | ⟨_, hr⟩
  · exact .inl (hs.trans h)
  · rw [h] at ha; cases ha
  · rw [h] at hd; cases hd
  · exact .inr hr

theorem envTick_released {e : Envelope} (h : e.stage = .release ∨ e.stage = .idle) (p : Adsr) (dt : F64) :
    (envTick e p dt).stage = .release ∨ (envTick e p dt).stage = .idle := by
  rcases h with h | h
  · exact (envTick_of_release h p dt).imp_right fun hr => by rw [hr]; rfl
  · exact .inr (by simp [envTick, h])

/-- The stages go with the voice state after a tick: the voice ends in the tick in which `aenv` does (44_voice.md R236, R238). -/
theorem stagesAgree_teardown {v : Voice} {aenv fenv : Envelope} (h : stagesAgree v.vstate aenv fenv) (hv : v.vstate ≠ .idle)
    (p q : Adsr) (dt : F64) :
    stagesAgree (teardown (envTick aenv p dt) v).vstate (envTick aenv p dt) (envTick fenv q dt) := by
  unfold teardown
  cases hs : v.vstate with
  | idle => exact absurd hs hv
  | sounding =>
    rw [hs] at h
    rw [if_neg (by simp), hs]
    exact ⟨held_envTick h.1 p dt, held_envTick h.2 q dt⟩
  | releasing =>
    rw [hs] at h
    obtain ⟨ha, hf⟩ := h
    rcases envTick_of_release ha p dt with hr | hr
    · rw [if_neg (by simp [hr]), hs]
      exact ⟨hr, envTick_released hf q dt⟩
    · rw [hr, if_pos ⟨rfl, rfl⟩]
      exact ⟨rfl, rfl⟩

/-- The tick of a voice keeps the invariants. -/
theorem State.Inv.renderVoice {s : State} (h : s.Inv) (hv : s.voice.vstate ≠ .idle) {fs : F64}
    (hfs : F64.le (lit 80) fs = true) : (renderVoice fs s).2.Inv := by
  obtain ⟨hst, hfreq, _, _, hphase, hsh⟩ := signalChain_voice s.live s.voice s.fenv.level fs s.draws
  rw [renderVoice_eq]
  refine ⟨stagesAgree_teardown (by rw [hst]; exact h.stages) (by rwa [hst]) _ _ _, h.aenv.tick h.amp hfs,
    h.fenv.tick h.filter hfs, ?_, ?_, ?_, h.live, h.outbuf⟩
  · rw [teardown_lfoPhase, hphase]
    obtain ⟨hlo, hhi⟩ := within_iff.1 (h.live .lfoRate)
    exact inPhase_advance h.lfoPhase (isFinite_of_between hlo hhi (by decide) (by decide)) hlo hfs
  · rw [teardown_lfoSh]
    rcases hsh with hsh | ⟨k, hsh⟩ <;> rw [hsh]
    · exact h.lfoSh
    · exact inSigned_draw k
  · rw [teardown_freq, hfreq]
    exact h.freq

theorem State.Inv.renderOne {s : State} (h : s.Inv) {fs : F64} (hfs : F64.le (lit 80) fs = true) : (renderOne fs s).2.Inv := by
  by_cases hv : s.voice.vstate = .idle
  · rw [renderOne_idle fs hv]
    exact h.congr rfl rfl rfl rfl rfl
  · rw [renderOne_voice fs hv]
    exact (h.renderVoice hv hfs).congr rfl rfl rfl rfl rfl

/-- The tick of a voice keeps both phases in [0, 1) while the frequencies they advance by are finite (40_oscillator.md R137). -/
theorem State.PhasesOk.renderOne {s : State} (h : s.PhasesOk) (hi : s.Inv) (hf : s.FreqsFinite) {fs : F64}
    (hfs : F64.le (lit 80) fs = true) : (renderOne fs s).2.PhasesOk := by
  by_cases hv : s.voice.vstate = .idle
  · rw [renderOne_idle fs hv]
    exact h.congr rfl rfl
  · obtain ⟨_, _, hosc, hsub, _, _⟩ := signalChain_voice s.live s.voice s.fenv.level fs s.draws
    have hfreq := isFinite_mul_half hf.voice hi.freq
    have hn := nonneg_mul hf.voice isFinite_half hi.freq (by decide +kernel)
    rw [renderOne_voice fs hv, renderVoice_eq]
    constructor
    · rw [countSample_voice, teardown_oscPhase, hosc]
      exact inPhase_advance h.osc hf.osc (nonneg_oscFreq (hi.live .detune) hf.voice hi.freq) hfs
    · rw [countSample_voice, teardown_subPhase, hsub]
      exact inPhase_advance h.sub hfreq hn hfs

/-- A rendered sample changes neither frequency. -/
theorem State.FreqsFinite.renderOne {s : State} (h : s.FreqsFinite) (fs : F64) : (renderOne fs s).2.FreqsFinite := by
  have ⟨_, _, _, _, hl, _, _, _, _, _, _, hf⟩ := renderOne_frame fs s
  refine ⟨hf ▸ h.voice, ?_⟩
  unfold oscFreq
  rw [hl, hf]
  exact h.osc

/-! ## A block of samples -/

/-- An element of `OUTBUF` written inside it. -/
theorem Memory.Ok.store64 {m : Memory} (h : m.Ok) {i : Nat} (hi : i < Config.outbufLen) (w : Word) :
    (m.store64 (outbufOffset i) w).Ok where
  canonical := wf_store64 m _ w h.canonical
  place c hc := by
    rcases mem_store64 hc with hc | ⟨h1, h2⟩
    · exact h.place c hc
    · unfold outbufOffset at h1 h2
      omega

theorem State.Inv.outbufSet {s : State} (h : s.Inv) {i : Nat} (hi : i < Config.outbufLen) (x : F64) : (outbufSet i x s).Inv :=
  ⟨h.stages, h.aenv, h.fenv, h.lfoPhase, h.lfoSh, h.freq, h.live, h.outbuf.store64 hi _⟩

/-- An invariant that one sample and one store into `OUTBUF` keep is kept by a block that ends in `OUTBUF`. -/
theorem renderFrames_keeps_below {P : State → Prop} {fs : F64} (hr : ∀ s, P s → P (renderOne fs s).2)
    (hs : ∀ i x s, i < Config.outbufLen → P s → P (outbufSet i x s)) (n i : Nat) (hn : i + n ≤ Config.outbufLen) {s : State}
    (h : P s) : P (renderFrames fs n i s) := by
  induction n generalizing i s with
  | zero => exact h
  | succ n ih => exact ih (i + 1) (by omega) (hs _ _ _ (by omega) (hr _ h))

theorem clampFrames_le (f : Nat) : 0 + clampFrames f ≤ Config.outbufLen := by
  rw [zero_add]
  exact Nat.min_le_right _ _

theorem State.Inv.renderFrames {s : State} (h : s.Inv) {fs : F64} (hfs : F64.le (lit 80) fs = true) (f : Nat) :
    (renderFrames fs (clampFrames f) 0 s).Inv :=
  renderFrames_keeps_below (fun _ h => h.renderOne hfs) (fun _ x _ hi h => h.outbufSet hi x) _ _ (clampFrames_le f) h

/-- The phases stay in [0, 1) over a block, with the invariants and the premise on the frequencies. -/
theorem State.PhasesOk.renderFrames {s : State} (h : s.PhasesOk) (hi : s.Inv) (hf : s.FreqsFinite) {fs : F64}
    (hfs : F64.le (lit 80) fs = true) (f : Nat) : (renderFrames fs (clampFrames f) 0 s).PhasesOk := by
  refine (renderFrames_keeps_below (P := fun s => s.PhasesOk ∧ s.Inv ∧ s.FreqsFinite) ?_ ?_ _ _ (clampFrames_le f)
    ⟨h, hi, hf⟩).1
  · intro s ⟨h, hi, hf⟩
    exact ⟨h.renderOne hi hf hfs, hi.renderOne hfs, hf.renderOne fs⟩
  · intro i x s hlt ⟨h, hi, hf⟩
    exact ⟨h.congr rfl rfl, hi.outbufSet hlt x, ⟨hf.voice, hf.osc⟩⟩

/-! ## Commands -/

/-- Every command keeps the invariants. -/
theorem State.Inv.exec {s u : State} (h : s.Inv) {i : Instr} (hx : exec i s = .next u) : u.Inv := by
  cases i with
  | nop => cases hx; exact h
  | noteOn n o => cases hx; exact h.noteOn (nonneg_keyFreq n o)
  | noteOnHz => cases hx; exact h.noteOn (nonneg_freqOperand _)
  | noteOff => cases hx; exact h.noteOff
  | setParams => cases hx; exact h.commit
  | renderSample r => cases hx; exact h.renderOne (le_sampleRate r)
  | renderBlock f r => cases hx; exact h.renderFrames (le_sampleRate r) f
  | hardStop => cases hx; exact h.hardStop

/-- Every command keeps both phases in [0, 1) while the frequencies are finite. -/
theorem State.PhasesOk.exec {s u : State} (h : s.PhasesOk) (hi : s.Inv) (hf : s.FreqsFinite) {i : Instr}
    (hx : exec i s = .next u) : u.PhasesOk := by
  cases i with
  | nop => cases hx; exact h
  | noteOn n o => cases hx; exact h.noteOn _
  | noteOnHz => cases hx; exact h.noteOn _
  | noteOff => cases hx; exact h.noteOff
  | setParams =>
    cases hx
    rw [commitParams_eq]
    exact h.congr rfl rfl
  | renderSample r => cases hx; exact h.renderOne hi hf (le_sampleRate r)
  | renderBlock f r => cases hx; exact h.renderFrames hi hf (le_sampleRate r) f
  | hardStop => cases hx; exact h.congr rfl rfl

end Sys2Proof.Machine

namespace Sys2Proof.Proofs

open Machine

/-- Settles O16: only a command or the reset changes what the invariants read (`step_sound`), and each of them keeps them. -/
theorem everyStepKeepsTheInvariants : Obligations.EveryStepKeepsTheInvariants := by
  intro s t hi h
  rcases step_sound h with hs | ⟨_, hs⟩ | ⟨i, u, _, hx, hs⟩
  · exact hi.of_sameSound hs
  · exact State.inv_reset.of_sameSound hs
  · exact (hi.exec hx).of_sameSound hs

/-- Settles O17, as O16: the phases move in a rendered sample only, and there by a finite frequency (`inPhase_advance`). -/
theorem everyStepKeepsThePhasesInRange : Obligations.EveryStepKeepsThePhasesInRange := by
  intro s t hi hp hf h
  rcases step_sound h with hs | ⟨_, hs⟩ | ⟨i, u, _, hx, hs⟩
  · exact hp.congr (by rw [hs.voice]) (by rw [hs.voice])
  · exact State.phasesOk_reset.congr (by rw [hs.voice]) (by rw [hs.voice])
  · exact (hp.exec hi hf hx).congr (by rw [hs.voice]) (by rw [hs.voice])

/-- Settles O15: every default of the table lies in its own range (`accepts_resetWord`). -/
theorem invariantsHoldAtReset : Obligations.InvariantsHoldAtReset := ⟨State.inv_reset, State.phasesOk_reset⟩

end Sys2Proof.Proofs
end

section
/-! PROOFS. The host window and the statements of 10_state.md about registers, flags and writers. -/

namespace Sys2Proof.Machine

open Claims

/-! ## The map of the window -/

theorem regAt_param (p : Param) : regAt (0x040 + 8 * p.index.val) = .param p := by cases p <;> rfl

theorem regAt_outbuf {i : Nat} (hi : i < 2048) : regAt (0x1000 + 8 * i) = .outbuf i := by
  unfold regAt outbufBase Config.outbufLen
  repeat rw [if_neg (by omega)]
  rw [if_pos (by omega), Nat.add_sub_cancel_left, Nat.mul_div_cancel_left i (by decide)]

theorem regAt_reserved {a : Nat}
    (h : a = 0x038 ∨ (0x0E8 ≤ a ∧ a ≤ 0x0F8) ∨ (0x168 ≤ a ∧ a ≤ 0x0FF8) ∨ 0x5000 ≤ a) : regAt a = .reserved := by
  unfold regAt outbufBase Config.outbufLen
  repeat rw [if_neg (by omega)]

/-! ## Reads -/

/-- With no command latched a read is exact. -/
theorem readValue_of_not_busy {s : State} (h : s.slot = none) (r : Reg) : readValue s r = regValue s r := by
  simp [readValue, readIsFree, busy, h]

/-- A shadow register reads exactly, busy or not (10_state.md R42, 70_reset_and_hazards.md R312). -/
theorem readValue_param (s : State) (p : Param) : readValue s (.param p) = shadowGet s p := by
  simp [readValue, readIsFree, unspecifiedWhileBusy, regValue]

/-! ## The fields of `STATUS` -/

/-- A number of `k` bits has no bit above them. -/
theorem getLsbD_of_toNat_lt {w : Word} {k i : Nat} (h : w.toNat < 2 ^ k) (hi : k ≤ i) : w.getLsbD i = false := by
  rw [← BitVec.testBit_toNat]
  exact Nat.testBit_lt_two_pow (h.trans_le (Nat.pow_le_pow_right (by decide) hi))

/-- The code of a voice state fits in two bits. -/
theorem getLsbD_VState_code (v : VState) {i : Nat} (hi : 2 ≤ i) : v.code.getLsbD i = false :=
  getLsbD_of_toNat_lt (by cases v <;> decide) hi

/-- The code of a stage fits in three bits. -/
theorem getLsbD_Stage_code (e : Stage) {i : Nat} (hi : 3 ≤ i) : e.code.getLsbD i = false :=
  getLsbD_of_toNat_lt (by cases e <;> decide) hi

theorem getLsbD_flagBit (b : Bool) {n : Nat} (hn : n < 64) (i : Nat) : (flagBit b n).getLsbD i = (b && decide (n = i)) := by
  cases b with
  | false => simp [flagBit]
  | true =>
    have h : (1 <<< n : Word) = BitVec.twoPow 64 n := rfl
    simp only [flagBit, if_true, h, BitVec.getLsbD_twoPow, hn, decide_true, Bool.true_and]

/-- `STATUS` bit by bit: each part shifted to its place (10_state.md R34). -/
theorem getLsbD_statusWord (s : State) {i : Nat} (hi : i < 64) :
    (statusWord s).getLsbD i =
      (s.voice.vstate.code.getLsbD i || (!decide (i < 2) && s.aenv.stage.code.getLsbD (i - 2)) ||
        (!decide (i < 5) && s.fenv.stage.code.getLsbD (i - 5)) || (busy s && decide (8 = i)) ||
        (errAny s && decide (9 = i))) := by
  have h8 := getLsbD_flagBit (busy s) (n := 8) (by decide) i
  have h9 := getLsbD_flagBit (errAny s) (n := 9) (by decide) i
  simp only [statusWord, BitVec.getLsbD_or, BitVec.getLsbD_shiftLeft, h8, h9, hi, decide_true, Bool.true_and]

theorem extract_statusWord_vstate (s : State) : (statusWord s).extractLsb' 0 2 = s.voice.vstate.code.setWidth 2 := by
  refine BitVec.eq_of_getLsbD_eq fun i hi => ?_
  interval_cases i <;> simp [-BitVec.getLsbD_eq_getElem, getLsbD_statusWord]

theorem extract_statusWord_aenv (s : State) : (statusWord s).extractLsb' 2 3 = s.aenv.stage.code.setWidth 3 := by
  refine BitVec.eq_of_getLsbD_eq fun i hi => ?_
  interval_cases i <;> simp [-BitVec.getLsbD_eq_getElem, getLsbD_statusWord, getLsbD_VState_code]

theorem extract_statusWord_fenv (s : State) : (statusWord s).extractLsb' 5 3 = s.fenv.stage.code.setWidth 3 := by
  refine BitVec.eq_of_getLsbD_eq fun i hi => ?_
  interval_cases i <;> simp [-BitVec.getLsbD_eq_getElem, getLsbD_statusWord, getLsbD_VState_code, getLsbD_Stage_code]

theorem getLsbD_statusWord_busy (s : State) : (statusWord s).getLsbD 8 = busy s := by
  simp [-BitVec.getLsbD_eq_getElem, getLsbD_statusWord, getLsbD_VState_code, getLsbD_Stage_code]

theorem getLsbD_statusWord_errAny (s : State) : (statusWord s).getLsbD 9 = errAny s := by
  simp [-BitVec.getLsbD_eq_getElem, getLsbD_statusWord, getLsbD_VState_code, getLsbD_Stage_code]

theorem extract_statusWord_above (s : State) : (statusWord s).extractLsb' 10 54 = 0 := by
  refine BitVec.eq_of_getLsbD_eq fun i hi => ?_
  have h64 : 10 + i < 64 := by omega
  have hv := getLsbD_VState_code s.voice.vstate (i := 10 + i) (by omega)
  have ha := getLsbD_Stage_code s.aenv.stage (i := 10 + i - 2) (by omega)
  have hf := getLsbD_Stage_code s.fenv.stage (i := 10 + i - 5) (by omega)
  have h8 : ¬ 8 = 10 + i := by omega
  have h9 : ¬ 9 = 10 + i := by omega
  rw [BitVec.getLsbD_extractLsb', getLsbD_statusWord s h64, hv, ha, hf]
  simp [h8, h9]

/-! ## Writes -/

/-- The step of an aligned host write. -/
theorem step_of_write {s : State} {a : Nat} {v : Word} {rest : List Input} (hi : s.inputs = .write a 8 v :: rest)
    (hm : hostMoves s) (ha : aligned a 8) : step s = .next (hostWrite a v (takeInput rest s)) := by
  obtain ⟨_, h8, hlt⟩ := ha
  have hc : inContract a 8 = true := by simp [inContract, h8, Config.windowSize, hlt]
  rw [step_of_input hi hm, inputStep, if_pos hc]

theorem aligned_param (p : Param) : aligned (0x040 + 8 * p.index.val) 8 := by
  refine ⟨rfl, ?_, ?_⟩ <;> omega

/-! ## The commit -/

theorem commitLive_eq (s : State) : commitLive s = .ofWords fun p => sanitized p s.shadow[p.index] := by
  simp only [commitLive, sanitize_fst]
  rfl

theorem accepts_sanitized (p : Param) (raw : Word) : p.row.accepts (sanitized p raw) = true :=
  sanitize_fst p raw ▸ accepts_sanitize p raw

end Sys2Proof.Machine

namespace Sys2Proof.Proofs

open Machine Claims

/-- Settles O7: what clears a flag is a write of its bit to `ERR`, or the reset; every other change of `ERR` sets bits
(`step_err`). -/
theorem errorFlagsAreSticky : Obligations.ErrorFlagsAreSticky := by
  intro s t i h hi
  rcases step_err h with he | ⟨_, _, he⟩ | ⟨_, _, _, _, he⟩ | ⟨_, _, _, he⟩ | ⟨v, ht, he⟩ | ⟨ht, _⟩
  · exact .inl (he ▸ hi)
  · exact .inl (by rw [he, BitVec.getLsbD_or, hi, Bool.true_or])
  · exact .inl (by rw [he, BitVec.getLsbD_or, hi, Bool.true_or])
  · exact .inl (by rw [he, BitVec.getLsbD_or, hi, Bool.true_or])
  · cases hv : v.getLsbD i with
    | true => exact .inr (.inl ⟨v, ht, hv⟩)
    | false =>
      left
      have hlt : i < 3 := BitVec.lt_of_getLsbD hi
      simp [he, hi, hv, hlt]
  · exact .inr (.inr ht)

/-- Settles O8: each flag's bit comes in by one case of `step_err` only. -/
theorem errorFlagsHaveTheirCauses : Obligations.ErrorFlagsHaveTheirCauses := by
  intro s t h
  rcases step_err h with he | ⟨hr, hbad, he⟩ | ⟨w, e, hw, hd, he⟩ | ⟨v, ht, hs, he⟩ | ⟨v, _, he⟩ | ⟨_, he⟩ <;> rw [he]
  · exact ⟨.inl, .inl, .inl⟩
  · exact ⟨fun _ => .inr ⟨hr, (commitBad_iff s).1 hbad⟩, fun hb => .inl (by simpa using hb), fun hb => .inl (by simpa using hb)⟩
  · exact ⟨fun hb => .inl (by simpa using hb), fun _ => .inr ⟨w, e, hw, hd⟩, fun hb => .inl (by simpa using hb)⟩
  · exact ⟨fun hb => .inl (by simpa using hb), fun hb => .inl (by simpa using hb), fun _ => .inr ⟨⟨v, ht⟩, hs⟩⟩
  · simp only [BitVec.getLsbD_and, Bool.and_eq_true]
    exact ⟨fun hb => .inl hb.1, fun hb => .inl hb.1, fun hb => .inl hb.1⟩
  · simp

/-- Settles O11: only the render commands write the counter (`exec_writers`). -/
theorem sampleCountCountsRenderedSamples : Obligations.SampleCountCountsRenderedSamples := by
  refine ⟨rfl, fun _ => rfl, fun _ _ => rfl, fun fs s => (renderOne_count fs s).1, rfl, fun s t h => ?_⟩
  rcases step_sound h with hs | ⟨ht, hs⟩ | ⟨i, u, hr, hx, hs⟩ <;> rw [hs.sampleCount]
  · exact .inl rfl
  · exact .inr (.inl ⟨ht, rfl⟩)
  · obtain ⟨_, _, _, _, hc | ⟨r, rfl, hc⟩ | ⟨f, r, rfl, hc⟩⟩ := exec_writers hx
    · exact .inl hc
    · exact .inr (.inr (.inl ⟨r, hr, hc⟩))
    · exact .inr (.inr (.inr ⟨f, r, hr, hc⟩))

/-- Settles O14: the writers of each command (`exec_writers`), and the reset. -/
theorem liveBankAndOutputsHaveTheirWriters : Obligations.LiveBankAndOutputsHaveTheirWriters := by
  intro s t h
  rcases step_sound h with hs | ⟨ht, _⟩ | ⟨i, u, hr, hx, hs⟩
  · exact ⟨.inl hs.live, .inl hs.outbuf, .inl hs.lastSample⟩
  · exact ⟨.inr (.inr ht), .inr (.inr ht), .inr (.inr (.inr (.inr ht)))⟩
  · obtain ⟨_, hl, ho, hy, _⟩ := exec_writers hx
    rw [hs.live, hs.outbuf, hs.lastSample]
    refine ⟨?_, ?_, ?_⟩
    · rcases hl with hl | rfl
      · exact .inl hl
      · exact .inr (.inl hr)
    · rcases ho with ho | ⟨f, r, rfl⟩
      · exact .inl ho
      · exact .inr (.inl ⟨f, r, hr⟩)
    · rcases hy with hy | ⟨r, rfl⟩ | ⟨f, r, rfl⟩ | rfl
      · exact .inl hy
      · exact .inr (.inl ⟨r, hr⟩)
      · exact .inr (.inr (.inl ⟨f, r, hr⟩))
      · exact .inr (.inr (.inr (.inl hr)))

/-- Settles O53: the live bank is made of the sanitised words, all of which the table accepts. -/
theorem setParamsCommitsTheShadowBank : Obligations.SetParamsCommitsTheShadowBank := by
  intro s
  have hw : ∀ p : Param, p.row.accepts (sanitized p s.shadow[p.index]) = true := fun p => accepts_sanitized p _
  refine ⟨commitParams s, rfl, ?_⟩
  rw [commitParams_eq, commitLive_eq, ← commitBad_iff]
  exact ⟨rfl, holds_ofWords hw, word_ofWords hw, fun h => if_pos h, fun h => if_neg h⟩

/-- Settles O4: single offsets by evaluation, the two ranges by `regAt_outbuf` and `regAt_reserved`. -/
theorem windowMapIsThatOfTheTable : Obligations.WindowMapIsThatOfTheTable :=
  ⟨rfl, rfl, rfl, rfl, rfl, rfl, rfl, rfl, rfl, fun _ => regAt_outbuf, fun _ => regAt_reserved⟩

/-- Settles O5: a read that is not free is the register's value. -/
theorem registersReadTheirContents : Obligations.RegistersReadTheirContents := by
  intro s hs
  have h := readValue_of_not_busy hs
  exact ⟨h _, h _, h _, h _, h _, h _, h _, fun _ => h _, fun _ => h _, h _, h _, h _, h _, h _, h _, h _, h _, h _, h _, h _,
    h _, h _, h _⟩

/-- Settles O6: the codes fit in their fields, so no part reaches into another's. -/
theorem statusFieldsAreThoseOfTheTable : Obligations.StatusFieldsAreThoseOfTheTable := by
  intro s
  refine ⟨(extract_statusWord_vstate s).trans ?_, (extract_statusWord_aenv s).trans ?_, (extract_statusWord_fenv s).trans ?_,
    getLsbD_statusWord_busy s, (getLsbD_statusWord_errAny s).trans ?_, extract_statusWord_above s⟩
  · cases s.voice.vstate <;> rfl
  · cases s.aenv.stage <;> rfl
  · cases s.fenv.stage <;> rfl
  · exact decide_not.symm

/-- Settles O9: the latch and the overrun are the two branches of `writeCmd`. -/
theorem cmdWriteLatchesOrOverruns : Obligations.CmdWriteLatchesOrOverruns := by
  intro s w rest hi
  have ha : aligned 0x018 8 := ⟨rfl, rfl, by decide⟩
  have hw : hostWrite 0x018 w (takeInput rest s) = writeCmd w (takeInput rest s) := rfl
  refine ⟨fun hs => ?_, fun hs hwait => ?_⟩
  · rw [step_of_write hi (.inl hs) ha, hw]
    rcases writeCmd_cases w (takeInput rest s) with ⟨_, h⟩ | ⟨u, hu, _⟩
    · rw [h]
      rfl
    · cases hs.symm.trans hu
  · rw [step_of_write hi (.inr hwait) ha, hw]
    rcases writeCmd_cases w (takeInput rest s) with ⟨hn, _⟩ | ⟨_, _, h⟩
    · cases (congrArg Option.isSome hn).symm.trans hs
    · rw [h]
      rfl

/-- Settles O10: the branches of `hostWrite`, by the register at the offset. -/
theorem hostWritesStoreClearOrAreIgnored : Obligations.HostWritesStoreClearOrAreIgnored := by
  intro s a v rest hi hm ha
  simp only [step_of_write hi hm ha, hostWrite]
  refine ⟨fun hr => by rw [hr]; rfl, fun hr => by rw [hr]; rfl, fun p hr => by rw [hr]; rfl, fun r hr h => ?_⟩
  rw [hr]
  rcases h with rfl | rfl | rfl | rfl | ⟨_, rfl⟩ | ⟨_, rfl⟩ | rfl <;> rfl

/-- Settles O12: each decimal of the table is rounded once and compared. -/
theorem parameterTableIsThatOfTheSpec : Obligations.ParameterTableIsThatOfTheSpec := by
  unfold Obligations.ParameterTableIsThatOfTheSpec
  decide +kernel

/-- Settles O13: the offset is that of the register (`regAt_param`), and the write is `shadowSet`. -/
theorem shadowRegistersReadBackAsWritten : Obligations.ShadowRegistersReadBackAsWritten := by
  intro s p v rest hi hm
  have hw : hostWrite (0x040 + 8 * p.index.val) v (takeInput rest s) = shadowSet p v (takeInput rest s) := by
    simp only [hostWrite, regAt_param]
  refine ⟨_, step_of_write hi hm (aligned_param p), ?_, fun q hq => ?_, ?_⟩ <;> rw [hw]
  · rw [readValue_param, shadowGet_shadowSet_same]
  · rw [readValue_param, readValue_param, shadowGet_shadowSet_other v _ hq]
    rfl
  · rfl

end Sys2Proof.Proofs
end

section
/-! PROOFS. The statements of 20_memory.md: the accesses the host may make, the bytes of a register, and reads. -/

namespace Sys2Proof

/-! ## The bytes of a word -/

theorem byteOf_eq_extractLsb' (w : Word) (k : Nat) : byteOf w k = w.extractLsb' (8 * k) 8 := by
  refine BitVec.eq_of_getLsbD_eq fun i _ => ?_
  rw [getLsbD_byteOf, BitVec.getLsbD_extractLsb']

theorem byteOf_wordOfBytes_cons_zero (b : Byte) (bs : List Byte) : byteOf (wordOfBytes (b :: bs)) 0 = b := by
  refine BitVec.eq_of_getLsbD_eq fun i hi => ?_
  simp [-BitVec.getLsbD_eq_getElem, getLsbD_byteOf, wordOfBytes, hi, show i < 64 by omega]

theorem byteOf_wordOfBytes_cons_succ (b : Byte) (bs : List Byte) {k : Nat} (hk : k + 1 < 8) :
    byteOf (wordOfBytes (b :: bs)) (k + 1) = byteOf (wordOfBytes bs) k := by
  refine BitVec.eq_of_getLsbD_eq fun i hi => ?_
  have hat : 8 * (k + 1) + i - 8 = 8 * k + i := by omega
  have hb : b.getLsbD (8 * (k + 1) + i) = false := BitVec.getLsbD_of_ge _ _ (by omega)
  simp [-BitVec.getLsbD_eq_getElem, getLsbD_byteOf, wordOfBytes, hb, hat, show 8 * (k + 1) + i < 64 by omega,
    show ¬ 8 * (k + 1) + i < 8 by omega]

namespace Machine

/-- Byte `k` of the word of `n` bytes of memory is the byte `k` places on; a word holds eight. -/
theorem Memory.byteOf_wordOfBytes_readBytes (m : Memory) (a : Nat) {n k : Nat} (hk : k < n) (hn : k < 8) :
    byteOf (wordOfBytes (m.readBytes a n)) k = m.readByte (a + k) := by
  induction n generalizing a k with
  | zero => omega
  | succ n ih =>
    rw [Memory.readBytes]
    cases k with
    | zero => exact byteOf_wordOfBytes_cons_zero _ _
    | succ k =>
      rw [byteOf_wordOfBytes_cons_succ _ _ hn, ih (a + 1) (by omega) (by omega), Nat.add_right_comm, Nat.add_assoc]

/-- The bytes of a 64-bit register in memory are little-endian (20_memory.md R72). -/
theorem Memory.byteOf_load64 (m : Memory) (a : Nat) {k : Nat} (hk : k < 8) :
    byteOf (m.load64 a) k = m.readByte (a + k) :=
  m.byteOf_wordOfBytes_readBytes a hk hk

theorem windowByte_add (s : State) {a k : Nat} (ha : a % 8 = 0) (hk : k < 8) :
    windowByte s (a + k) = byteOf (regValue s (regAt a)) k := by
  have hmod : (a + k) % 8 = k := by omega
  rw [windowByte, hmod, Nat.add_sub_cancel]

open Claims

/-! ## The contract of an access -/

theorem inContract_iff {a n : Nat} : inContract a n = true ↔ aligned a n := by
  simp only [inContract, Bool.and_eq_true, decide_eq_true_eq, and_assoc]
  rfl

theorem inputStep_read_of_not_aligned {a n : Nat} (h : ¬ aligned a n) (s : State) :
    inputStep (.read a n) s = .refused (.accessOutsideContract a n) :=
  if_neg (mt inContract_iff.1 h)

theorem inputStep_write_of_not_aligned {a n : Nat} (h : ¬ aligned a n) (v : Word) (s : State) :
    inputStep (.write a n v) s = .refused (.accessOutsideContract a n) :=
  if_neg (mt inContract_iff.1 h)

/-! ## Reads -/

/-- The step of an aligned host read. -/
theorem step_of_read {s : State} {a : Nat} {rest : List Input} (hi : s.inputs = .read a 8 :: rest) (hm : hostMoves s)
    (ha : aligned a 8) : step s = .next (hostRead a (takeInput rest s)) := by
  rw [step_of_input hi hm, inputStep, if_pos (inContract_iff.2 ha)]

/-- The step of one round of `wait`. -/
theorem step_of_poll {s : State} {rest : List Input} (hi : s.inputs = .poll :: rest) (hm : hostMoves s) :
    step s = .next (pollStep (takeInput rest s)) := step_of_input hi hm

/-- Taking an input off the list does not change what a read returns. -/
@[simp] theorem readValue_takeInput (rest : List Input) (s : State) (r : Reg) :
    readValue (takeInput rest s) r = readValue s r := by
  cases r <;> rfl

/-- `BUSY` reads exactly, busy or not (70_reset_and_hazards.md R312): it is none of the unspecified bits. -/
theorem getLsbD_readValue_status_busy (s : State) : (readValue s .status).getLsbD 8 = busy s := by
  have hspec : (unspecifiedWhileBusy .status).getLsbD 8 = false := rfl
  unfold readValue
  split
  · simp [-BitVec.getLsbD_eq_getElem, hspec, regValue, getLsbD_statusWord_busy]
  · exact getLsbD_statusWord_busy s

end Machine
end Sys2Proof

namespace Sys2Proof.Proofs

open Machine Claims

/-- Settles O19: byte `k` of a word is its bits from `8k` on, and a word loaded from memory has the memory's bytes
(`byteOf_load64`). -/
theorem registerBytesAreLittleEndian : Obligations.RegisterBytesAreLittleEndian := by
  refine ⟨fun s a k ha hk => ?_, fun s i k hk => ?_, fun x => F64.sign_eq_msb x⟩
  · rw [windowByte_add s ha hk, byteOf_eq_extractLsb']
  · rw [← byteOf_eq_extractLsb']
    exact (s.outbuf.byteOf_load64 (outbufOffset i) hk).symm

/-- Settles O18: the contract of an access is that it is aligned (`inContract_iff`), and the others have no step. -/
theorem accessOutsideTheContractIsRefused : Obligations.AccessOutsideTheContractIsRefused := by
  rintro s a n v rest (hi | hi) hm ha
  · rw [step_of_input hi hm, inputStep_read_of_not_aligned ha]
  · rw [step_of_input hi hm, inputStep_write_of_not_aligned ha]

/-- Settles O20: the steps of a read and of a round of `wait` are `hostRead`, which only records. -/
theorem readsHaveNoSideEffects : Obligations.ReadsHaveNoSideEffects := by
  refine ⟨fun s a rest hi hm ha => ⟨_, step_of_read hi hm ha, ?_⟩, fun s rest hi hm =>
    ⟨_, step_of_poll hi hm, ?_, getLsbD_readValue_status_busy s⟩⟩
  · rw [← readValue_takeInput rest]
    rfl
  · rw [← readValue_takeInput rest, pollStep_eq]
    rfl

end Sys2Proof.Proofs
end

section
/-! PROOFS. The statements of 30_encoding.md: which words decode to an instruction, by the rows of the opcode map and by the
encoder, and the core step on the words that decode to none. -/

namespace Sys2Proof

/-! ## The row a word selects -/

/-- A word that selects a row (R108) has the row's opcode: every mask keeps bits [7:0]. -/
theorem opcodeOf_eq_of_selects {w : Word} {row : OpRow} (hm : row ∈ opcodeMap) (h : w &&& row.mask = row.mtch) :
    opcodeOf w = row.opcode := by
  have hmask : ∀ r ∈ opcodeMap, r.mask &&& 0xFF = 0xFF := by decide
  have hmtch : ∀ r ∈ opcodeMap, (r.mtch &&& 0xFF).toNat = r.opcode := by decide
  calc opcodeOf w = (w &&& 0xFF).toNat := by rw [toNat_and_maskR]; simp [opcodeOf, bitField]
    _ = (w &&& row.mask &&& 0xFF).toNat := by rw [BitVec.and_assoc, hmask row hm]
    _ = row.opcode := by rw [h, hmtch row hm]

/-- A word decodes exactly to the instruction of the row it selects, the operands in the fields of the row's format
(R102–R108). -/
theorem decode_eq_ok_iff_row {w : Word} {i : Instr} :
    decode w = .ok i ↔ ∃ row ∈ opcodeMap, w &&& row.mask = row.mtch ∧ i = row.op.withOperands w := by
  constructor
  · intro h
    unfold decode at h
    split at h
    next => cases h
    next row hrow =>
      split at h
      next hsel => exact ⟨row, List.mem_of_find?_eq_some hrow, hsel, (Except.ok.inj h).symm⟩
      next => cases h
  · rintro ⟨row, hm, hsel, rfl⟩
    have hfind : ∀ r ∈ opcodeMap, opcodeMap.find? (fun row => row.opcode == r.opcode) = some r := by decide
    rw [decode, opcodeOf_eq_of_selects hm hsel, hfind row hm]
    exact if_pos hsel

@[simp] theorem Op.op_withOperands (op : Op) (w : Word) : (op.withOperands w).op = op := by cases op <;> rfl

/-- `decode_eq_ok_iff_row` with the row of the instruction. -/
theorem decode_eq_ok_iff_of_find {w : Word} {i : Instr} {row : OpRow}
    (hrow : opcodeMap.find? (fun r => r.op == i.op) = some row) :
    decode w = .ok i ↔ w &&& row.mask = row.mtch ∧ i = row.op.withOperands w := by
  rw [decode_eq_ok_iff_row]
  constructor
  · rintro ⟨row', hm, hsel, rfl⟩
    have hfind : ∀ r ∈ opcodeMap, opcodeMap.find? (fun r' => r'.op == r.op) = some r := by decide
    rw [Op.op_withOperands, hfind row' hm, Option.some.injEq] at hrow
    exact hrow ▸ ⟨hsel, rfl⟩
  · exact fun h => ⟨row, List.mem_of_find?_eq_some hrow, h⟩

/-! ## The formats of the operands -/

theorem bitField_eq_extractLsb' (w : Word) (hi lo : Nat) : bitField w hi lo = (w.extractLsb' lo (hi + 1 - lo)).toNat := by
  rw [BitVec.extractLsb'_toNat, Nat.shiftRight_eq_div_pow, bitField]

/-- Format Z (R102): no operands, so the row alone decides. -/
theorem decode_eq_ok_iff_of_formatZ {w : Word} {i : Instr} {row : OpRow}
    (hrow : opcodeMap.find? (fun r => r.op == i.op) = some row) (hi : ∀ v, i = row.op.withOperands v) :
    decode w = .ok i ↔ w &&& row.mask = row.mtch :=
  (decode_eq_ok_iff_of_find hrow).trans (and_iff_left (hi w))

/-- Format K (R103). -/
theorem decode_eq_noteOn_iff {w : Word} {n o : Nat} :
    decode w = .ok (.noteOn n o) ↔ w &&& 0xFFFFFFFFFF0000FF = 0x01 ∧ n = bitField w 15 8 ∧ o = bitField w 23 16 := by
  rw [decode_eq_ok_iff_of_find rfl]; simp [Op.withOperands]

/-- Format S (R104). -/
theorem decode_eq_renderSample_iff {w : Word} {r : Nat} :
    decode w = .ok (.renderSample r) ↔ w &&& 0x00000000FFFFFFFF = 0x05 ∧ r = bitField w 63 32 := by
  rw [decode_eq_ok_iff_of_find rfl]; simp [Op.withOperands]

/-- Format R (R105). -/
theorem decode_eq_renderBlock_iff {w : Word} {f r : Nat} :
    decode w = .ok (.renderBlock f r) ↔
      w &&& 0x00000000000000FF = 0x06 ∧ f = bitField w 31 8 ∧ r = bitField w 63 32 := by
  rw [decode_eq_ok_iff_of_find rfl]; simp [Op.withOperands]

/-! ## The encoder -/

theorem and_maskS_iff (w : Word) : w &&& 0x00000000FFFFFFFF = 0x05 ↔ w.toNat % 2 ^ 32 = 5 := by
  rw [← BitVec.toNat_inj, toNat_and_maskS]; rfl

theorem and_maskR_iff (w : Word) : w &&& 0x00000000000000FF = 0x06 ↔ w.toNat % 2 ^ 8 = 6 := by
  rw [← BitVec.toNat_inj, toNat_and_maskR]; rfl

theorem wellFormed_noteOn_iff {n o : Nat} : (Instr.noteOn n o).WellFormed ↔ n < 2 ^ 8 ∧ o < 2 ^ 8 := by
  simp [Instr.WellFormed, Instr.wf]

theorem wellFormed_renderSample_iff {r : Nat} : (Instr.renderSample r).WellFormed ↔ r < 2 ^ 32 := by
  simp [Instr.WellFormed, Instr.wf]

theorem wellFormed_renderBlock_iff {f r : Nat} : (Instr.renderBlock f r).WellFormed ↔ f < 2 ^ 24 ∧ r < 2 ^ 32 := by
  simp [Instr.WellFormed, Instr.wf]

/-- The decoder and the encoder are inverse to each other: the row's fixed bits and the fields of its format make up the
whole word. -/
theorem decode_eq_ok_iff {w : Word} {i : Instr} : decode w = .ok i ↔ i.WellFormed ∧ encode i = w := by
  cases i with
  | nop | noteOnHz | noteOff | setParams | hardStop =>
    rw [decode_eq_ok_iff_of_formatZ rfl fun _ => rfl, and_maskZ]
    exact ⟨fun h => ⟨rfl, h.symm⟩, fun h => h.2.symm⟩
  | noteOn n o =>
    rw [decode_eq_noteOn_iff, and_maskK_iff, wellFormed_noteOn_iff, encode, ← BitVec.toNat_inj, BitVec.toNat_ofNat]
    simp only [bitField]
    omega
  | renderSample r =>
    rw [decode_eq_renderSample_iff, and_maskS_iff, wellFormed_renderSample_iff, encode, ← BitVec.toNat_inj,
      BitVec.toNat_ofNat]
    simp only [bitField]
    omega
  | renderBlock f r =>
    rw [decode_eq_renderBlock_iff, and_maskR_iff, wellFormed_renderBlock_iff, encode, ← BitVec.toNat_inj,
      BitVec.toNat_ofNat]
    simp only [bitField]
    omega

/-! ## Words without a meaning -/

/-- A word that selects no row of the opcode map is rejected (R106, R109). -/
theorem exists_decode_eq_error {w : Word} (h : ∀ row ∈ opcodeMap, w &&& row.mask ≠ row.mtch) :
    ∃ e, decode w = .error e := by
  cases hd : decode w with
  | error e => exact ⟨e, rfl⟩
  | ok i =>
    obtain ⟨row, hm, hsel, -⟩ := decode_eq_ok_iff_row.1 hd
    exact absurd hsel (h row hm)

/-- The masks and matches that the statements write out are those of the opcode map. -/
theorem opcodeRows_eq : Claims.opcodeRows = opcodeMap.map fun row => (row.mask, row.mtch) := rfl

namespace Machine

theorem coreStep_of_error {w : Word} {e : DecodeError} (h : decode w = .error e) (s : State) :
    coreStep w s = .next (emptySlot (raiseFlag .badCmd s)) := by
  rw [coreStep, h]

end Machine
end Sys2Proof

namespace Sys2Proof.Proofs

open Machine

/-- Settles O21: the decoder's inverse is the encoder (`decode_eq_ok_iff`). -/
theorem decodeOfEncodeIsTheInstruction : Obligations.DecodeOfEncodeIsTheInstruction :=
  fun _ hwf => decode_eq_ok_iff.2 ⟨hwf, rfl⟩

/-- Settles O22: the same equivalence from the word's side. -/
theorem encodeOfDecodeIsTheWord : Obligations.EncodeOfDecodeIsTheWord :=
  fun _ _ => decode_eq_ok_iff.1

/-- Settles O24: no instruction is decoded, since it would come from a row the word selects; the rest of the core step is
`BADCMD` and the empty slot. -/
theorem reservedWordsRaiseBadCmdOnly : Obligations.ReservedWordsRaiseBadCmdOnly := by
  rintro s w ⟨hslot, hwait⟩ hrows
  obtain ⟨e, he⟩ := exists_decode_eq_error fun row hm => hrows _ (opcodeRows_eq ▸ List.mem_map_of_mem hm)
  rw [step_of_core hslot hwait, coreStep_of_error he]
  rfl

/-- Settles O25: the rows of the opcode map one by one (`decode_eq_ok_iff_of_find`). -/
theorem wordsSelectTheRowOfTheOpcodeMap : Obligations.WordsSelectTheRowOfTheOpcodeMap := by
  refine fun w => ⟨?_, fun n o => ?_, ?_, ?_, ?_, fun r => ?_, fun f r => ?_, ?_⟩
  · rw [decode_eq_ok_iff_of_formatZ rfl fun _ => rfl]
  · rw [decode_eq_noteOn_iff, bitField_eq_extractLsb', bitField_eq_extractLsb']
  · rw [decode_eq_ok_iff_of_formatZ rfl fun _ => rfl]
  · rw [decode_eq_ok_iff_of_formatZ rfl fun _ => rfl]
  · rw [decode_eq_ok_iff_of_formatZ rfl fun _ => rfl]
  · rw [decode_eq_renderSample_iff, bitField_eq_extractLsb']
  · rw [decode_eq_renderBlock_iff, bitField_eq_extractLsb', bitField_eq_extractLsb']
  · rw [decode_eq_ok_iff_of_formatZ rfl fun _ => rfl]

/-- Settles O23: the words are evaluated. -/
theorem listedWordsDecodeAsListed : Obligations.ListedWordsDecodeAsListed := by
  unfold Obligations.ListedWordsDecodeAsListed
  decide

end Sys2Proof.Proofs
end

section
/-! PROOFS. The statements of 40_oscillator.md: the waveforms as functions of the phase, exact and in range, and the phases
that the oscillators advance. -/

namespace Sys2Proof.F64

/-! ## Exact products and differences -/

/-- A product with 1.0, 2.0 or 4.0 of a number of at most 1.0 is exact, and finite. -/
theorem mul_pow_two_exact {a m : F64} {k : Nat} (hk : k ≤ 2) (hm : m.isFinite = true)
    (hv : m.value = 2 ^ k * (2 ^ scale : Nat)) (h0 : le zero a = true) (h1 : le a one = true) :
    (mul m a).isFinite = true ∧ (mul m a).value = 2 ^ k * a.value := by
  have ha := isFinite_of_between h0 h1 isFinite_zero isFinite_one
  obtain ⟨c, hc, hcv⟩ := exists_scaled h0 h1 k hk
  have hval : (mul m a).value = c.value :=
    value_mul_exact hm ha (isNaN_of_isFinite hc) (by rw [hv, hcv, ← mul_assoc, mul_comm (2 ^ k)])
  exact ⟨isFinite_of_value_between (isNaN_mul hm ha) hc hc hval.ge hval.le, hval.trans hcv⟩

/-- A product of a number that is not negative and one in [0, 1] is finite. -/
theorem isFinite_mul_of_le_one {a m : F64} (hm : m.isFinite = true) (hm0 : 0 ≤ m.value) (h0 : le zero a = true)
    (h1 : le a one = true) : (mul m a).isFinite = true := by
  have ha := isFinite_of_between h0 h1 isFinite_zero isFinite_one
  have ha0 : 0 ≤ a.value := value_zero ▸ (le_iff.1 h0).2.2
  have ha1 : a.value ≤ (2 ^ scale : Nat) := value_one ▸ (le_iff.1 h1).2.2
  have hlo := value_mul_nonneg hm ha hm0 ha0
  have hhi := value_mul_le hm ha (isNaN_of_isFinite hm)
    ((mul_le_mul_of_nonneg_left ha1 hm0).trans_eq (mul_comm _ _))
  exact isFinite_of_value_between (isNaN_mul hm ha) isFinite_zero hm (value_zero.trans_le hlo) hhi

/-- A number of at least 1.0 is a multiple of 2^-52, as a signed value. -/
theorem dvd_value_of_one_le {a : F64} (h : (2 ^ scale : Nat) ≤ a.value) : ((2 ^ 1022 : Nat) : Int) ∣ a.value := by
  have hm : a.value = (a.mag : Int) := by
    have := natAbs_value a
    have := scale_pos
    omega
  rw [hm] at h ⊢
  exact Int.natCast_dvd_natCast.2 (dvd_mag_of_one_le (Int.ofNat_le.1 h))

/-- The difference of two numbers of at least 1.0 is exact where it is in [-1, 1]: both are multiples of 2^-52. -/
theorem value_sub_exact {a b : F64} (ha : a.isFinite = true) (hb : b.isFinite = true) (ha1 : (2 ^ scale : Nat) ≤ a.value)
    (hb1 : (2 ^ scale : Nat) ≤ b.value) (h : (a.value - b.value).natAbs ≤ 2 ^ scale) :
    (sub a b).value = a.value - b.value := by
  obtain ⟨z, hz⟩ := Int.dvd_sub (dvd_value_of_one_le ha1) (dvd_value_of_one_le hb1)
  have hz53 : z.natAbs ≤ 2 ^ 53 := by
    rw [hz, Int.natAbs_mul, Int.natAbs_natCast, pow_split (show 1022 ≤ scale by decide)] at h
    have h52 : z.natAbs ≤ 2 ^ (scale - 1022) := Nat.le_of_mul_le_mul_left h (by positivity)
    exact h52.trans (by decide)
  obtain ⟨c, hc, hcv⟩ := exists_of_value (s := 1022) hz53 (by norm_num)
  have hdiff : a.value - b.value = c.value := by rw [hz, hcv, mul_comm]
  rw [sub_finite ha hb, hdiff]
  exact value_addFinite_exact hc (by rw [value_neg, ← sub_eq_add_neg, hdiff])

theorem isNaN_sub_of_isFinite {a b : F64} (ha : a.isFinite = true) (hb : b.isFinite = true) : (sub a b).isNaN = false := by
  rw [sub_finite ha hb]
  exact isNaN_addFinite _ _

end Sys2Proof.F64

namespace Sys2Proof.Machine

open F64 Claims

/-! ## The constants as literals -/

theorem lit_one : lit 1 = F64.one := by decide +kernel
theorem negLit_one : negLit 1 = F64.negOne := by decide +kernel
theorem lit_two : lit 2 = F64.two := by decide +kernel
theorem lit_four : lit 4 = F64.four := by decide +kernel
theorem lit_quarter : lit 1 4 = F64.quarter := by decide +kernel
theorem lit_half : lit 1 2 = F64.half := by decide +kernel
theorem lit_threeQuarters : lit 3 4 = F64.threeQuarters := by decide +kernel
theorem lit_twelveHundred : lit 1200 = F64.twelveHundred := by decide +kernel

/-! ## Phases -/

theorem inUnit_of_inPhase {p : F64} (hp : inPhase p = true) : inUnit p = true := by
  obtain ⟨hn, h0, h1⟩ := inPhase_iff.1 hp
  exact inUnit_iff.2 ⟨hn, h0, h1.le⟩

/-- The test `p < 0.25` of a phase, in units. -/
theorem lt_quarter_iff {p : F64} (hp : inPhase p = true) :
    F64.lt p F64.quarter = true ↔ 4 * p.value < (2 ^ scale : Nat) := by
  have hn : F64.quarter.isNaN = false := by decide
  rw [lt_iff, ← value_quarter]
  simp [(inPhase_iff.1 hp).1, hn]

/-- The test `p < 0.75` of a phase, in units. -/
theorem lt_threeQuarters_iff {p : F64} (hp : inPhase p = true) :
    F64.lt p F64.threeQuarters = true ↔ 4 * p.value < 3 * (2 ^ scale : Nat) := by
  have hn : F64.threeQuarters.isNaN = false := by decide
  rw [lt_iff, ← value_threeQuarters]
  simp [(inPhase_iff.1 hp).1, hn]

/-- `4p` is exact (R132). -/
theorem mul_four_exact {p : F64} (hp : inPhase p = true) :
    (F64.mul F64.four p).isFinite = true ∧ (F64.mul F64.four p).value = 4 * p.value := by
  obtain ⟨h0, h1⟩ := within_iff.1 (inUnit_of_inPhase hp)
  exact mul_pow_two_exact (k := 2) le_rfl isFinite_four value_four h0 h1

/-- `2p` is exact (R133). -/
theorem mul_two_exact {p : F64} (hp : inPhase p = true) :
    (F64.mul F64.two p).isFinite = true ∧ (F64.mul F64.two p).value = 2 * p.value := by
  obtain ⟨h0, h1⟩ := within_iff.1 (inUnit_of_inPhase hp)
  exact mul_pow_two_exact (k := 1) (by decide) isFinite_two value_two h0 h1

/-! ## Waveforms -/

/-- The triangle at a phase is a number, and no operation of it rounds (R132): from 0.25 on `4p` is at least 1.0, where the
differences are exact (`value_sub_exact`). -/
theorem triangleWave_exact {p : F64} (hp : inPhase p = true) :
    (triangleWave p).isNaN = false ∧
    (triangleWave p).value =
      (if F64.lt p F64.quarter then 4 * p.value
       else if F64.lt p F64.threeQuarters then 2 * (2 ^ scale : Nat) - 4 * p.value
       else 4 * p.value - 4 * (2 ^ scale : Nat)) := by
  have hS := scale_pos
  obtain ⟨_, _, hp1⟩ := inPhase_iff.1 hp
  obtain ⟨hfin, hval⟩ := mul_four_exact hp
  unfold triangleWave
  simp only [lt_quarter_iff hp, lt_threeQuarters_iff hp]
  split_ifs with hlow hmid
  · exact ⟨isNaN_of_isFinite hfin, hval⟩
  · refine ⟨isNaN_sub_of_isFinite isFinite_two hfin, ?_⟩
    rw [value_sub_exact isFinite_two hfin (by rw [value_two]; omega) (by omega) (by rw [value_two]; omega), value_two, hval]
  · refine ⟨isNaN_sub_of_isFinite hfin isFinite_four, ?_⟩
    rw [value_sub_exact hfin isFinite_four (by omega) (by rw [value_four]; omega) (by rw [value_four]; omega), value_four, hval]

theorem inSigned_sineWave {p : F64} (hp : inPhase p = true) : inSigned (sineWave p) = true := by
  obtain ⟨h0, h1⟩ := within_iff.1 (inUnit_of_inPhase hp)
  exact inSigned_sin (isFinite_mul_of_le_one (by decide) (by decide +kernel) h0 h1)

theorem inSigned_triangleWave {p : F64} (hp : inPhase p = true) : inSigned (triangleWave p) = true := by
  obtain ⟨_, hp0, hp1⟩ := inPhase_iff.1 hp
  obtain ⟨hn, hval⟩ := triangleWave_exact hp
  simp only [lt_quarter_iff hp, lt_threeQuarters_iff hp] at hval
  rw [inSigned_iff, hval]
  refine ⟨hn, ?_⟩
  split_ifs <;> omega

/-- `2p` is in [0, 2), and rounding the difference does not leave [-1, 1]. -/
theorem inSigned_sawtoothWave {p : F64} (hp : inPhase p = true) : inSigned (sawtoothWave p) = true := by
  obtain ⟨_, hp0, hp1⟩ := inPhase_iff.1 hp
  obtain ⟨hfin, hval⟩ := mul_two_exact hp
  have hlo : F64.negOne.value ≤ (F64.mul F64.two p).value + (F64.neg F64.one).value := by
    rw [value_neg, value_one, value_negOne]
    omega
  have hhi : (F64.mul F64.two p).value + (F64.neg F64.one).value ≤ F64.one.value := by
    rw [value_neg, value_one]
    omega
  have hn := isNaN_addFinite (F64.mul F64.two p) (F64.neg F64.one)
  rw [sawtoothWave, sub_finite hfin isFinite_one]
  exact within_iff.2 ⟨le_of_value (by decide) hn (le_value_addFinite (by decide) hlo),
    le_of_value hn (by decide) (value_addFinite_le (by decide) hhi)⟩

theorem inSigned_squareWave (p pw : F64) : inSigned (squareWave p pw) = true := by
  unfold squareWave
  split <;> decide +kernel

/-- Every waveform is in [-1, 1] at a phase (R143). -/
theorem inSigned_wave (kind : OscWave) {p : F64} (hp : inPhase p = true) (pw : F64) : inSigned (wave kind p pw) = true := by
  cases kind with
  | sine => exact inSigned_sineWave hp
  | triangle => exact inSigned_triangleWave hp
  | sawtooth => exact inSigned_sawtoothWave hp
  | square => exact inSigned_squareWave p pw

theorem inSigned_noiseStep (live : Live) (k : Nat) : inSigned (noiseStep live k).1 = true := by
  unfold noiseStep
  split
  · exact inSigned_zero
  · exact inSigned_draw k

/-! ## Frequencies -/

/-- A frequency of 0.0 of either sign leaves the phase's value: the increment is a zero, and the sum does not wrap (R137). -/
theorem advance_zero {p f fs : F64} (hp : inPhase p = true) (hf : f.isFinite = true) (h0 : f.value = 0)
    (hfs : F64.le (lit 80) fs = true) : F64.eq (advance p f fs) p = true := by
  have hS := scale_pos
  obtain ⟨hrn, hrate⟩ := rate_spec hfs
  obtain ⟨hpn, _, hp1⟩ := inPhase_iff.1 hp
  have hpf : p.isFinite = true := isFinite_of_inUnit (inUnit_of_inPhase hp)
  obtain ⟨hqn, hq0, hq1⟩ := div_between (c := F64.zero) hf h0.ge hrn (by omega) (by decide)
    (by rw [h0, value_zero, zero_mul, mul_zero])
  have hqf := isFinite_of_value_between hqn isFinite_zero isFinite_zero (value_zero.trans_le hq0) hq1
  have hsum : (F64.add p (F64.div f fs)).value = p.value := value_add_zero hpf hqf (by rw [value_zero] at hq1; omega)
  obtain ⟨hxf, _⟩ := phase_sum hp hf (nonneg_iff.2 ⟨isNaN_of_isFinite hf, h0.ge⟩) hfs
  have hnowrap : ¬ F64.le F64.one (F64.add p (F64.div f fs)) = true := by
    rw [le_iff, value_one, hsum]
    rintro ⟨_, _, h⟩
    omega
  unfold advance
  simp only [if_neg hnowrap]
  exact eq_iff.2 ⟨isNaN_of_isFinite hxf, hpn, hsum⟩

/-- `EXP2(0.0)` is 1.0, and a detune of +0.0 divided by 1200.0 is +0.0 (R138, R7). -/
theorem oscFreq_of_detune_zero {live : Live} {v : Voice} (hd : live.detune = F64.zero) (hf : v.freq.isFinite = true) :
    oscFreq live v = v.freq := by
  have hdiv : F64.div F64.zero F64.twelveHundred = F64.zero := by decide +kernel
  rw [oscFreq, hd, hdiv, exp2_zero, F64.mul_one hf]

end Sys2Proof.Machine

namespace Sys2Proof.Proofs

open Machine

/-- Settles O27: the three intervals of the triangle one by one (`triangleWave_exact`). -/
theorem triangleIsExact : Obligations.TriangleIsExact :=
  fun _ _ hp => (triangleWave_exact hp).2

/-- Settles O28: the waveforms by their kind (`inSigned_wave`); the noise is a zero or a draw. -/
theorem waveformsStayInRange : Obligations.WaveformsStayInRange :=
  ⟨fun kind _ pw hp => within_iff.1 (inSigned_wave kind hp pw), fun live k => within_iff.1 (inSigned_noiseStep live k)⟩

/-- Settles O29: the wrap keeps what lies below the units of 1.0 (`inPhase_advance`); a frequency of 0.0 adds a zero. -/
theorem phaseAdvanceStaysInRange : Obligations.PhaseAdvanceStaysInRange := by
  refine fun p f fs hp hf h0 hfs => ⟨inPhase_advance hp hf h0 hfs, fun hz => ?_⟩
  obtain ⟨_, _, hv⟩ := F64.eq_iff.1 hz
  exact advance_zero hp hf (hv.trans F64.value_zero) hfs

/-- Settles O30: the factor is `EXP2(0.0)`, which is 1.0. -/
theorem zeroDetuneKeepsThePitch : Obligations.ZeroDetuneKeepsThePitch :=
  fun _ _ => oscFreq_of_detune_zero

/-- Settles O26: the definitions, their constants written as literals. -/
theorem waveformsAreThoseOfTheSpec : Obligations.WaveformsAreThoseOfTheSpec := by
  unfold Obligations.WaveformsAreThoseOfTheSpec
  rw [lit_one, negLit_one, lit_two, lit_four, lit_quarter, lit_threeQuarters]
  exact fun p pw => ⟨rfl, rfl, rfl, rfl⟩

/-- Settles O31: the definitions, their constants written as literals. -/
theorem oscillatorsSampleTheOldPhase : Obligations.OscillatorsSampleTheOldPhase := by
  unfold Obligations.OscillatorsSampleTheOldPhase
  rw [lit_half, lit_twelveHundred]
  exact fun live v fs => ⟨rfl, rfl, fun p f => rfl⟩

end Sys2Proof.Proofs
end

section
/-! PROOFS. The statements of 41_lfo.md: what a disabled LFO adds to the cutoff, and one tick. -/

namespace Sys2Proof.F64

/-! ## Zeros as terms and factors -/

theorem isFinite_of_isZero {a : F64} (h : a.isZero = true) : a.isFinite = true := by
  rw [isFinite_iff, of_decide_eq_true h]
  norm_num

theorem isZero_iff {a : F64} : a.isZero = true ↔ a = zero ∨ a = negZero := by
  constructor
  · intro h
    have ha : a = signedZero a.sign := by rw [signedZero, ← of_decide_eq_true h, ofParts_sign_low]
    cases hs : a.sign <;> rw [hs] at ha
    · exact .inl ha
    · exact .inr ha
  · rintro (rfl | rfl) <;> decide

theorem isZero_mul {a b : F64} (ha : a.isFinite = true) (hb : b.isZero = true) : (mul a b).isZero = true := by
  rw [← value_eq_zero_iff, ← value_zero]
  refine value_mul_exact ha (isFinite_of_isZero hb) (isNaN_of_isFinite isFinite_zero) ?_
  rw [value_eq_zero_iff.2 hb, value_zero, mul_zero, mul_zero]

theorem mul_comm_of_isFinite {a b : F64} (ha : a.isFinite = true) (hb : b.isFinite = true) : mul a b = mul b a := by
  rw [mul_finite ha hb, mul_finite hb ha, Nat.mul_comm, bne_comm]

/-- A zero of either sign leaves every number but the zeros as it is, an infinity too. -/
theorem add_eq_left_of_isZero {a b : F64} (hn : a.isNaN = false) (h0 : a.value ≠ 0) (hb : b.isZero = true) : add a b = a := by
  obtain hf | hi := isFinite_or_isInf hn
  · have hbf := isFinite_of_isZero hb
    have hv : (add a b).value = a.value := value_add_zero hf hbf (value_eq_zero_iff.2 hb)
    have hs : (add a b).sign = a.sign := by rw [sign_eq_of_value (hv ▸ h0), sign_eq_of_value h0, hv]
    exact eq_of_value (by rw [add_finite hf hbf]; exact isNaN_addFinite a b) hn hs hv
  · refine add_eq_left_of_isInf hi ?_
    rw [← Bool.not_eq_true, isNaN_add_iff, hn, isNaN_of_isZero hb, isInf_of_isZero hb]
    simp

end Sys2Proof.F64

namespace Sys2Proof.Machine

open F64 Claims

/-! ## The value -/

theorem lfoDisabled_iff {live : Live} :
    lfoDisabled live = true ↔ F64.eq live.lfoRate F64.zero = true ∨ F64.eq live.lfoDepth F64.zero = true := Bool.or_eq_true_iff

theorem lfoValue_of_disabled {live : Live} (h : lfoDisabled live = true) (v : Voice) : lfoValue live v = F64.zero := if_pos h

/-- The depth in Hz is finite, since the depth is at most 1.0 (R165, R52.8). -/
theorem isFinite_lfoRange {live : Live} (h : live.inRange .lfoDepth = true) :
    (F64.mul live.lfoDepth Config.lfoCutoffRangeHz).isFinite = true := by
  have hd : inUnit live.lfoDepth = true := h
  obtain ⟨h0, h1⟩ := within_iff.1 hd
  have hr : Config.lfoCutoffRangeHz.isFinite = true := by decide
  rw [mul_comm_of_isFinite (isFinite_of_inUnit hd) hr]
  exact isFinite_mul_of_le_one hr (by decide +kernel) h0 h1

/-- A disabled LFO's term of the cutoff is a zero: a finite factor times the value 0.0 (R166). -/
theorem isZero_lfoCutoff_of_disabled {live : Live} (hr : live.inRange .lfoDepth = true) (h : lfoDisabled live = true)
    (v : Voice) : (lfoCutoff live (lfoValue live v)).isZero = true := by
  rw [lfoValue_of_disabled h]
  exact isZero_mul (isFinite_lfoRange hr) (isZero_iff.2 (.inl rfl))

/-! ## The advance -/

theorem lfoAdvance_of_draws {live : Live} {v : Voice} {fs : F64} (hw : lfoWraps live v fs = true)
    (hs : live.lfoWave = .sampleHold) (d : Nat) :
    lfoAdvance live v fs d = ({ v with lfoPhase := advance v.lfoPhase live.lfoRate fs, lfoSh := draw d }, d + 1) := by
  simp [lfoAdvance, hw, hs]

theorem lfoAdvance_of_not_draws {live : Live} {v : Voice} {fs : F64}
    (h : lfoWraps live v fs = false ∨ live.lfoWave ≠ .sampleHold) (d : Nat) :
    lfoAdvance live v fs d = ({ v with lfoPhase := advance v.lfoPhase live.lfoRate fs }, d) := by
  obtain hc | ⟨hw, hs, _⟩ := lfoAdvance_cases live v fs d
  · exact hc
  · obtain h | h := h
    · exact absurd hw (Bool.eq_false_iff.1 h)
    · exact absurd hs h

end Sys2Proof.Machine

namespace Sys2Proof.Proofs

open Machine

/-- Settles O33: the term is a zero (`isZero_lfoCutoff_of_disabled`), and a zero changes no other number
(`F64.add_eq_left_of_isZero`). -/
theorem disabledLfoAddsExactlyNothing : Obligations.DisabledLfoAddsExactlyNothing := by
  intro live v hr hd
  have hc := isZero_lfoCutoff_of_disabled hr (lfoDisabled_iff.2 hd) v
  refine ⟨F64.isZero_iff.1 hc, fun x hx => ?_⟩
  split
  next hn => exact (F64.isNaN_add_iff _ _).2 (.inl (.inl hn))
  next hn =>
    have hn : x.isNaN = false := Bool.eq_false_iff.2 hn
    have h0 : x.value ≠ 0 := fun h => Bool.eq_false_iff.1 hx (F64.eq_iff.2 ⟨hn, rfl, h.trans F64.value_zero.symm⟩)
    exact F64.add_eq_left_of_isZero hn h0 hc

/-- Settles O32: the value is that of the old state by definition; the advance draws (`lfoAdvance_of_draws`) or does not
(`lfoAdvance_of_not_draws`). -/
theorem lfoTickIsThatOfTheSpec : Obligations.LfoTickIsThatOfTheSpec := by
  intro live v fs d
  refine ⟨?_, fun hw hs => lfoAdvance_of_draws hw hs d, fun h => lfoAdvance_of_not_draws h d⟩
  change lfoValue live v = _
  unfold lfoValue lfoDisabled
  cases live.lfoWave <;> rfl

end Sys2Proof.Proofs
end

section
/-! PROOFS. The statements of 42_envelope.md: note events, one tick by the stage it starts in, and what ticks keep. -/

namespace Sys2Proof.Machine

open Claims

theorem lit_thousandth : lit 1 1000 = Config.envEpsilon := by decide +kernel
theorem lit_sixty : lit 60 = Config.envTimeMax := by decide +kernel

/-! ## Note events -/

theorem envNoteOff_of_attack_decay_sustain {e : Envelope} (h : e.stage = .attack ∨ e.stage = .decay ∨ e.stage = .sustain) :
    envNoteOff e = { e with entry := e.level, stage := .release, t := F64.zero } := by
  unfold envNoteOff
  rcases h with h | h | h <;> rw [h]

/-- A note-off leaves no stage that a note-off would still change (R183). -/
theorem envNoteOff_released (e : Envelope) : (envNoteOff e).stage = .release ∨ (envNoteOff e).stage = .idle := by
  rcases envNoteOff_cases e with ⟨_, he⟩ | ⟨hs, he⟩ <;> rw [he]
  · exact .inl rfl
  · exact hs.symm

/-! ## One tick, by the stage it starts in -/

theorem envTick_of_idle {e : Envelope} (h : e.stage = .idle) (p : Adsr) (dt : F64) :
    envTick e p dt = { e with level := F64.zero } := if_pos h

theorem envTick_of_ne_idle {e : Envelope} (h : e.stage ≠ .idle) (p : Adsr) (dt : F64) :
    envTick e p dt = envComplete (envMove e p dt) p := if_neg h

/-- Outside Idle a tick is the completion test on the moved envelope, its target and duration those of the stage (R184). -/
theorem envTick_of_stage {e : Envelope} {st : Stage} (h : e.stage = st) (hst : st ≠ .idle) (p : Adsr) (dt : F64) :
    envTick e p dt =
      envComplete ⟨st, envLevel e.level (stageTarget p st) (envDecayFactor (stageDur p st) dt), e.entry, F64.add e.t dt⟩ p := by
  subst h
  exact envTick_of_ne_idle hst p dt

/-- Only the end of Release pins the level, so a held stage keeps the level that the move gave (R185, R188). -/
theorem envTick_level_of_held {e : Envelope} (h : e.stage.held = true) (p : Adsr) (dt : F64) :
    (envTick e p dt).level = (envMove e p dt).level := by
  have hu := held_envTick h p dt
  have hne : e.stage ≠ .idle := fun hi => by rw [hi] at h; cases h
  rw [envTick_of_ne_idle hne] at hu ⊢
  rcases envComplete_cases (envMove e p dt) p with he | ⟨_, _, he⟩ | he <;> rw [he] at hu ⊢
  · rfl
  · cases hu

/-- Release goes on with the moved envelope, or one of its two tests has held and it ends in the reset envelope (R185). -/
theorem envTick_release_cases {e : Envelope} (h : e.stage = .release) (p : Adsr) (dt : F64) :
    envTick e p dt = envMove e p dt ∨
    (envTick e p dt = Envelope.reset ∧ (F64.le (envMove e p dt).level Config.envEpsilon = true ∨
      F64.le p.release (envMove e p dt).t = true)) := by
  rw [envTick_of_ne_idle (by rw [h]; decide)]
  unfold envComplete
  rw [envMove_stage, h]
  simp only
  split
  next ht => exact .inr ⟨rfl, Bool.or_eq_true_iff.1 ht⟩
  next => exact .inl rfl

/-- No tick leads from Release or Idle to a held stage, so no list of ticks does. -/
theorem envTicks_released {e : Envelope} (h : e.stage = .release ∨ e.stage = .idle) (ticks : List (Adsr × F64)) :
    (ticks.foldl (fun e t => envTick e t.1 t.2) e).stage = .release ∨
    (ticks.foldl (fun e t => envTick e t.1 t.2) e).stage = .idle := by
  induction ticks generalizing e with
  | nil => exact h
  | cons t ticks ih => exact ih (envTick_released h t.1 t.2)

end Sys2Proof.Machine

namespace Sys2Proof.Proofs

open Machine

/-- Settles O36: the factor is in [0, 1] whatever `EXP` is, so the tick keeps every range (`Envelope.Ok.tick`). -/
theorem envelopeTickStaysInRange : Obligations.EnvelopeTickStaysInRange := by
  unfold Obligations.EnvelopeTickStaysInRange
  rw [lit_thousandth, lit_sixty]
  exact fun _ _ _ he ha hd hs hr hfs => he.tick ⟨ha, hd, hs, hr⟩ hfs

/-- Settles O37: the stages by `envTick_stage`, the level by `envTick_level_of_held`, the end of Release by
`envTick_release_cases`. -/
theorem envelopeTickTransitions : Obligations.EnvelopeTickTransitions := by
  unfold Obligations.EnvelopeTickTransitions
  rw [lit_thousandth]
  intro e p dt
  have hstage := envTick_stage e p dt
  have hlevel : e.stage.held = true → (envTick e p dt).level = (envMove e p dt).level := fun h => envTick_level_of_held h p dt
  refine ⟨fun h => ?_, fun h => ⟨by simpa [h] using hstage, hlevel (by rw [h]; rfl)⟩,
    fun h => ⟨by simpa [h] using hstage, hlevel (by rw [h]; rfl)⟩,
    fun h => ⟨by simpa [h] using hstage, hlevel (by rw [h]; rfl)⟩, fun h => ?_⟩
  · exact (congrArg Envelope.stage (envTick_of_idle h p dt)).trans h
  · rcases envTick_release_cases h p dt with hu | ⟨hu, htest⟩ <;> rw [hu]
    · exact .inl ⟨h, rfl⟩
    · exact .inr ⟨rfl, rfl, rfl, rfl, htest⟩

/-- Settles O38: after a note-off the stage is Release or Idle, any ticks keep that (`envTicks_released`), and a note-off
there changes nothing. -/
theorem noteOffIsIdempotent : Obligations.NoteOffIsIdempotent := by
  intro e ticks
  have hoff := envNoteOff_released e
  exact ⟨envNoteOff_of_not_held hoff, envNoteOff_of_not_held (envTicks_released hoff ticks)⟩

/-- Settles O34: the definitions, the note-off by the stage it finds. -/
theorem envelopeNoteEvents : Obligations.EnvelopeNoteEvents :=
  fun _ => ⟨rfl, rfl, envNoteOff_of_attack_decay_sustain, fun h => envNoteOff_of_not_held h.symm⟩

/-- Settles O35: `envTick_of_stage` at each stage, where the completion test is that stage's own arm. -/
theorem envelopeTickIsThatOfTheSpec : Obligations.EnvelopeTickIsThatOfTheSpec := by
  unfold Obligations.EnvelopeTickIsThatOfTheSpec
  rw [lit_thousandth]
  exact fun e p dt => ⟨fun h => envTick_of_idle h p dt, fun h => envTick_of_stage h (by decide) p dt,
    fun h => envTick_of_stage h (by decide) p dt, fun h => envTick_of_stage h (by decide) p dt,
    fun h => envTick_of_stage h (by decide) p dt⟩

end Sys2Proof.Proofs
end

section
/-! PROOFS. The statements of 43_filter.md: the range of the cutoff, the range of the damping, and one step. -/

namespace Sys2Proof.F64

open Sys2Proof.Machine

/-- A product of a finite number and one in [-1, 1] does not overflow: it is no farther from 0 than the first factor. -/
theorem isFinite_mul_of_inSigned {a b : F64} (ha : a.isFinite = true) (hb : inSigned b = true) : (mul a b).isFinite = true := by
  have hbf := isFinite_of_inSigned hb
  obtain ⟨_, hlo, hhi⟩ := inSigned_iff.1 hb
  obtain ⟨c, hc, hcv⟩ : ∃ c : F64, c.isFinite = true ∧ c.value = |a.value| := by
    rcases le_total 0 a.value with h | h
    · exact ⟨a, ha, (abs_of_nonneg h).symm⟩
    · exact ⟨neg a, by rwa [isFinite_neg], by rw [value_neg, abs_of_nonpos h]⟩
  have hbound : |a.value * b.value| ≤ (2 ^ scale : Nat) * c.value := by
    rw [abs_mul, hcv, mul_comm]
    exact mul_le_mul_of_nonneg_right (abs_le.2 ⟨hlo, hhi⟩) (abs_nonneg _)
  obtain ⟨hge, hle⟩ := abs_le.1 hbound
  have hnf : (neg c).isFinite = true := by rwa [isFinite_neg]
  exact isFinite_of_value_between (isNaN_mul ha hbf) hnf hc
    (le_value_mul ha hbf (isNaN_of_isFinite hnf) (by rwa [value_neg, mul_neg]))
    (value_mul_le ha hbf (isNaN_of_isFinite hc) hle)

theorem isNaN_add_of_isFinite_left {a b : F64} (ha : a.isFinite = true) (hb : b.isNaN = false) : (add a b).isNaN = false := by
  rw [← Bool.not_eq_true, isNaN_add_iff]
  simp [isNaN_of_isFinite ha, isInf_of_isFinite ha, hb]

theorem isNaN_add_of_isFinite_right {a b : F64} (ha : a.isNaN = false) (hb : b.isFinite = true) : (add a b).isNaN = false := by
  rw [← Bool.not_eq_true, isNaN_add_iff]
  simp [isNaN_of_isFinite hb, isInf_of_isFinite hb, ha]

/-- The greater of two numbers that lie below a bound is between the second and that bound. -/
theorem within_max {a b hi : F64} (ha : le a hi = true) (hb : le b hi = true) : within b hi (max a b) = true := by
  obtain ⟨hbn, _, _⟩ := le_iff.1 hb
  unfold max
  split
  next h =>
    obtain ⟨_, han, hv⟩ := lt_iff.1 h
    exact within_iff.2 ⟨le_of_value hbn han hv.le, ha⟩
  next => exact within_iff.2 ⟨le_of_value hbn hbn le_rfl, hb⟩

end Sys2Proof.F64

namespace Sys2Proof.Machine

open F64 Claims

/-! ## The cutoff -/

theorem lit_twenty : lit 20 = Config.minCutoff := by decide +kernel

theorem value_minCutoff : Config.minCutoff.value = 20 * (2 ^ scale : Nat) := by decide +kernel

/-- The interval of the cutoff is not empty, since the rate is at least 80 (R211, R10); the rate may be infinite. -/
theorem minCutoff_le_quarter_rate {fs : F64} (hfs : F64.le (lit 80) fs = true) :
    F64.le Config.minCutoff (F64.div fs Config.maxCutoffDivisor) = true := by
  have hS := scale_pos
  obtain ⟨hn, hv⟩ := rate_spec hfs
  obtain hf | hi := isFinite_or_isInf hn
  · have hpos : 0 < F64.four.value := by rw [value_four]; omega
    refine le_of_value (by decide) (isNaN_div hf isFinite_four hpos) (le_value_div hf isFinite_four hpos (by decide) ?_)
    calc F64.four.value * Config.minCutoff.value = 80 * (2 ^ scale : Nat) * (2 ^ scale : Nat) := by
          rw [value_four, value_minCutoff]; ring
      _ ≤ fs.value * (2 ^ scale : Nat) := mul_le_mul_of_nonneg_right hv hS.le
  · have hsign : fs.sign = false := sign_of_value_pos (by omega)
    have hfour : Config.maxCutoffDivisor.isNaN = false ∧ Config.maxCutoffDivisor.isInf = false ∧
        Config.maxCutoffDivisor.sign = false := by decide
    have hinf : F64.div fs Config.maxCutoffDivisor = F64.inf false := by simp [F64.div, hn, hi, hsign, hfour]
    rw [hinf]
    decide +kernel

theorem cutoffClamp_within {c fs : F64} (hc : c.isNaN = false) (hfs : F64.le (lit 80) fs = true) :
    F64.le Config.minCutoff (cutoffClamp c fs) = true ∧
    F64.le (cutoffClamp c fs) (F64.div fs Config.maxCutoffDivisor) = true :=
  clamp_within hc (minCutoff_le_quarter_rate hfs)

/-- The LFO's value is in [-1, 1]: a waveform at a phase, or the value held. -/
theorem inSigned_lfoValue (live : Live) {v : Voice} (hp : inPhase v.lfoPhase = true) (hh : inSigned v.lfoSh = true) :
    inSigned (lfoValue live v) = true := by
  unfold lfoValue
  split
  · exact inSigned_zero
  · cases live.lfoWave with
    | sine => exact inSigned_sineWave hp
    | triangle => exact inSigned_triangleWave hp
    | square => exact inSigned_squareWave _ _
    | sampleHold => exact hh

/-- The LFO's term is finite (R165, R52.3, R52.8). -/
theorem isFinite_lfoCutoff {live : Live} (h : live.inRange .lfoDepth = true) {v : F64} (hv : inSigned v = true) :
    (lfoCutoff live v).isFinite = true :=
  isFinite_mul_of_inSigned (isFinite_lfoRange h) hv

/-- The sum that R235 clamps is no NaN: its terms are numbers, and the LFO's is finite, so no two infinities meet. -/
theorem State.Inv.isNaN_cutoffSum {s : State} (h : s.Inv) :
    (F64.add (F64.add s.live.cutoff (F64.mul s.live.fenvAmount s.fenv.level))
      (lfoCutoff s.live (lfoValue s.live s.voice))).isNaN = false := by
  obtain ⟨hclo, hchi⟩ := within_iff.1 (h.live .cutoff)
  obtain ⟨halo, hahi⟩ := within_iff.1 (h.live .fenvAmount)
  have hcut : s.live.cutoff.isFinite = true := isFinite_of_between hclo hchi (by decide) (by decide)
  have hamount : s.live.fenvAmount.isFinite = true := isFinite_of_between halo hahi (by decide) (by decide)
  have henv := isNaN_mul hamount (isFinite_of_inUnit h.fenv.level)
  have hlfo := isFinite_lfoCutoff (h.live .lfoDepth) (inSigned_lfoValue s.live h.lfoPhase h.lfoSh)
  exact isNaN_add_of_isFinite_right (isNaN_add_of_isFinite_left hcut henv) hlfo

/-! ## The damping -/

theorem lit_thirty : lit 30 = Config.resonanceMax := by decide +kernel

/-- The divisor of the damping is in [0.5, 30.0] (R213, R41). -/
theorem within_resonance_floored {live : Live} (h : live.inRange .resonance = true) :
    within Config.qFloor Config.resonanceMax (F64.max live.resonance Config.qFloor) = true :=
  within_max (within_iff.1 h).2 (by decide +kernel)

/-- The binary64 number nearest to 1/30 is a number not above it, so it bounds every quotient of 1.0 by at most 30.0. -/
theorem thirtieth_spec : (F64.div F64.one Config.resonanceMax).isNaN = false ∧
    0 ≤ (F64.div F64.one Config.resonanceMax).value ∧
    Config.resonanceMax.value * (F64.div F64.one Config.resonanceMax).value ≤ F64.one.value * (2 ^ scale : Nat) := by
  decide +kernel

/-- The floor 0.5 is positive, and its reciprocal is 2.0. -/
theorem qFloor_spec : 0 < Config.qFloor.value ∧
    F64.one.value * (2 ^ scale : Nat) = Config.qFloor.value * F64.two.value := by
  decide +kernel

/-- The damping is in [1/30, 2] (R213): rounding keeps a bound of the exact quotient that is a number itself. -/
theorem qCoef_within {live : Live} (h : live.inRange .resonance = true) :
    F64.le (F64.div F64.one Config.resonanceMax) (qCoef live) = true ∧ F64.le (qCoef live) F64.two = true := by
  obtain ⟨hlo, hhi⟩ := within_iff.1 (within_resonance_floored h)
  have hfin := isFinite_of_between hlo hhi (by decide) (by decide)
  obtain ⟨_, _, hvlo⟩ := le_iff.1 hlo
  obtain ⟨_, _, hvhi⟩ := le_iff.1 hhi
  obtain ⟨hmin, hmin0, hminv⟩ := thirtieth_spec
  obtain ⟨hfloor, hmaxv⟩ := qFloor_spec
  have hpos := hfloor.trans_le hvlo
  have hq : (qCoef live).isNaN = false := isNaN_div isFinite_one hfin hpos
  constructor
  · refine le_of_value hmin hq (le_value_div isFinite_one hfin hpos hmin ?_)
    exact (mul_le_mul_of_nonneg_right hvhi hmin0).trans hminv
  · refine le_of_value hq (by decide) (value_div_le isFinite_one hfin hpos (by decide) ?_)
    exact hmaxv.trans_le (mul_le_mul_of_nonneg_right hvlo (by decide +kernel))

end Sys2Proof.Machine

namespace Sys2Proof.Proofs

open Machine

/-- Settles O39: the clamp of any number lies in an interval that is not empty (`cutoffClamp_within`), and the sum that a tick
clamps is a number (`State.Inv.isNaN_cutoffSum`). -/
theorem cutoffStaysInRange : Obligations.CutoffStaysInRange := by
  unfold Obligations.CutoffStaysInRange
  rw [lit_twenty, lit_four]
  exact fun _ hfs => ⟨fun _ hc => cutoffClamp_within hc hfs, fun _ hs => cutoffClamp_within hs.isNaN_cutoffSum hfs⟩

/-- Settles O40: the divisor is in [0.5, 30], and rounding keeps the bounds of the quotient (`qCoef_within`). -/
theorem dampingRange : Obligations.DampingRange := by
  unfold Obligations.DampingRange
  rw [lit_one, lit_thirty, lit_two]
  exact fun _ => qCoef_within

/-- Settles O41: the definitions, their constants written as literals; the coefficient has no clamp (R212). -/
theorem filterStepIsThatOfTheSpec : Obligations.FilterStepIsThatOfTheSpec := by
  unfold Obligations.FilterStepIsThatOfTheSpec
  rw [lit_one, lit_two, lit_half, lit_twenty, lit_four]
  exact fun live v x c fs => ⟨rfl, rfl, rfl⟩

end Sys2Proof.Proofs
end

section
/-! PROOFS. The statements of 44_voice.md, and the note-off command: how each operation moves `VSTATE`, and every step with it. -/

namespace Sys2Proof.Machine

open Claims

/-! ## Note events -/

/-- A note-on leaves the voice sounding, from every voice state (44_voice.md R231, R232). -/
theorem voiceNoteOn_vstate (f : F64) (s : State) : (voiceNoteOn f s).voice.vstate = .sounding := by
  unfold voiceNoteOn
  split <;> rfl

theorem voiceNoteOff_of_idle {s : State} (h : s.voice.vstate = .idle) : voiceNoteOff s = s := by
  unfold voiceNoteOff
  rw [h]

theorem voiceNoteOff_of_voice {s : State} (h : s.voice.vstate ≠ .idle) :
    voiceNoteOff s =
      { s with voice := { s.voice with vstate := .releasing }, aenv := envNoteOff s.aenv, fenv := envNoteOff s.fenv } := by
  unfold voiceNoteOff
  cases hv : s.voice.vstate with
  | idle => exact absurd hv h
  | sounding | releasing => rfl

/-- The model's note-off of an envelope is the one that the statements write out (42_envelope.md R183). -/
theorem envNoteOff_eq_released (e : Envelope) : envNoteOff e = released e := by
  unfold released
  rcases envNoteOff_cases e with ⟨hs, he⟩ | ⟨hs, he⟩
  · rw [he, if_pos hs]
  · rw [he, if_neg (by rcases hs with hs | hs <;> simp [hs])]

/-! ## Rendered samples -/

theorem teardown_vstate (e : Envelope) (v : Voice) :
    (teardown e v).vstate = if v.vstate = .releasing ∧ e.stage = .idle then .idle else v.vstate := by
  unfold teardown
  split <;> rfl

/-- A rendered sample ends a releasing voice in the tick that takes `aenv` to Idle, and moves `VSTATE` in no other way
(R236, R237, R238). -/
theorem renderOne_vstate (fs : F64) (s : State) :
    (renderOne fs s).2.voice.vstate =
      if s.voice.vstate = .releasing ∧ (envTick s.aenv s.live.amp (F64.div F64.one fs)).stage = .idle then .idle
      else s.voice.vstate := by
  by_cases hv : s.voice.vstate = .idle
  · rw [renderOne_idle fs hv, countSample_voice, hv, ite_self]
  · have hchain := (signalChain_voice s.live s.voice s.fenv.level fs s.draws).1
    rw [renderOne_voice fs hv, renderVoice_eq, countSample_voice, teardown_vstate, hchain]

/-- Where rendered samples can take `VSTATE`: it stays, or a releasing voice ends (R238). -/
def VState.RendersTo (v w : VState) : Prop := w = v ∨ (v = .releasing ∧ w = .idle)

/-- A voice that has ended does not end again, so the moves of several samples are the move of one. -/
theorem VState.RendersTo.trans {v w x : VState} (h : v.RendersTo w) (h' : w.RendersTo x) : v.RendersTo x := by
  rcases h with rfl | ⟨hv, rfl⟩
  · exact h'
  · rcases h' with rfl | ⟨hw, _⟩
    · exact .inr ⟨hv, rfl⟩
    · cases hw

theorem renderOne_rendersTo (fs : F64) (s : State) : s.voice.vstate.RendersTo (renderOne fs s).2.voice.vstate := by
  rw [renderOne_vstate]
  split
  next h => exact .inr ⟨h.1, rfl⟩
  next => exact .inl rfl

theorem renderFrames_rendersTo (fs : F64) (n i : Nat) (s : State) :
    s.voice.vstate.RendersTo (renderFrames fs n i s).voice.vstate :=
  renderFrames_keeps (P := fun t => s.voice.vstate.RendersTo t.voice.vstate) fs
    (fun t h => h.trans (renderOne_rendersTo fs t)) (fun _ _ _ h => h) n i s (.inl rfl)

/-! ## Commands -/

/-- Every change of `VSTATE` that a command can make (R241). -/
theorem exec_vstate {i : Instr} {s u : State} (h : exec i s = .next u) (hne : u.voice.vstate ≠ s.voice.vstate) :
    (u.voice.vstate = .sounding ∧ ((∃ n o, i = .noteOn n o) ∨ i = .noteOnHz)) ∨
    (s.voice.vstate = .sounding ∧ u.voice.vstate = .releasing ∧ i = .noteOff) ∨
    (s.voice.vstate = .releasing ∧ u.voice.vstate = .idle ∧ ((∃ r, i = .renderSample r) ∨ ∃ f r, i = .renderBlock f r)) ∨
    (u.voice.vstate = .idle ∧ i = .hardStop) := by
  cases i with
  | nop =>
    cases h
    exact absurd rfl hne
  | noteOn n o =>
    cases h
    exact .inl ⟨voiceNoteOn_vstate _ s, .inl ⟨n, o, rfl⟩⟩
  | noteOnHz =>
    cases h
    exact .inl ⟨voiceNoteOn_vstate _ s, .inr rfl⟩
  | noteOff =>
    cases h
    cases hv : s.voice.vstate with
    | idle => exact absurd (by rw [voiceNoteOff_of_idle hv]) hne
    | sounding => exact .inr (.inl ⟨rfl, by rw [voiceNoteOff_of_voice (by simp [hv])], rfl⟩)
    | releasing => exact absurd (by rw [voiceNoteOff_of_voice (by simp [hv]), hv]) hne
  | setParams =>
    cases h
    exact absurd (by rw [commitParams_eq]) hne
  | renderSample r =>
    cases h
    obtain ⟨hv, hu⟩ := (renderOne_rendersTo (sampleRate r) s).resolve_left hne
    exact .inr (.inr (.inl ⟨hv, hu, .inl ⟨r, rfl⟩⟩))
  | renderBlock f r =>
    cases h
    obtain ⟨hv, hu⟩ := (renderFrames_rendersTo (sampleRate r) (clampFrames f) 0 s).resolve_left hne
    exact .inr (.inr (.inl ⟨hv, hu, .inr ⟨f, r, rfl⟩⟩))
  | hardStop =>
    cases h
    exact .inr (.inr (.inr ⟨rfl, rfl⟩))

end Sys2Proof.Machine

namespace Sys2Proof.Proofs

open Machine

/-- Settles O43: the three clauses are read off the new `VSTATE` (`renderOne_vstate`). -/
theorem voiceEndsWithItsRelease : Obligations.VoiceEndsWithItsRelease := by
  intro fs s
  rw [renderOne_vstate]
  refine ⟨fun hv => ?_, fun hv => ?_⟩
  · by_cases ht : (envTick s.aenv s.live.amp (F64.div F64.one fs)).stage = .idle <;> simp [hv, ht]
  · rw [if_neg (by simp [hv]), hv]

/-- Settles O44: only a command or the reset touches the voice (`step_sound`), and the commands that change `VSTATE` are those
of `exec_vstate`. -/
theorem voiceStateTable : Obligations.VoiceStateTable := by
  intro s t h hne
  rcases step_sound h with hs | ⟨ht, hs⟩ | ⟨i, u, hr, hx, hs⟩
  · exact absurd (by rw [hs.voice]) hne
  · exact .inr (.inr (.inr (.inr ⟨by rw [hs.voice]; rfl, ht⟩)))
  · rw [hs.voice] at hne ⊢
    rcases exec_vstate hx hne with ⟨hu, ⟨n, o, rfl⟩ | rfl⟩ | ⟨hv, hu, rfl⟩ | ⟨hv, hu, ⟨r, rfl⟩ | ⟨f, r, rfl⟩⟩ | ⟨hu, rfl⟩
    · exact .inl ⟨hu, .inl ⟨n, o, hr⟩⟩
    · exact .inl ⟨hu, .inr hr⟩
    · exact .inr (.inl ⟨hv, hu, hr⟩)
    · exact .inr (.inr (.inl ⟨hv, hu, .inl ⟨r, hr⟩⟩))
    · exact .inr (.inr (.inl ⟨hv, hu, .inr ⟨f, r, hr⟩⟩))
    · exact .inr (.inr (.inr (.inl ⟨hu, hr⟩)))

/-- Settles O42: without a voice a rendered sample is +0.0, counted (`renderOne_idle`). -/
theorem renderingWithoutAVoiceIsSilent : Obligations.RenderingWithoutAVoiceIsSilent := by
  intro s hv
  refine ⟨fun fs => ?_, fun srate => ?_⟩
  · rw [renderOne_idle fs hv]
    rfl
  · rw [exec_renderSample, renderOne_idle _ hv]
    rfl

/-- Settles O52: the two cases of a note-off, its envelopes written out (`envNoteOff_eq_released`). -/
theorem noteOffReleasesTheVoice : Obligations.NoteOffReleasesTheVoice := by
  intro s
  rw [exec_noteOff]
  split
  next hv => rw [voiceNoteOff_of_idle hv]
  next hv => rw [voiceNoteOff_of_voice hv, envNoteOff_eq_released, envNoteOff_eq_released]

end Sys2Proof.Proofs
end

section
/-! PROOFS. The statements of 45_commands.md: every command completes, and what the note events and the render commands do to
the whole state. -/

namespace Sys2Proof.Machine

open Claims

/-! ## Steps and commands complete -/

/-- No command faults or is refused (45_commands.md R260). -/
theorem exec_next (i : Instr) (s : State) : ∃ t, exec i s = .next t := by
  cases i <;> exact ⟨_, rfl⟩

theorem coreStep_of_ok {w : Word} {i : Instr} {s t : State} (hd : decode w = .ok i) (hx : exec i s = .next t) :
    coreStep w s = .next (emptySlot t) := by
  simp only [coreStep, hd, hx]

theorem completes_coreStep (w : Word) (s : State) : completes (coreStep w s) := by
  cases hd : decode w with
  | error e => exact ⟨_, coreStep_of_error hd s⟩
  | ok i =>
    obtain ⟨t, hx⟩ := exec_next i s
    exact ⟨_, coreStep_of_ok hd hx⟩

/-- An input completes, or it is an access outside the contract and refused as one (20_memory.md R70). -/
theorem inputStep_completes_or_refused (i : Input) (s : State) :
    completes (inputStep i s) ∨
    ∃ a n, ((∃ v, i = .write a n v) ∨ i = .read a n) ∧ ¬ aligned a n ∧
      inputStep i s = .refused (.accessOutsideContract a n) := by
  cases i with
  | read a n =>
    by_cases ha : aligned a n
    · exact .inl ⟨_, if_pos (inContract_iff.2 ha)⟩
    · exact .inr ⟨a, n, .inr rfl, ha, inputStep_read_of_not_aligned ha s⟩
  | write a n v =>
    by_cases ha : aligned a n
    · exact .inl ⟨_, if_pos (inContract_iff.2 ha)⟩
    · exact .inr ⟨a, n, .inl ⟨v, rfl⟩, ha, inputStep_write_of_not_aligned ha v s⟩
  | poll => exact .inl ⟨_, rfl⟩
  | reset => exact .inl ⟨_, rfl⟩

/-- Who moves next: nobody, the core on the latched word, or the world outside (10_state.md R30, 70_reset_and_hazards.md
R300). -/
theorem waits_or_coreMoves_or_hostMoves (s : State) :
    step s = .next s ∨ (∃ w, coreMoves s w) ∨ ∃ i rest, s.inputs = i :: rest ∧ hostMoves s := by
  cases hi : s.inputs with
  | nil =>
    cases hs : s.slot with
    | none => exact .inl (by rw [step, agentStep, hs, hi])
    | some w => exact .inr (.inl ⟨w, hs, .inr hi⟩)
  | cons i rest =>
    cases hs : s.slot with
    | none => exact .inr (.inr ⟨i, rest, rfl, .inl hs⟩)
    | some w =>
      by_cases hw : s.wait = 0
      · exact .inr (.inl ⟨w, hs, .inl hw⟩)
      · exact .inr (.inr ⟨i, rest, rfl, .inr hw⟩)

/-! ## Note-on -/

/-- The model's note-on is the one that the statements write out (44_voice.md R231, R232). -/
theorem voiceNoteOn_eq_noteOn (f : F64) (s : State) : voiceNoteOn f s = noteOn f s := by
  unfold voiceNoteOn noteOn
  cases hv : s.voice.vstate with
  | idle => rfl
  | sounding | releasing => rfl

/-- The key's frequency with its operands clamped (40_oscillator.md R141); `KEY_OCTAVE_BIAS` is 0. -/
theorem keyFreq_clamped (note octave : Nat) : keyFreq (clampNote note) (clampOctave octave) = keyHz note octave := by
  have hk : keyIndex (clampNote note) (clampOctave octave) =
      12 * (max (min octave 6) 2 : Nat) + (min note 11 : Nat) - 69 := add_zero _
  rw [keyFreq, hk]
  rfl

theorem exec_noteOn_eq (note octave : Nat) (s : State) :
    exec (.noteOn note octave) s = .next (noteOn (keyHz note octave) s) := by
  rw [exec_noteOn, keyFreq_clamped, voiceNoteOn_eq_noteOn]

theorem lit_twentyThousand : lit 20000 = Config.freqMax := by decide +kernel

/-- The frequency argument, its NaN test written as the comparison of R6 (45_commands.md R262). -/
theorem freqOperand_eq (w : Word) :
    freqOperand w = if F64.eq ⟨w⟩ ⟨w⟩ = false then F64.zero else F64.clamp ⟨w⟩ F64.zero Config.freqMax := by
  simp only [freqOperand, F64.isNaN_eq_not_eq, Bool.not_eq_true']

/-! ## One sample of a voice -/

/-- The noise source's draw and count, each by the test of `NOISE_LEVEL` (40_oscillator.md R135). -/
theorem noiseStep_eq (live : Live) (k : Nat) :
    noiseStep live k =
      (if F64.eq live.noiseLevel F64.zero = false then draw k else F64.zero,
       if F64.eq live.noiseLevel F64.zero = false then k + 1 else k) := by
  unfold noiseStep
  cases F64.eq live.noiseLevel F64.zero <;> rfl

/-- The teardown writes `VSTATE` only. -/
theorem teardown_eq (e : Envelope) (v : Voice) :
    teardown e v = { v with vstate := if v.vstate = .releasing ∧ e.stage = .idle then .idle else v.vstate } := by
  unfold teardown
  split <;> rfl

theorem lit_thousand : lit 1000 = Config.lfoCutoffRangeHz := by decide +kernel

/-! ## A block of samples -/

/-- A rendered sample neither reads nor writes `OUTBUF`. -/
theorem renderOne_withOutbuf (fs : F64) (s : State) (m : Memory) :
    renderOne fs { s with outbuf := m } = ((renderOne fs s).1, { (renderOne fs s).2 with outbuf := m }) := by
  unfold renderOne
  cases s.voice.vstate <;> rfl

theorem afterSamples_outbuf (fs : F64) (s : State) (n : Nat) : (afterSamples fs s n).outbuf = s.outbuf := by
  induction n with
  | zero => rfl
  | succ n ih =>
    have ⟨_, _, _, _, _, hout, _⟩ := renderOne_frame fs (afterSamples fs s n)
    exact hout.trans ih

/-- The output of the `i`-th sample rendered from `s`. -/
def sampleOut (fs : F64) (s : State) (i : Nat) : F64 := (renderOne fs (afterSamples fs s i)).1

/-- The memory after `OUTBUF[0..n-1]` has been stored in order. -/
def Memory.storeSamples (m : Memory) (x : Nat → F64) : Nat → Memory
  | 0 => m
  | n + 1 => (m.storeSamples x n).store64 (outbufOffset n) (x n).bits

theorem Memory.wf_storeSamples {m : Memory} (h : m.wf = true) (x : Nat → F64) (n : Nat) :
    (m.storeSamples x n).wf = true := by
  induction n with
  | zero => exact h
  | succ n ih => exact wf_store64 _ _ _ ih

/-- An element reads as it was stored: later elements lie above it. -/
theorem Memory.load64_storeSamples {m : Memory} (h : m.wf = true) (x : Nat → F64) {n i : Nat} (hi : i < n) :
    (m.storeSamples x n).load64 (outbufOffset i) = (x i).bits := by
  induction n with
  | zero => omega
  | succ n ih =>
    rw [Memory.storeSamples]
    rcases Nat.lt_succ_iff_lt_or_eq.1 hi with hlt | rfl
    · rw [load64_store64_other _ _ _ _ (.inl (by unfold outbufOffset; omega)), ih hlt]
    · exact load64_store64_same _ _ _ (wf_storeSamples h x i)

theorem Memory.readByte_storeSamples_outside (m : Memory) (x : Nat → F64) {n a : Nat}
    (ha : a < outbufBase ∨ outbufOffset n ≤ a) : (m.storeSamples x n).readByte a = m.readByte a := by
  induction n with
  | zero => rfl
  | succ n ih =>
    unfold outbufOffset at ha ih
    rw [Memory.storeSamples, readByte_store64_outside _ _ _ _ (by unfold outbufOffset; omega), ih (by omega)]

/-- A block is its samples one after another, each output stored at its place (45_commands.md R266). -/
theorem renderFrames_eq (fs : F64) (n : Nat) (s : State) :
    renderFrames fs n 0 s =
      { afterSamples fs s n with outbuf := s.outbuf.storeSamples (sampleOut fs s) n } := by
  induction n with
  | zero => rfl
  | succ n ih =>
    rw [renderFrames_succ_last, ih, renderOne_withOutbuf, Nat.zero_add]
    rfl

end Sys2Proof.Machine

namespace Sys2Proof.Proofs

open Machine Claims

/-- Settles O47: a core step completes (`completes_coreStep`), and of the steps from outside only an access outside the
contract does not (`inputStep_completes_or_refused`). -/
theorem onlyABadAccessStopsTheMachine : Obligations.OnlyABadAccessStopsTheMachine := by
  intro s
  rcases waits_or_coreMoves_or_hostMoves s with h | ⟨w, hslot, hwait⟩ | ⟨i, rest, hi, hm⟩
  · exact .inl ⟨s, h⟩
  · rw [step_of_core hslot hwait]
    exact .inl (completes_coreStep w s)
  · have ht : takes s i := ⟨by rw [hi]; rfl, hm⟩
    rw [step_of_input hi hm]
    rcases inputStep_completes_or_refused i (takeInput rest s) with h | ⟨a, n, ⟨v, rfl⟩ | rfl, ha, h⟩
    · exact .inl h
    · exact .inr ⟨a, n, .inl ⟨v, ht⟩, ha, h⟩
    · exact .inr ⟨a, n, .inr ht, ha, h⟩

/-- Settles O55: the block is its samples over the memory that stores them (`renderFrames_eq`), and that memory reads back
element by element and keeps what lies outside. -/
theorem renderBlockFillsOutbuf : Obligations.RenderBlockFillsOutbuf := by
  intro frames srate s hwf
  have hblock := renderFrames_eq (sampleRate srate) (min frames 2048) s
  refine ⟨_, congrArg Host.Outcome.next hblock, ?_, fun i hi => ?_, fun a ha => ?_⟩
  · rw [← afterSamples_outbuf (sampleRate srate) s (min frames 2048)]
    rfl
  · exact congrArg F64.mk (Memory.load64_storeSamples hwf _ hi)
  · exact Memory.readByte_storeSamples_outside _ _ ha

/-- Settles O56: the frames of one sample and of a block (`renderOne_frame`, `renderFrames_frame`). -/
theorem renderCommandsFrame : Obligations.RenderCommandsFrame := by
  intro s t frames srate h
  have hone := renderOne_frame (sampleRate srate) s
  have hout : exec (.renderSample srate) s = .next t → ∀ a, t.outbuf.readByte a = s.outbuf.readByte a := by
    obtain ⟨_, _, _, _, _, outbuf, _⟩ := hone
    intro hx a
    cases hx
    rw [outbuf]
  rcases h with hx | hx
  · obtain ⟨err, slot, freqArg, shadow, live, _, inputs, observed, wait, latches, busyReads, freq⟩ := hone
    cases hx
    exact ⟨err, slot, freqArg, shadow, live, freq, inputs, observed, wait, latches, busyReads, hout⟩
  · have hblock := renderFrames_frame (sampleRate srate) (clampFrames frames) 0 s
    obtain ⟨err, slot, freqArg, shadow, live, inputs, observed, wait, latches, busyReads, freq⟩ := hblock
    cases hx
    exact ⟨err, slot, freqArg, shadow, live, freq, inputs, observed, wait, latches, busyReads, hout⟩

/-- Settles O45: the two outcomes of `decode` in the core step; the command completes (`exec_next`). -/
theorem stepRunsTheLatchedCommand : Obligations.StepRunsTheLatchedCommand := by
  rintro s w ⟨hslot, hwait⟩
  rw [step_of_core hslot hwait]
  refine ⟨fun e hd => coreStep_of_error hd s, fun i hd => ?_⟩
  obtain ⟨t, hx⟩ := exec_next i s
  exact ⟨t, hx, coreStep_of_ok hd hx⟩

/-- Settles O48: the arm of `NOP`. -/
theorem nopDoesNothing : Obligations.NopDoesNothing := exec_nop

/-- Settles O49: the branch of a note-on without a voice. -/
theorem noteOnStartsAFreshVoice : Obligations.NoteOnStartsAFreshVoice := by
  intro note octave s hv
  rw [exec_noteOn_eq, noteOn, if_pos hv]

/-- Settles O50: the branch of a note-on with a voice. -/
theorem noteOnRetriggersTheVoice : Obligations.NoteOnRetriggersTheVoice := by
  intro note octave s hv
  rw [exec_noteOn_eq, noteOn, if_neg hv]
  rfl

/-- Settles O51: the operand's test and clamp written out (`freqOperand_eq`), then the note-on of O49 and O50. -/
theorem noteOnHzTakesTheFrequencyArgument : Obligations.NoteOnHzTakesTheFrequencyArgument := by
  unfold Obligations.NoteOnHzTakesTheFrequencyArgument
  rw [lit_twentyThousand]
  intro s
  rw [exec_noteOnHz, voiceNoteOn_eq_noteOn, freqOperand_eq]
  rfl

/-- Settles O54: the signal chain written out; its voice keeps `VSTATE` up to the teardown (`signalChain_voice`,
`teardown_eq`). -/
theorem renderSampleOfAVoice : Obligations.RenderSampleOfAVoice := by
  unfold Obligations.RenderSampleOfAVoice
  rw [lit_one, lit_thousand]
  intro srate s hv
  have hst := (signalChain_voice s.live s.voice s.fenv.level (sampleRate srate) s.draws).1
  rw [exec_renderSample, renderOne_voice _ hv, renderVoice_eq]
  simp only [teardown_eq, hst]
  simp only [signalChain, noiseStep_eq]
  rfl

/-- Settles O57: the arm of `HARD_STOP`. -/
theorem hardStopSilencesAtOnce : Obligations.HardStopSilencesAtOnce := fun s => exec_hardStop s

end Sys2Proof.Proofs
end

section
/-! PROOFS. The statements of 70_reset_and_hazards.md: how a latched command comes to its core step, what the shadow bank can be
heard by, the reset input, and reads while a command is latched. -/

namespace Sys2Proof.Machine

open Claims

/-! ## A latched command waits for its core step -/

theorem slot_of_coreStep {w : Word} {s t : State} (h : coreStep w s = .next t) : t.slot = none := by
  rcases coreStep_cases h with ⟨_, _, rfl⟩ | ⟨_, _, _, _, rfl⟩ <;> rfl

/-- The core step on a latched word completes and empties the slot (45_commands.md R260). -/
theorem step_empties_slot_of_coreMoves {s : State} {w : Word} (h : coreMoves s w) :
    ∃ t, step s = .next t ∧ t.slot = none := by
  obtain ⟨hslot, hwait⟩ := h
  obtain ⟨t, ht⟩ := completes_coreStep w s
  exact ⟨t, by rw [step_of_core hslot hwait, ht], slot_of_coreStep ht⟩

/-- While a command is latched, a host write keeps the slot, the countdown and what is to come: a write to `CMD` overruns. -/
theorem hostWrite_keeps_latched {s : State} {w : Word} (h : s.slot = some w) (a : Nat) (v : Word) :
    (hostWrite a v s).slot = some w ∧ (hostWrite a v s).wait = s.wait ∧ (hostWrite a v s).inputs = s.inputs := by
  rcases hostWrite_cases a v s with hw | hw | hw | ⟨p, hw⟩ | hw <;> rw [hw]
  · exact ⟨h, rfl, rfl⟩
  · rcases writeCmd_cases v s with ⟨hn, _⟩ | ⟨_, _, hu⟩
    · cases hn.symm.trans h
    · rw [hu]
      exact ⟨h, rfl, rfl⟩
  all_goals exact ⟨h, rfl, rfl⟩

/-- The host keeps the contract of 20_memory.md R70 in all that is to come, and the block is not reset. -/
def HostKeepsContract (is : List Input) : Prop := ∀ i ∈ is, i.inContract = true ∧ i ≠ .reset

theorem HostKeepsContract.poll_cons {is : List Input} (h : HostKeepsContract is) : HostKeepsContract (.poll :: is) :=
  List.forall_mem_cons.2 ⟨⟨rfl, by simp⟩, h⟩

/-- A host step that keeps the contract completes, and keeps a latched word and the countdown (70_reset_and_hazards.md R313);
a round of `wait` puts itself back on the list. -/
theorem inputStep_keeps_latched {i : Input} {s : State} {w : Word} (hs : s.slot = some w) (hi : i.inContract = true)
    (hr : i ≠ .reset) (hrest : HostKeepsContract s.inputs) :
    ∃ t, inputStep i s = .next t ∧ t.slot = some w ∧ t.wait = s.wait ∧ HostKeepsContract t.inputs := by
  cases i with
  | read a n => exact ⟨hostRead a s, if_pos hi, hs, rfl, hrest⟩
  | write a n v =>
    obtain ⟨hslot, hwait, hin⟩ := hostWrite_keeps_latched hs a v
    exact ⟨hostWrite a v s, if_pos hi, hslot, hwait, hin ▸ hrest⟩
  | poll =>
    have hbusy : busy s = true := Option.isSome_of_mem hs
    refine ⟨pollStep s, rfl, ?_⟩
    rw [pollStep_eq, if_pos hbusy]
    exact ⟨hs, rfl, hrest.poll_cons⟩
  | reset => exact absurd rfl hr

/-- The core step on `w` comes after at most `n` host steps, and `w` stays latched until then. -/
def CoreStepWithin (w : Word) (n : Nat) (s : State) : Prop :=
  ∃ k u, k ≤ n ∧ core.run k s = .next u ∧ coreMoves u w ∧ ∀ j v, j ≤ k → core.run j s = .next v → v.slot = some w

theorem CoreStepWithin.of_coreMoves {s : State} {w : Word} (h : coreMoves s w) (n : Nat) : CoreStepWithin w n s := by
  refine ⟨0, s, Nat.zero_le n, run_zero s, h, fun j v hj hv => ?_⟩
  obtain rfl : j = 0 := by omega
  cases hv
  exact h.1

theorem CoreStepWithin.of_step {s t : State} {w : Word} {n : Nat} (hs : s.slot = some w) (h : step s = .next t)
    (ht : CoreStepWithin w n t) : CoreStepWithin w (n + 1) s := by
  obtain ⟨k, u, hk, hrun, hu, hkeep⟩ := ht
  refine ⟨k + 1, u, by omega, (run_succ k h).trans hrun, hu, fun j v hj hv => ?_⟩
  cases j with
  | zero =>
    cases hv
    exact hs
  | succ j => exact hkeep j v (by omega) ((run_succ j h).symm.trans hv)

/-- The countdown bounds the host steps before the core step: each takes one off it (R313). -/
theorem coreStepWithin_wait {n : Nat} {s : State} {w : Word} (hs : s.slot = some w) (hn : s.wait = n)
    (hc : HostKeepsContract s.inputs) : CoreStepWithin w n s := by
  induction n generalizing s with
  | zero => exact .of_coreMoves ⟨hs, .inl hn⟩ 0
  | succ n ih =>
    cases hi : s.inputs with
    | nil => exact .of_coreMoves ⟨hs, .inr hi⟩ _
    | cons i rest =>
      rw [hi] at hc
      obtain ⟨⟨hin, hr⟩, hrest⟩ := List.forall_mem_cons.1 hc
      obtain ⟨t, ht, hslot, hwait, hct⟩ := inputStep_keeps_latched (s := takeInput rest s) hs hin hr hrest
      have hstep : step s = .next t := (step_of_input hi (.inr (by omega))).trans ht
      exact .of_step hs hstep (ih hslot (by rw [hwait, takeInput_wait, hn, Nat.add_sub_cancel]) hct)

/-! ## Who reads the shadow bank -/

theorem voiceNoteOn_shadowSet (f : F64) (p : Param) (v : Word) (s : State) :
    voiceNoteOn f (shadowSet p v s) = shadowSet p v (voiceNoteOn f s) := by
  unfold voiceNoteOn
  rw [shadowSet_voice]
  cases s.voice.vstate <;> rfl

theorem voiceNoteOff_shadowSet (p : Param) (v : Word) (s : State) :
    voiceNoteOff (shadowSet p v s) = shadowSet p v (voiceNoteOff s) := by
  unfold voiceNoteOff
  rw [shadowSet_voice]
  cases s.voice.vstate <;> rfl

theorem renderOne_shadowSet (fs : F64) (p : Param) (v : Word) (s : State) :
    renderOne fs (shadowSet p v s) = ((renderOne fs s).1, shadowSet p v (renderOne fs s).2) := by
  unfold renderOne
  rw [shadowSet_voice]
  cases s.voice.vstate <;> rfl

theorem outbufSet_shadowSet (i : Nat) (x : F64) (p : Param) (v : Word) (s : State) :
    outbufSet i x (shadowSet p v s) = shadowSet p v (outbufSet i x s) := rfl

theorem renderFrames_shadowSet (fs : F64) (p : Param) (v : Word) (n i : Nat) (s : State) :
    renderFrames fs n i (shadowSet p v s) = shadowSet p v (renderFrames fs n i s) := by
  induction n generalizing i s with
  | zero => rfl
  | succ n ih => rw [renderFrames_succ, renderFrames_succ, renderOne_shadowSet, outbufSet_shadowSet, ih]

/-- Every command but `SET_PARAMS` commutes with a shadow write (70_reset_and_hazards.md R315). -/
theorem exec_shadowSet {i : Instr} {s t : State} (hi : i ≠ .setParams) (h : exec i s = .next t) (p : Param) (v : Word) :
    exec i (shadowSet p v s) = .next (shadowSet p v t) := by
  cases i with
  | nop | hardStop =>
    cases h
    rfl
  | noteOn | noteOnHz =>
    cases h
    exact congrArg _ (voiceNoteOn_shadowSet _ p v s)
  | noteOff =>
    cases h
    exact congrArg _ (voiceNoteOff_shadowSet p v s)
  | setParams => exact absurd rfl hi
  | renderSample r =>
    cases h
    rw [exec_renderSample, renderOne_shadowSet]
  | renderBlock f r =>
    cases h
    rw [exec_renderBlock, renderFrames_shadowSet]

/-! ## The state after reset -/

theorem getD_index_Param_all (p : Param) : Param.all.getD p.index.val .oscWave = p := by cases p <;> rfl

/-- A shadow register resets to its row's default (10_state.md R43). -/
theorem reset_shadow (p : Param) : State.reset.shadow[p.index] = p.resetWord := by
  have h : State.reset.shadow[p.index] = (Param.all.getD p.index.val .oscWave).resetWord := Vector.getElem_ofFn _
  rw [h, getD_index_Param_all]

/-- Memory with no entry reads as zeros. -/
theorem Memory.load64_nil (a : Nat) : Memory.load64 [] a = 0 := by
  have hbytes : Memory.readBytes [] a 8 = List.replicate 8 0 := rfl
  rw [Memory.load64, hbytes]
  decide

/-- `STATUS` is 0 after reset: no voice, no flag, nothing latched (R34, R300). -/
theorem statusWord_resetBlock (s : State) : statusWord (resetBlock s) = 0 := by
  have h : statusWord (resetBlock s) = statusWord State.reset := rfl
  rw [h]
  decide

/-! ## Reads while a command is latched -/

/-- A bit that is specified while busy reads exactly, busy or not (70_reset_and_hazards.md R312). -/
theorem getLsbD_readValue_of_specified {r : Reg} {i : Nat} (h : (unspecifiedWhileBusy r).getLsbD i = false) (s : State) :
    (readValue s r).getLsbD i = (regValue s r).getLsbD i := by
  unfold readValue
  split
  · by_cases hi : i < 64
    · simp [-BitVec.getLsbD_eq_getElem, h, hi]
    · rw [BitVec.getLsbD_of_ge _ _ (by omega), BitVec.getLsbD_of_ge _ _ (by omega)]
  · rfl

/-- A register with no unspecified bit reads exactly. -/
theorem readValue_of_specified {r : Reg} (h : unspecifiedWhileBusy r = 0) (s : State) : readValue s r = regValue s r :=
  BitVec.eq_of_getLsbD_eq fun _ _ => getLsbD_readValue_of_specified (by rw [h]; exact BitVec.getLsbD_zero) s

end Sys2Proof.Machine

namespace Sys2Proof.Proofs

open Machine Claims

/-- Settles O46: the host steps are counted off the countdown (`coreStepWithin_wait`), and the core step that then comes
completes. -/
theorem latchedCommandCompletes : Obligations.LatchedCommandCompletes := by
  intro s w hs hc
  obtain ⟨k, u, hk, hrun, hu, hkeep⟩ := coreStepWithin_wait hs rfl hc
  obtain ⟨t, ht, hslot⟩ := step_empties_slot_of_coreMoves hu
  exact ⟨k, u, t, hk, hrun, hu, ht, hslot, hkeep⟩

/-- Settles O60: each command's effect commutes with `shadowSet` (`exec_shadowSet`). -/
theorem shadowWritesAreInaudibleBeforeSetParams : Obligations.ShadowWritesAreInaudibleBeforeSetParams :=
  fun p v _ _ _ hi h => exec_shadowSet hi h p v

/-- Settles O58: the step is `resetBlock`; both banks are made of the table's defaults, which the table accepts
(`accepts_resetWord`). -/
theorem resetRestoresTheBlock : Obligations.ResetRestoresTheBlock := by
  intro s rest hi hm
  have hword : ∀ p : Param, State.reset.live.word p = p.resetWord := word_ofWords accepts_resetWord
  refine ⟨resetBlock (takeInput rest s), step_of_input hi hm, rfl, rfl, rfl, rfl, rfl, rfl, statusWord_resetBlock _,
    fun p => ?_, ?_, rfl, rfl, rfl, fun i => congrArg F64.mk (Memory.load64_nil _), rfl, rfl, rfl, rfl, rfl, rfl⟩
  · rw [resetBlock_shadow, resetBlock_live, reset_shadow, hword]
    exact ⟨rfl, rfl⟩
  · simp only [resetBlock_shadow, resetBlock_live, reset_shadow]
    exact holds_ofWords accepts_resetWord

/-- Settles O59: none of these registers, and neither of these bits of `STATUS`, is unspecified while busy. -/
theorem readsThatStayExactWhileBusy : Obligations.ReadsThatStayExactWhileBusy := by
  intro s hs
  refine ⟨readValue_of_specified rfl s, readValue_of_specified rfl s, readValue_of_specified rfl s,
    readValue_of_specified rfl s, readValue_param s, readValue_of_specified rfl s,
    (getLsbD_readValue_status_busy s).trans hs, ?_⟩
  have hspec : (unspecifiedWhileBusy .status).getLsbD 9 = false := rfl
  rw [getLsbD_readValue_of_specified hspec]
  exact (getLsbD_statusWord_errAny s).trans decide_not.symm

end Sys2Proof.Proofs
end
